-- ==== Sys2Proof/Word.lean ====
section
/-! DEFINITION. The plain data the block moves: bits, bytes, 32-bit and 40-bit registers, node indices
(00_scope.md R6 to R8; 10_state.md R21, R27, R29, R31; 20_memory.md R51, R52). All values are unsigned (R8). -/

namespace Sys2Proof

/-- One bit: an element of a bit sequence (R9), of PAY (R52), of a prefix code (R33). `true` is 1. -/
abbrev Bit := Bool

/-- A byte: 8 bits, unsigned, bit 0 the least significant (R7, R51). -/
abbrev Byte := BitVec 8

/-- A 32-bit unsigned register: FREQ[b], SIZE, the four byte lengths, RDBITS (R21 to R28). -/
abbrev Word := BitVec 32

/-- A 40-bit unsigned register: PBITS (R27) and the frequency field of a node (R31). -/
abbrev Wide := BitVec 40

/-- A node index 0..510 (R29, R31). NONE is the absence of an index: the type is `Option NodeIdx`.
ROOT has this type too, though its value is never below 256 (R29, U6; log entry 11). -/
abbrev NodeIdx := Fin 511

end Sys2Proof
end

