-- ==== Sys2Proof/Config.lean ====
section
/-! DEFINITION. The parameters of the block (00_scope.md R6, 10_state.md R41), those it fixes and those it leaves OPEN,
and the one free value the spec leaves open (93_implementation_defined.md U3). -/

namespace Sys2Proof.Config

/-- `HDR_LEN`: bytes of the carrier's header region, never changed and never interpreted (R6, R54). -/
def hdrLen : Nat := 54

/-- `SIZE_BITS`: bits of the frame's size field (R6, R76). -/
def sizeBits : Nat := 32

/-- `NSYM`: entries of the frequency table (R6, R21). -/
def nsym : Nat := 256

/-- `FREQ_BITS`: bits of each transmitted frequency entry (R6, R76). -/
def freqBits : Nat := 32

/-- `HEADER_BITS` = 32 + 256 × 32: frame bits before the payload (R6, R80). -/
def headerBits : Nat := sizeBits + nsym * freqBits

/-- `PAY_BASE` = 54 + 8224: the carrier byte of payload bit 0 (R6, R55). -/
def payBase : Nat := hdrLen + headerBits

/-- `NNODE` = 256 + 255: entries of the NODE table (R6, R31). -/
def nnode : Nat := 511

/-- The parameters R6 marks OPEN: the physical capacities of the five memories, `SRC_CAP` to `DST_CAP` in bytes and
`PAY_CAP` in bits (D17, U8). They are an argument of the model: Machine/Capacity.lean's execWithin and stepWithin take
one of these (log entry 7). -/
structure Capacities where
  src  : Nat
  cin  : Nat
  cout : Nat
  dst  : Nat
  pay  : Nat
deriving DecidableEq, Repr

/-- The most bytes a 32-bit length register can name (R6: LEN_BITS; R23, D21). -/
def maxBytes : Nat := 2 ^ 32 - 1

/-- The default of R6, which the spec's rules assume (D17): all that the length registers can name. -/
def defaultCapacities : Capacities where
  src  := maxBytes
  cin  := maxBytes
  cout := maxBytes
  dst  := maxBytes
  pay  := 2 ^ 40 - 1

/-- FREE VALUE (R53, U3; log entry 3): the byte that reads at an address of a byte memory which the host
declared by a length register and never wrote (R64; log entry 2). The first argument is the number of the draw
(a length write starts a new one), the second the address. It has no body: no proof can use a value of it. -/
opaque unloadedByte : Nat → Nat → Byte

@[simp] theorem hdrLen_eq : hdrLen = 54 := rfl
@[simp] theorem sizeBits_eq : sizeBits = 32 := rfl
@[simp] theorem nsym_eq : nsym = 256 := rfl
@[simp] theorem freqBits_eq : freqBits = 32 := rfl
@[simp] theorem headerBits_eq : headerBits = 8224 := rfl
@[simp] theorem payBase_eq : payBase = 8278 := rfl
@[simp] theorem nnode_eq : nnode = 511 := rfl

end Sys2Proof.Config
end

