-- ==== Sys2Proof/Syntax.lean ====
section
/-! DEFINITION. The commands of the block, one constructor per row of spec/opcode_table.json (30_encoding.md R72),
the two fields of the command word (R70), and the actions of the host (30_encoding.md R85; 10_state.md R42, R35;
70_reset_and_hazards.md R230): the only things that move the block (R231). -/

namespace Sys2Proof

/-- The nine commands (R72). No command carries an operand in its word (R73). -/
inductive Instr where
  /-- `0x01` FCOUNT: count byte frequencies of SRC (R101). -/
  | fcount
  /-- `0x02` TBUILD: build the Huffman tree (R103). -/
  | tbuild
  /-- `0x03` CGEN: generate the code table (R120). -/
  | cgen
  /-- `0x04` BPACK: pack SRC into PAY (R130). -/
  | bpack
  /-- `0x05` FEMBED: embed the frame into the carrier (R161). -/
  | fembed
  /-- `0x06` FEXTRACT: read the frame's header fields (R169). -/
  | fextract
  /-- `0x07` BUNPACK: walk the tree over the payload (R140). -/
  | bunpack
  /-- `0x08` ENCODE: the whole encode path (R180). -/
  | encode
  /-- `0x09` DECODE: the whole decode path (R184). -/
  | decode
deriving DecidableEq, Repr

/-- The command word format `CMD8` (R70): `RSV` is bits [7:4], `OP` is bits [3:0]. -/
structure CmdWord where
  rsv : BitVec 4
  op  : BitVec 4
deriving DecidableEq, Repr

/-- What a host may read (R42): every register, table and memory of R20 except CMD, which the model has no read of
(93_implementation_defined.md U1). -/
inductive ReadLoc where
  | status
  | freq (b : Byte)
  | size
  | srcLen
  | cinLen
  | coutLen
  | dstLen
  | pbits
  | rdbits
  | root
  | tkind
  | node (i : NodeIdx)
  | code (b : Byte)
  | srcByte (a : Word)
  | cinByte (a : Word)
  | coutByte (a : Word)
  | dstByte (a : Word)
  | payBit (k : Wide)
deriving DecidableEq, Repr

/-- The locations of R20 that the host cannot write: a write to one is ignored (R42). -/
inductive ReadOnlyLoc where
  | status
  | coutLen
  | dstLen
  | pbits
  | rdbits
  | root
  | tkind
  | node (i : NodeIdx)
  | code (b : Byte)
  | coutByte (a : Word)
  | dstByte (a : Word)
  | payBit (k : Wide)
deriving DecidableEq, Repr

/-- One action of the host, or of the platform that asserts reset. -/
inductive HostAction where
  /-- A write of `c` to CMD: issues a command (R35, R71). -/
  | writeCmd (c : Byte)
  /-- `LOAD SRC, <bytes>`: the bytes go to SRC from address 0, SRC_LEN becomes their count (R85). -/
  | loadSrc (bytes : List Byte)
  /-- `LOAD CIN, <bytes>` (R85). -/
  | loadCin (bytes : List Byte)
  /-- `SET FREQ[b], v` (R85). -/
  | setFreq (b : Byte) (v : Word)
  /-- `SET SIZE, v` (R85). -/
  | setSize (v : Word)
  /-- `SET SRC_LEN, v` (R85, R53). -/
  | setSrcLen (v : Word)
  /-- `SET CIN_LEN, v` (R85, R53). -/
  | setCinLen (v : Word)
  /-- A write of one byte of SRC (R42, R60). -/
  | pokeSrc (a : Word) (v : Byte)
  /-- A write of one byte of CIN (R42, R60). -/
  | pokeCin (a : Word) (v : Byte)
  /-- A read (R42). -/
  | read (loc : ReadLoc)
  /-- A write to a location the host cannot write (R42). The value is left out: it has no effect. -/
  | writeReadOnly (loc : ReadOnlyLoc)
  /-- The platform asserts reset (R230). -/
  | reset
deriving DecidableEq, Repr

end Sys2Proof
end

