-- ==== Sys2Proof/WellFormed.lean ====
section
/-! DEFINITION. Well-formedness. A command has no operand (30_encoding.md R73), so every term of Instr is well
formed; what can be ill formed is a command word (R70, R74) and a load of more bytes than a length register can
name (10_state.md R23; 92_eei_decisions.md D17, D21). -/

namespace Sys2Proof

/-- A command carries no register field, no immediate and no mode bit (R70, R73): nothing in it can be out of range. -/
def Instr.wf : Instr → Bool
  | .fcount => true
  | .tbuild => true
  | .cgen => true
  | .bpack => true
  | .fembed => true
  | .fextract => true
  | .bunpack => true
  | .encode => true
  | .decode => true

/-- The RSV field must be 0000 (R70). -/
def CmdWord.rsvOk (w : CmdWord) : Bool := w.rsv == 0

/-- The OP field selects a row of R72: 1 to 9. -/
def CmdWord.opOk (w : CmdWord) : Bool := 1 ≤ w.op.toNat && w.op.toNat ≤ 9

/-- A command word that is not reserved (R74). -/
def CmdWord.wf (w : CmdWord) : Bool := w.rsvOk && w.opOk

/-- A host action the block can be given: a loaded file is no longer than its length register can name (R23, D21).
Smaller capacities are the argument of Machine/Capacity.lean (D17). -/
def HostAction.wf : HostAction → Bool
  | .writeCmd _ => true
  | .loadSrc bytes => bytes.length ≤ Config.maxBytes
  | .loadCin bytes => bytes.length ≤ Config.maxBytes
  | .setFreq _ _ => true
  | .setSize _ => true
  | .setSrcLen _ => true
  | .setCinLen _ => true
  | .pokeSrc _ _ => true
  | .pokeCin _ _ => true
  | .read _ => true
  | .writeReadOnly _ => true
  | .reset => true

end Sys2Proof
end

