-- ==== Sys2Proof/Decode.lean ====
section
/-! DEFINITION. Decoding of the byte written to CMD, total on all 256 values, and the encoder (30_encoding.md R70 to
R74). One word is one byte: there is one instruction length (R70). -/

namespace Sys2Proof

/-- Why a byte is no command (R74). -/
inductive ReservedWord where
  /-- RSV is not 0000: the bytes `0x10` to `0xFF`. -/
  | rsvNotZero
  /-- RSV is 0000 and OP is unused: `0x00` and `0x0A` to `0x0F`. -/
  | unusedOp
deriving DecidableEq, Repr

/-- The two fields of a command byte (R70). -/
def splitWord (c : Byte) : CmdWord := { rsv := c.extractLsb' 4 4, op := c.extractLsb' 0 4 }

/-- The command byte of two fields (R70). -/
def joinWord (w : CmdWord) : Byte := w.rsv ++ w.op

/-- The opcode map (R72): the command an OP value selects. -/
def decodeOp (op : BitVec 4) : Option Instr :=
  match op.toNat with
  | 1 => some .fcount
  | 2 => some .tbuild
  | 3 => some .cgen
  | 4 => some .bpack
  | 5 => some .fembed
  | 6 => some .fextract
  | 7 => some .bunpack
  | 8 => some .encode
  | 9 => some .decode
  | _ => none

/-- Decode the byte written to CMD (R71, R72), or say by name why it is reserved (R74). -/
def decode (c : Byte) : Except ReservedWord Instr :=
  if (splitWord c).rsv = 0 then
    match decodeOp (splitWord c).op with
    | some i => .ok i
    | none => .error .unusedOp
  else .error .rsvNotZero

/-- The OP value of a command (R72). -/
def opOf : Instr → BitVec 4
  | .fcount => 1
  | .tbuild => 2
  | .cgen => 3
  | .bpack => 4
  | .fembed => 5
  | .fextract => 6
  | .bunpack => 7
  | .encode => 8
  | .decode => 9

/-- The command byte of a command: RSV zero, OP from the opcode map (R70, R72). -/
def encode (i : Instr) : Byte := joinWord { rsv := 0, op := opOf i }

/-- What this decoder reads from an instruction of `nbits` bits whose bits are `w`, numbered as
spec/opcode_table.json numbers them. A command is one byte, so any bit above bit 7 is no part of a command. -/
def decodeTableWord (nbits w : Nat) : Option Instr :=
  if w % 2 ^ nbits < 256 then
    match decode (BitVec.ofNat 8 (w % 2 ^ nbits)) with
    | .ok i => some i
    | .error _ => none
  else none

end Sys2Proof
end

