-- ==== Sys2Proof/Machine/State.lean ====
section
/-! DEFINITION. The state of the block (10_state.md R20 to R44), why a step can stop, and the state after reset (R43).
Plain data. The last five fields of State are the model's own: the host's side of the interface and the count of draws
of the free value. -/

namespace Sys2Proof.Machine

/-- `STATUS.STATE` (R36). -/
inductive RunState where
  | idle
  | busy
  | done
  | error
deriving DecidableEq, Repr

/-- The error kinds, codes 1 to 6 in this order (60_exceptions.md R201). -/
inductive ErrorKind where
  | insufficientCapacity
  | missingCode
  | corruptHeader
  | incompleteStream
  | invalidCode
  | illegalCommand
deriving DecidableEq, Repr

/-- STATUS (R36): STATE, ERR (`none` is code 0) and EMPTY. The unused codes are unrepresentable (U6). -/
structure Status where
  state : RunState
  err   : Option ErrorKind
  empty : Bool
deriving DecidableEq, Repr

/-- TKIND (R30). Value 3 is unrepresentable (U6). -/
inductive TreeKind where
  | empty
  | degen
  | full
deriving DecidableEq, Repr

/-- A valid entry of the NODE table (R31), tagged as U5 asks: a leaf has no children, an internal node no byte. -/
inductive Node where
  | leaf (sym : Byte) (f : Wide)
  | internal (f : Wide) (l r : Option NodeIdx)
deriving DecidableEq, Repr

/-- FREQ[0..255] (R21). -/
abbrev FreqTable := Vector Word 256

/-- NODE[0..510] (R31). `none` is an entry with V = 0. -/
abbrev NodeTable := Vector (Option Node) 511

/-- CODE[0..255] (R33). `none` is ABSENT. Element 0 of a code is its first bit, the branch taken at the root. -/
abbrev CodeTable := Vector (Option (List Bit)) 256

/-- The Tree Builder's output: NODE, ROOT and TKIND (R29 to R31), always written together (R44). -/
structure Tree where
  node : NodeTable
  root : Option NodeIdx
  kind : TreeKind
deriving DecidableEq, Repr

/-- A byte memory (R39, R50): the bytes written, as address and byte pairs in rising order of address. An unlisted
address below the memory's length reads as the free value of draw `epoch` (R53, U3; log entries 2 and 3). No address
at or beyond the length is listed (R53, U7): Safety.lean states it as an invariant (State.Inv: inputs, outputs). -/
structure Memory where
  cells : List Host.Cell
  epoch : Nat
deriving DecidableEq, Repr

/-- What a host read returns. A NODE entry is returned as a record and a CODE entry as an optional bit list, since
no packing of either is defined (R33, U2). -/
inductive HostValue where
  | status (v : BitVec 8)
  | word (v : Word)
  | wide (v : Wide)
  | index (v : BitVec 9)
  | kind (v : BitVec 2)
  | node (v : Option Node)
  | code (v : Option (List Bit))
  | byte (v : Byte)
  | bit (v : Bit)
deriving DecidableEq, Repr

/-- Why the machine stops with a fault. No command raises one: the block never halts (60_exceptions.md R200). -/
inductive Fault where
  /-- Raised by a host read of a memory address at or beyond that memory's length register (R10: such a read is
  not defined; R53, U7: nothing is there). Safe: the model stops where the spec defines no value. -/
  | readBeyondLength
deriving DecidableEq, Repr

/-- Why the machine gives no meaning to a step. No command raises one. -/
inductive Refusal where
  /-- The arm of an instruction that has no meaning yet. No arm of this model uses it. Safe. -/
  | notModelled (mnemonic : String)
  /-- Raised by a host action other than a CMD write, a STATUS read or reset while STATE = BUSY (R69, U4: undefined,
  to be refused). Safe: such a state is never reached, since commands are atomic (R36). -/
  | hostAccessWhileBusy
  /-- Raised by a load of more bytes than a length register can name (R23, D21: not presentable), and by a step of a
  block with capacities of its own that takes a length beyond one of them (D17, U8: to be refused; stepWithin in
  Machine/Capacity.lean). Safe. -/
  | lengthBeyondCapacity
deriving DecidableEq, Repr

/-- The state of the block: R20's table line by line, then the model's own fields. -/
structure State where
  /-- `FREQ[0..255]` (R21). -/
  freq     : FreqTable
  /-- `SIZE` (R22). -/
  size     : Word
  /-- `SRC_LEN` (R23). -/
  srcLen   : Word
  /-- `CIN_LEN` (R24). -/
  cinLen   : Word
  /-- `COUT_LEN` (R25). -/
  coutLen  : Word
  /-- `DST_LEN` (R26). -/
  dstLen   : Word
  /-- `PBITS` (R27). -/
  pbits    : Wide
  /-- `RDBITS` (R28). -/
  rdbits   : Word
  /-- `ROOT`, `none` for NONE (R29). DESIGN CHOICE (log entry 11): U6 asks that an index in 0..255 be unrepresentable;
  this type admits it, and the invariant of Safety.lean (Tree.Ok: rootTop with internalLayout) excludes it. -/
  root     : Option NodeIdx
  /-- `TKIND` (R30). -/
  tkind    : TreeKind
  /-- `NODE[0..510]` (R31). -/
  node     : NodeTable
  /-- `CODE[0..255]` (R33). -/
  code     : CodeTable
  /-- `CMD` (R35): the byte written and not yet consumed; `none` when it holds nothing, as between commands (R43). -/
  cmd      : Option Byte
  /-- `STATUS` (R36). -/
  status   : Status
  /-- Memory SRC (R50). -/
  src      : Memory
  /-- Memory CIN (R50). -/
  cin      : Memory
  /-- Memory COUT (R50). -/
  cout     : Memory
  /-- Memory DST (R50). -/
  dst      : Memory
  /-- Bit memory PAY (R52). -/
  pay      : List Bit
  /-- MODEL'S OWN (log entry 1): the host's actions still to come, in order (R71). -/
  host     : List HostAction
  /-- MODEL'S OWN (log entry 5): what the host's last read returned (R42); `none` before the first. -/
  readData : Option HostValue
  /-- MODEL'S OWN, the host's side (log entry 2): the bytes the host wrote to SRC at or beyond SRC_LEN, the latest at
  each address, in rising order. They are no state of the block (R53); a length write takes them in (R64, R232). -/
  srcStaged : List Host.Cell
  /-- MODEL'S OWN, the host's side (log entry 2): the same for CIN and CIN_LEN. -/
  cinStaged : List Host.Cell
  /-- MODEL'S OWN (log entry 3): the number of draws of `Config.unloadedByte` made so far. -/
  draws    : Nat
deriving DecidableEq, Repr

/-- FREQ with every entry 0 (R43, R101, R169). -/
def zeroFreq : FreqTable := Vector.replicate 256 0

/-- A byte memory with nothing in it (R43, R53). -/
def emptyMemory : Memory := { cells := [], epoch := 0 }

/-- The state after reset (R43, R230): nothing loaded, no tree built, no output produced. The model's own fields
start empty (log entries 1, 2, 3, 5). -/
def State.reset : State where
  freq     := zeroFreq
  size     := 0
  srcLen   := 0
  cinLen   := 0
  coutLen  := 0
  dstLen   := 0
  pbits    := 0
  rdbits   := 0
  root     := none
  tkind    := .empty
  node     := Vector.replicate 511 none
  code     := Vector.replicate 256 none
  cmd      := none
  status   := { state := .idle, err := none, empty := false }
  src      := emptyMemory
  cin      := emptyMemory
  cout     := emptyMemory
  dst      := emptyMemory
  pay      := []
  host     := []
  readData := none
  srcStaged := []
  cinStaged := []
  draws    := 0

end Sys2Proof.Machine
end

