-- ==== Sys2Proof/Machine/Ops.lean ====
section
/-! DEFINITION. The shared operations: byte memories (20_memory.md R50 to R53, R60), whole-object writes of the
registers and tables (10_state.md R44), and the life of a command: accepting it (10_state.md R36), ending it, and
ending it with an error (60_exceptions.md R210). -/

namespace Sys2Proof.Machine

/-! ### Byte memories -/

/-- The byte listed at address `a`, if there is one. -/
def Memory.lookup : List Host.Cell → Nat → Option Byte
  | [], _ => none
  | (k, v) :: rest, a => if k = a then some v else Memory.lookup rest a

/-- What an unlisted address reads as: the free value of the memory's draw (R53, U3; log entry 3). -/
def Memory.unlisted (epoch a : Nat) : Byte := Config.unloadedByte epoch a

/-- `MemRead(M, a, 1)` (R10). Reading changes nothing and gives the same value again (R60). -/
def Memory.read (m : Memory) (a : Nat) : Byte :=
  (Memory.lookup m.cells a).getD (Memory.unlisted m.epoch a)

/-- List `v` at address `a`, keeping the rising order. -/
def Memory.insertCell : List Host.Cell → Nat → Byte → List Host.Cell
  | [], a, v => [(a, v)]
  | (k, w) :: rest, a, v =>
    if a < k then (a, v) :: (k, w) :: rest
    else if a = k then (a, v) :: rest
    else (k, w) :: Memory.insertCell rest a v

/-- `MemWrite(M, a, 1, v)` (R10). -/
def Memory.write (m : Memory) (a : Nat) (v : Byte) : Memory :=
  { m with cells := Memory.insertCell m.cells a v }

/-- The cells of a byte sequence laid out from address `a` on. -/
def Memory.cellsFrom : Nat → List Byte → List Host.Cell
  | _, [] => []
  | a, b :: bs => (a, b) :: Memory.cellsFrom (a + 1) bs

/-- A memory that holds exactly a byte sequence, its first byte at address 0 (R51). -/
def Memory.ofBytes (bs : List Byte) : Memory := { cells := Memory.cellsFrom 0 bs, epoch := 0 }

/-- The `n` bytes from address `a` on, in address order. -/
def Memory.bytesFrom (m : Memory) : Nat → Nat → List Byte
  | _, 0 => []
  | a, n + 1 => m.read a :: Memory.bytesFrom m (a + 1) n

/-- The content of a memory of length `n`: the sequence of its first `n` bytes (R39). -/
def Memory.bytes (m : Memory) (n : Nat) : List Byte := m.bytesFrom 0 n

/-! What lies at or beyond a memory's length is no state of the block (R53, U7), yet no host write is dropped (R64) and
the host may write a memory and its length in any order (R232). So the bytes the host wrote at or beyond the length are
held on the host's side, staged, until a length write takes them in (log entry 2). -/

/-- A host's write of a byte of a memory of length `len`, as the memory sees it: nothing at or beyond the length. -/
def Memory.writeBelow (m : Memory) (len a : Word) (v : Byte) : Memory :=
  if a < len then m.write a.toNat v else m

/-- The same write, as the staged bytes see it: a byte at or beyond the length. -/
def Memory.stageByte (staged : List Host.Cell) (len a : Word) (v : Byte) : List Host.Cell :=
  if a < len then staged else Memory.insertCell staged a.toNat v

/-- The host's writes, the latest at each address: the memory below its length, and what is staged from there on. -/
def Memory.written (m : Memory) (staged : List Host.Cell) (len : Word) : List Host.Cell :=
  m.cells.filter (fun c => decide (c.1 < len.toNat)) ++ staged.filter (fun c => decide (len.toNat ≤ c.1))

/-- The value the host wrote last at an address of a memory, if it wrote one. -/
def Memory.lastWritten (m : Memory) (staged : List Host.Cell) (len : Word) (a : Nat) : Option Byte :=
  if a < len.toNat then Memory.lookup m.cells a else Memory.lookup staged a

/-- A write of the length register, from `len` to `n`: the host's writes below `n` are the content (R64), and every
other byte below `n` is declared and was not written, a new draw of the free value (R53, U3; log entry 3). -/
def Memory.declare (m : Memory) (staged : List Host.Cell) (len n : Word) (draw : Nat) : Memory :=
  { cells := (m.written staged len).filter (fun c => decide (c.1 < n.toNat)), epoch := draw }

/-- What is staged when the length register goes from `len` to `n`: the host's writes at or beyond `n`. -/
def Memory.stage (m : Memory) (staged : List Host.Cell) (len n : Word) : List Host.Cell :=
  (m.written staged len).filter (fun c => decide (n.toNat ≤ c.1))

/-- Addresses strictly rising. -/
abbrev risingCells (cells : List Host.Cell) : Prop := cells.Pairwise (fun c d => c.1 < d.1)

/-- The canonical form: addresses strictly rising. An unlisted address reads as a value nothing constrains, so no
listed byte is ever redundant (log entry 2). -/
abbrev Memory.wf (m : Memory) : Prop := risingCells m.cells

/-! ### Whole-object writes (R44) -/

/-- Write STATUS. -/
def State.withStatus (s : State) (st : Status) : State := { s with status := st }

/-- Write the whole FREQ file and SIZE. -/
def State.withTable (s : State) (f : FreqTable) (n : Word) : State := { s with freq := f, size := n }

/-- Write NODE, ROOT and TKIND. -/
def State.withTree (s : State) (t : Tree) : State := { s with node := t.node, root := t.root, tkind := t.kind }

/-- Write the whole CODE table. -/
def State.withCode (s : State) (c : CodeTable) : State := { s with code := c }

/-- Write the whole of PAY and PBITS. -/
def State.withPay (s : State) (bits : List Bit) (total : Nat) : State :=
  { s with pay := bits, pbits := BitVec.ofNat 40 total }

/-- Write the whole of COUT and COUT_LEN. -/
def State.withCout (s : State) (bs : List Byte) (n : Word) : State :=
  { s with cout := Memory.ofBytes bs, coutLen := n }

/-- Write the whole of DST and DST_LEN. -/
def State.withDst (s : State) (bs : List Byte) (n : Word) : State :=
  { s with dst := Memory.ofBytes bs, dstLen := n }

/-- Write RDBITS. -/
def State.withRdbits (s : State) (p : Nat) : State := { s with rdbits := BitVec.ofNat 32 p }

/-- The tree as one object. -/
def State.tree (s : State) : Tree := { node := s.node, root := s.root, kind := s.tkind }

/-! ### The life of a command -/

/-- How a command's pseudocode ends (R10): at its last line (or a `done`), or at a `raise`. The state is the one
the pseudocode has left at that point. -/
inductive BodyEnd where
  | done (s : State)
  | raised (e : ErrorKind) (s : State)
deriving DecidableEq, Repr

/-- `do X` inside a composite command (45_encode_decode.md, opening): go on with the next line, unless X raised. -/
def BodyEnd.andThen (r : BodyEnd) (next : State → BodyEnd) : BodyEnd :=
  match r with
  | .done s => next s
  | .raised e s => .raised e s

/-- A command is accepted: `STATE <- BUSY; ERR <- 0; EMPTY <- 0` (R36). This is also the only return from the ERROR
state but reset: there is no return-from-trap command (60_exceptions.md R212). -/
def accept (s : State) : State := s.withStatus { state := .busy, err := none, empty := false }

/-- A command ends without error: `STATE <- DONE` (R36). -/
def complete (s : State) : State := s.withStatus { s.status with state := .done }

/-- The output objects a `raise` itself empties (R210 point 2): DST for the two errors of the walker. For the other
errors the command's first lines have already emptied the output, and an illegal command empties nothing. -/
def emptyOutputs (e : ErrorKind) (s : State) : State :=
  match e with
  | .insufficientCapacity => s
  | .missingCode => s
  | .corruptHeader => s
  | .incompleteStream => s.withDst [] 0
  | .invalidCode => s.withDst [] 0
  | .illegalCommand => s

/-- `raise E` (R210): the output object is empty, `ERR <- code(E); STATE <- ERROR`, and EMPTY keeps the value the
command gave it. Nothing else is saved and control goes nowhere. -/
def raiseError (e : ErrorKind) (s : State) : State :=
  (emptyOutputs e s).withStatus { s.status with state := .error, err := some e }

/-- The end of a command, normal or with an error (R36). -/
def finish : BodyEnd → State
  | .done s => complete s
  | .raised e s => raiseError e s

/-- Accept, run, complete: one atomic transition (R36). -/
def runCommand (body : State → BodyEnd) (s : State) : Host.Outcome State Fault Refusal :=
  .next (finish (body (accept s)))

/-- A reserved byte written to CMD (30_encoding.md R74, 60_exceptions.md R207):
`STATE <- ERROR; ERR <- 6; EMPTY <- 0` and nothing else. -/
def illegalCommand (s : State) : State :=
  raiseError .illegalCommand (s.withStatus { s.status with empty := false })

end Sys2Proof.Machine
end

