-- ==== Sys2Proof/Machine/Operands.lean ====
section
/-! DEFINITION. Where the commands take their operands (20_memory.md R61; 30_encoding.md R73): the contents of the
memories, the bits of the carrier (20_memory.md R55 to R58), the 32-bit fields of the frame (30_encoding.md R76,
R81; 00_scope.md R9) and the fields of a NODE entry (10_state.md R31). -/

namespace Sys2Proof.Machine

/-! ### Bit sequences and 32-bit fields -/

/-- `bits32(v)[j] = v[31 − j]`: most significant bit first (R9, R56). -/
def bits32 (v : Word) : List Bit := (List.range 32).map fun j => v.getLsbD (31 - j)

/-- `val32`: the inverse of `bits32` (R9), as the shift-and-or of 30_encoding.md R81. -/
def val32 (bs : List Bit) : Word :=
  bs.foldl (fun v b => (v <<< 1) ||| (if b then 1 else 0)) 0

/-! ### The carrier's bits -/

/-- The value `EmbedBit` writes: `(byte & 0xFE) | b` (R57). -/
def embedBit (c : Byte) (b : Bit) : Byte := (c &&& 0xFE) ||| (if b then 1 else 0)

/-- `ExtractBit`: bit 0 of the carrier byte (R58). -/
def extractBit (c : Byte) : Bit := c.getLsbD 0

/-- `ExtractBit(a)` of the input carrier (R58). -/
def State.carrierBit (s : State) (a : Nat) : Bit := extractBit (s.cin.read a)

/-- Frame bit `k` of the input carrier: bit 0 of carrier byte `54 + k` (R55). -/
def State.frameBit (s : State) (k : Nat) : Bit := s.carrierBit (Config.hdrLen + k)

/-- Payload bit `p` of the input carrier: bit 0 of carrier byte `8278 + p` (R55, 43_bit_unpacker.md R141). -/
def State.payloadBit (s : State) (p : Nat) : Bit := s.carrierBit (Config.payBase + p)

/-- The 32-bit field of the input carrier whose first frame bit is `k0` (30_encoding.md R81). -/
def State.frameField (s : State) (k0 : Nat) : Word := val32 ((List.range 32).map fun j => s.frameBit (k0 + j))

/-! ### Contents of the memories (R39) -/

/-- The secret file: `SRC[0 .. SRC_LEN−1]`. -/
def State.srcBytes (s : State) : List Byte := s.src.bytes s.srcLen.toNat

/-- The input carrier: `CIN[0 .. CIN_LEN−1]`. -/
def State.cinBytes (s : State) : List Byte := s.cin.bytes s.cinLen.toNat

/-- The output carrier: `COUT[0 .. COUT_LEN−1]`. -/
def State.coutBytes (s : State) : List Byte := s.cout.bytes s.coutLen.toNat

/-- The decoded output: `DST[0 .. DST_LEN−1]`. -/
def State.dstBytes (s : State) : List Byte := s.dst.bytes s.dstLen.toNat

/-- The payload: `PAY[0 .. PBITS−1]`. -/
def State.payBits (s : State) : List Bit := s.pay.take s.pbits.toNat

/-! ### The frame (30_encoding.md R76) -/

/-- The fields before the payload: `bits32(SIZE) ++ bits32(FREQ[0]) ++ ... ++ bits32(FREQ[255])`. -/
def headerFrame (size : Word) (freq : FreqTable) : List Bit := bits32 size ++ freq.toList.flatMap bits32

/-- The frame the registers describe. -/
def State.frame (s : State) : List Bit := headerFrame s.size s.freq ++ s.payBits

/-- The required bit count `T = 8224 + PBITS` (30_encoding.md R80), a natural number, never truncated (R111). -/
def State.requiredBits (s : State) : Nat := Config.headerBits + s.pbits.toNat

/-! ### NODE entries (R31) -/

/-- `F` of a node. -/
def Node.freq : Node → Wide
  | .leaf _ f => f
  | .internal f _ _ => f

/-- `L` of a node: NONE for a leaf. -/
def Node.left : Node → Option NodeIdx
  | .leaf _ _ => none
  | .internal _ l _ => l

/-- `R` of a node: NONE for a leaf. -/
def Node.right : Node → Option NodeIdx
  | .leaf _ _ => none
  | .internal _ _ r => r

/-- The NODE entry at an index: `none` when its V is 0. -/
def NodeTable.entry (t : NodeTable) (i : NodeIdx) : Option Node := t[i.val]

/-- The child a payload or code bit selects: left on 0, right on 1 (43_bit_unpacker.md R142, 41_code_table.md R121).
NONE when there is no child, or no node at `i`. -/
def NodeTable.child (t : NodeTable) (i : NodeIdx) (b : Bit) : Option NodeIdx :=
  match t.entry i with
  | none => none
  | some n => if b then n.right else n.left

end Sys2Proof.Machine
end

