-- ==== Sys2Proof/Machine/Flags.lean ====
section
/-! DEFINITION. The flags and the numeric forms of the status registers (10_state.md R29, R30, R36, R38;
60_exceptions.md R201). There are no arithmetic condition codes (R38). -/

namespace Sys2Proof.Machine

/-- `EMPTY <- (n == 0)`: the flag of a command that handles a file size `n` (R38). The command was accepted, so the
flag is 0 before. -/
def State.setEmpty (s : State) (n : Word) : State := s.withStatus { s.status with empty := n == 0 }

/-- The STATE field (R36). -/
def RunState.code : RunState → BitVec 2
  | .idle => 0
  | .busy => 1
  | .done => 2
  | .error => 3

/-- The error codes (R201). -/
def ErrorKind.code : ErrorKind → BitVec 4
  | .insufficientCapacity => 1
  | .missingCode => 2
  | .corruptHeader => 3
  | .incompleteStream => 4
  | .invalidCode => 5
  | .illegalCommand => 6

/-- The ERR field: 0 when there is no error (R36, R201). -/
def errField : Option ErrorKind → BitVec 4
  | none => 0
  | some e => e.code

/-- STATUS as a host reads it: STATE [1:0], ERR [5:2], EMPTY [6], bit 7 reads 0 (R36). -/
def Status.word (st : Status) : BitVec 8 :=
  (0 : BitVec 1) ++ BitVec.ofBool st.empty ++ errField st.err ++ st.state.code

/-- TKIND as a host reads it (R30). -/
def TreeKind.code : TreeKind → BitVec 2
  | .empty => 0
  | .degen => 1
  | .full => 2

/-- A node index, or NONE = `0x1FF`, as a 9-bit value (R29, R31). -/
def indexField : Option NodeIdx → BitVec 9
  | none => 0x1FF
  | some i => BitVec.ofNat 9 i.val

end Sys2Proof.Machine
end

