-- ==== Sys2Proof/Machine/BitPacker.lean ====
section
/-! DEFINITION. The Bit Packer: BPACK (42_bit_packer.md). -/

namespace Sys2Proof.Machine

/-- `CODE[b]` (R33). -/
def CodeTable.entry (code : CodeTable) (b : Byte) : Option (List Bit) := code[b.toNat]

/-- The sizing pass (R131): the sum of the code lengths, from `total` on; `none` at the first byte, in address
order, that has no code (R133). -/
def sizePass (code : CodeTable) : List Byte → Nat → Option Nat
  | [], total => some total
  | b :: bs, total =>
    match code.entry b with
    | none => none
    | some c => sizePass code bs (total + c.length)

/-- The packing pass (R132): the codes of the bytes, in input order. It runs only after a sizing pass that found
a code for every byte. -/
def packPass (code : CodeTable) (bs : List Byte) : List Bit := bs.flatMap fun b => (code.entry b).getD []

/-- The pseudocode of R130. -/
def bpackBody (s : State) : BodyEnd :=
  let s0 := s.withPay [] 0
  match sizePass s0.code s0.srcBytes 0 with
  | none => .raised .missingCode s0
  | some total => .done (s0.withPay (packPass s0.code s0.srcBytes) total)

/-- BPACK (R130). -/
def execBpack (s : State) : Host.Outcome State Fault Refusal := runCommand bpackBody s

end Sys2Proof.Machine
end

