-- ==== Sys2Proof/Machine/BitUnpacker.lean ====
section
/-! DEFINITION. The Bit Unpacker / Tree Walker: BUNPACK (43_bit_unpacker.md). -/

namespace Sys2Proof.Machine

/-- How the walker's loop ends, with the bytes it has emitted and the number of payload bits it has read. -/
inductive WalkEnd where
  | finished (dst : List Byte) (p : Nat)
  | incomplete (dst : List Byte) (p : Nat)
  | invalid (dst : List Byte) (p : Nat)
deriving DecidableEq, Repr

/-- The sole symbol of the degenerate tree: `NODE[NODE[ROOT].L].SYM` (R146). -/
def soleSymbol (t : NodeTable) (root : NodeIdx) : Option Byte :=
  match t.child root false with
  | none => none
  | some l =>
    match t.entry l with
    | some (.leaf sym _) => some sym
    | some (.internal _ _ _) => none
    | none => none

/-- One step of the walker on one payload bit: the next current node, and the byte emitted if there is one. `none`
is InvalidCode: the position has no node (R145, R149). With `TKIND = DEGEN` the bit's value is ignored (R146). -/
def walkBit (t : Tree) (root cur : NodeIdx) (b : Bit) : Option (NodeIdx × Option Byte) :=
  if t.kind = .degen then
    match soleSymbol t.node root with
    | none => none
    | some sym => some (root, some sym)
  else
    match t.node.child cur b with
    | none => none
    | some nxt =>
      match t.node.entry nxt with
      | none => none
      | some (.leaf sym _) => some (root, some sym)
      | some (.internal _ _ _) => some (nxt, none)

/-- The walker's loop (R140, R147). `left` is the number of payload bits the carrier still holds,
`CIN_LEN − 8278 − p`, so `left = 0` is the test `8278 + p >= CIN_LEN` (R148); `need` is the number of bytes still
owed, `N − |DST|`. -/
def walkLoop (t : Tree) (root : NodeIdx) (bit : Nat → Bit) :
    (left p : Nat) → (cur : NodeIdx) → (need : Nat) → (dst : List Byte) → WalkEnd
  | _, p, _, 0, dst => .finished dst p
  | 0, p, _, _ + 1, dst => .incomplete dst p
  | left + 1, p, cur, need + 1, dst =>
    match walkBit t root cur (bit p) with
    | none => .invalid dst (p + 1)
    | some (cur', none) => walkLoop t root bit left (p + 1) cur' (need + 1) dst
    | some (cur', some b) => walkLoop t root bit left (p + 1) cur' need (dst ++ [b])

/-- The number of payload bits in the input carrier: `max(CIN_LEN − 8278, 0)` (R148). -/
def State.payloadCapacity (s : State) : Nat := s.cinLen.toNat - Config.payBase

/-- What the end of the loop writes: DST and RDBITS, and DST_LEN on success; a `raise` then empties DST (R140, R150). -/
def endWalk (s : State) : WalkEnd → BodyEnd
  | .finished dst p => .done ((s.withRdbits p).withDst dst s.size)
  | .incomplete dst p => .raised .incompleteStream ((s.withRdbits p).withDst dst 0)
  | .invalid dst p => .raised .invalidCode ((s.withRdbits p).withDst dst 0)

/-- The pseudocode of R140. -/
def bunpackBody (s : State) : BodyEnd :=
  let s0 := ((s.setEmpty s.size).withDst [] 0).withRdbits 0
  if s0.size = 0 then .done s0
  else
    match s0.root with
    | none => .raised .invalidCode s0
    | some root =>
      endWalk s0 (walkLoop s0.tree root s0.payloadBit s0.payloadCapacity 0 root s0.size.toNat [])

/-- BUNPACK (R140). -/
def execBunpack (s : State) : Host.Outcome State Fault Refusal := runCommand bunpackBody s

end Sys2Proof.Machine
end

