-- ==== Sys2Proof/Machine/CodeGenerator.lean ====
section
/-! DEFINITION. The Code Table Generator: CGEN (41_code_table.md). -/

namespace Sys2Proof.Machine

/-- CODE with every entry ABSENT (R120). -/
def absentCodes : CodeTable := Vector.replicate 256 none

/-- `Walk(i, path)` (R120, R121): record the path at a leaf; append 0 going left, 1 going right. The first argument
bounds the depth; a child's index is below its parent's (10_state.md R32), so 511 levels never run out
(log entry 6). An index with no node records nothing. -/
def walkCodes (t : NodeTable) : Nat → NodeIdx → List Bit → CodeTable → CodeTable
  | 0, _, _, code => code
  | depth + 1, i, path, code =>
    match t.entry i with
    | none => code
    | some (.leaf sym _) => code.set sym.toNat (some path)
    | some (.internal _ l r) =>
      let afterLeft :=
        match l with
        | none => code
        | some j => walkCodes t depth j (path ++ [false]) code
      match r with
      | none => afterLeft
      | some j => walkCodes t depth j (path ++ [true]) afterLeft

/-- The CodeTable of a tree (R120); every entry ABSENT for the empty tree (R123). -/
def codesOf (t : NodeTable) (root : Option NodeIdx) : CodeTable :=
  match root with
  | none => absentCodes
  | some r => walkCodes t Config.nnode r [] absentCodes

/-- The pseudocode of R120. -/
def cgenBody (s : State) : State := s.withCode (codesOf s.node s.root)

/-- CGEN (R120): always ends DONE. -/
def execCgen (s : State) : Host.Outcome State Fault Refusal := runCommand (fun t => .done (cgenBody t)) s

end Sys2Proof.Machine
end

