-- ==== Sys2Proof/Machine/Framing.lean ====
section
/-! DEFINITION. The Framing Layer: FEMBED and FEXTRACT (44_framing.md). -/

namespace Sys2Proof.Machine

/-- Embed a bit sequence into successive carrier bytes; the bytes after it are copied (R164, R165). -/
def embedBits : List Byte → List Bit → List Byte
  | [], _ => []
  | c :: cs, [] => c :: cs
  | c :: cs, b :: bs => embedBit c b :: embedBits cs bs

/-- The output carrier of R161: header verbatim, one frame bit per carrier byte, tail verbatim. -/
def embedFrame (carrier : List Byte) (frame : List Bit) : List Byte :=
  carrier.take Config.hdrLen ++ embedBits (carrier.drop Config.hdrLen) frame

/-- The pseudocode of R161. The capacity test is on natural numbers (R162, R111). -/
def fembedBody (s : State) : BodyEnd :=
  let s0 := (s.setEmpty s.size).withCout [] 0
  if s0.cinLen.toNat < Config.hdrLen + s0.requiredBits then .raised .insufficientCapacity s0
  else .done (s0.withCout (embedFrame s0.cinBytes s0.frame) s0.cinLen)

/-- FEMBED (R161). -/
def execFembed (s : State) : Host.Outcome State Fault Refusal := runCommand fembedBody s

/-- The frequency table of the input carrier: entry `i` from frame bit `32 + 32·i` on, in byte-value order (R172). -/
def State.frameTable (s : State) : FreqTable :=
  Vector.ofFn fun i : Fin 256 => s.frameField (Config.sizeBits + Config.freqBits * i.val)

/-- The pseudocode of R169. The two tests of R173 come before the field they guard is read. -/
def fextractBody (s : State) : BodyEnd :=
  let s0 := s.withTable zeroFreq 0
  if s0.cinLen.toNat < Config.hdrLen + Config.sizeBits then .raised .corruptHeader s0
  else
    let n := s0.frameField 0
    if n = 0 then .done (s0.setEmpty n)
    else if s0.cinLen.toNat < Config.payBase then .raised .corruptHeader s0
    else .done (s0.withTable s0.frameTable n)

/-- FEXTRACT (R169). -/
def execFextract (s : State) : Host.Outcome State Fault Refusal := runCommand fextractBody s

end Sys2Proof.Machine
end

