-- ==== Sys2Proof/Machine/TreeBuilder.lean ====
section
/-! DEFINITION. The frequency counter and the Tree Builder: FCOUNT and TBUILD (40_tree_builder.md). -/

namespace Sys2Proof.Machine

/-! ### FCOUNT (R101) -/

/-- `FREQ[s] <- FREQ[s] + 1`. -/
def countByte (f : FreqTable) (b : Byte) : FreqTable := f.set b.toNat (f[b.toNat] + 1)

/-- The FrequencyTable of a byte sequence, counted in address order from all zeros. -/
def countBytes (bs : List Byte) : FreqTable := bs.foldl countByte zeroFreq

/-- The pseudocode of R101. -/
def fcountBody (s : State) : State :=
  (s.setEmpty s.srcLen).withTable (countBytes s.srcBytes) s.srcLen

/-- FCOUNT (R101): always ends DONE. -/
def execFcount (s : State) : Host.Outcome State Fault Refusal := runCommand (fun t => .done (fcountBody t)) s

/-! ### The min-priority structure (R107; 10_state.md R40) -/

/-- An element of `Q`: the extraction key `(NODE[i].F, i)` of node `i`. -/
structure Key where
  f : Wide
  i : NodeIdx
deriving DecidableEq, Repr

/-- The tie-break: the lexicographic order of `(F, i)` (R107). -/
def Key.before (a b : Key) : Bool := a.f < b.f || (a.f == b.f && a.i < b.i)

/-- The smaller of two keys. -/
def Key.min (a b : Key) : Key := if b.before a then b else a

/-- `ExtractMin(Q)`: the element of smallest key, and `Q` without it (R107); `none` when `Q` is empty. -/
def extractMin : List Key → Option (Key × List Key)
  | [] => none
  | k :: ks =>
    let m := ks.foldl Key.min k
    some (m, (k :: ks).erase m)

/-! ### TBUILD (R103) -/

/-- The frequency of byte value `b` as a node frequency. -/
def leafFreq (f : FreqTable) (b : Fin 256) : Wide := f[b.val].setWidth 40

/-- The arena with one leaf per byte value of nonzero frequency and no other entry (R104). -/
def leafArena (f : FreqTable) : NodeTable :=
  Vector.ofFn fun i : Fin 511 =>
    if h : i.val < 256 then
      if f[i.val] = 0 then none else some (.leaf (BitVec.ofNat 8 i.val) (leafFreq f ⟨i.val, h⟩))
    else none

/-- The priority structure with one element per leaf (R104). -/
def leafQueue (f : FreqTable) : List Key :=
  (List.finRange 256).filterMap fun b : Fin 256 =>
    if f[b.val] = 0 then none else some { f := leafFreq f b, i := ⟨b.val, by omega⟩ }

/-- The indices 256, 257, ..., 510 of the internal nodes, in creation order (R31). -/
def internalSlots : List NodeIdx := (List.finRange 255).map fun k : Fin 255 => ⟨256 + k.val, by omega⟩

/-- The arena and the priority structure between two iterations of the merge loop. -/
structure Merge where
  node  : NodeTable
  queue : List Key
deriving DecidableEq, Repr

/-- One iteration of the merge loop, creating the node of index `slot` (R108, R109): the first extracted is the
left child, the second the right. `none` when `Q` has no two elements left. -/
def mergeStep (slot : NodeIdx) (m : Merge) : Option Merge :=
  match extractMin m.queue with
  | none => none
  | some (a, q1) =>
    match extractMin q1 with
    | none => none
    | some (c, q2) =>
      let f := a.f + c.f
      some { node := m.node.set slot.val (some (.internal f (some a.i) (some c.i))), queue := { f := f, i := slot } :: q2 }

/-- `while |Q| > 1` (R108), over the indices still free: at most 255 iterations. -/
def mergeLoop : List NodeIdx → Merge → Merge
  | [], m => m
  | slot :: rest, m =>
    match mergeStep slot m with
    | none => m
    | some m' => mergeLoop rest m'

/-- The tree of a frequency table, and of nothing else (R103, R112). -/
def buildTree (f : FreqTable) : Tree :=
  match leafQueue f with
  | [] => { node := leafArena f, root := none, kind := .empty }
  | [k] =>
    { node := (leafArena f).set 256 (some (.internal k.f (some k.i) none)), root := some 256, kind := .degen }
  | k :: k' :: ks =>
    let m := mergeLoop internalSlots { node := leafArena f, queue := k :: k' :: ks }
    { node := m.node, root := m.queue.head?.map Key.i, kind := .full }

/-- The pseudocode of R103. -/
def tbuildBody (s : State) : State := s.withTree (buildTree s.freq)

/-- TBUILD (R103): always ends DONE. -/
def execTbuild (s : State) : Host.Outcome State Fault Refusal := runCommand (fun t => .done (tbuildBody t)) s

end Sys2Proof.Machine
end

