-- ==== Sys2Proof/Machine/WholePath.lean ====
section
/-! DEFINITION. The whole-path commands: ENCODE and DECODE (45_encode_decode.md). -/

namespace Sys2Proof.Machine

/-- The pseudocode of R180: `COUT <- []`, then the five units of the encode path. -/
def encodeBody (s : State) : BodyEnd :=
  (bpackBody (cgenBody (tbuildBody (fcountBody (s.withCout [] 0))))).andThen fembedBody

/-- ENCODE (R180). -/
def execEncode (s : State) : Host.Outcome State Fault Refusal := runCommand encodeBody s

/-- The pseudocode of R184: `DST <- []; RDBITS <- 0`, then the units of the decode path, with the early end on a
size of 0 (R185). -/
def decodeBody (s : State) : BodyEnd :=
  (fextractBody ((s.withDst [] 0).withRdbits 0)).andThen fun t =>
    if t.size = 0 then .done t else bunpackBody (tbuildBody t)

/-- DECODE (R184). -/
def execDecode (s : State) : Host.Outcome State Fault Refusal := runCommand decodeBody s

end Sys2Proof.Machine
end

