-- ==== Sys2Proof/Machine/HostPort.lean ====
section
/-! DEFINITION. The host's side: what it may read and write, and when (10_state.md R35, R42; 20_memory.md R53, R60,
R69; 30_encoding.md R85), and reset (70_reset_and_hazards.md R230, R231). -/

namespace Sys2Proof.Machine

/-- A byte of a memory as the host reads it: nothing at or beyond the length (R53). -/
def Memory.readBelow (m : Memory) (len a : Word) : Option HostValue :=
  if a < len then some (.byte (m.read a.toNat)) else none

/-- The value a host read returns (R42); `none` where the memory holds nothing (R53, U7). -/
def hostRead (loc : ReadLoc) (s : State) : Option HostValue :=
  match loc with
  | .status => some (.status s.status.word)
  | .freq b => some (.word s.freq[b.toNat])
  | .size => some (.word s.size)
  | .srcLen => some (.word s.srcLen)
  | .cinLen => some (.word s.cinLen)
  | .coutLen => some (.word s.coutLen)
  | .dstLen => some (.word s.dstLen)
  | .pbits => some (.wide s.pbits)
  | .rdbits => some (.word s.rdbits)
  | .root => some (.index (indexField s.root))
  | .tkind => some (.kind s.tkind.code)
  | .node i => some (.node s.node[i.val])
  | .code b => some (.code s.code[b.toNat])
  | .srcByte a => s.src.readBelow s.srcLen a
  | .cinByte a => s.cin.readBelow s.cinLen a
  | .coutByte a => s.cout.readBelow s.coutLen a
  | .dstByte a => s.dst.readBelow s.dstLen a
  | .payBit k => if k < s.pbits then s.pay[k.toNat]?.map .bit else none

/-- The actions that are defined while STATE = BUSY: a CMD write, which is ignored (R236), a STATUS read (R69) and
reset (R230). -/
def allowedWhileBusy : HostAction → Bool
  | .writeCmd _ => true
  | .loadSrc _ => false
  | .loadCin _ => false
  | .setFreq _ _ => false
  | .setSize _ => false
  | .setSrcLen _ => false
  | .setCinLen _ => false
  | .pokeSrc _ _ => false
  | .pokeCin _ _ => false
  | .read loc => loc == .status
  | .writeReadOnly _ => false
  | .reset => true

/-- A CMD write (R35): the byte starts a command, unless STATE = BUSY, when the write is ignored (R236). -/
def writeCmd (c : Byte) (s : State) : State :=
  if s.status.state = .busy then s else { s with cmd := some c }

/-- `LOAD SRC` (R85): the bytes from address 0, and their count in SRC_LEN, as one action (U3). What the host wrote
beyond them is staged (R64; log entries 2 and 14). -/
def loadSrc (bytes : List Byte) (s : State) : State :=
  { s with
    src := Memory.ofBytes bytes
    srcLen := BitVec.ofNat 32 bytes.length
    srcStaged := s.src.stage s.srcStaged s.srcLen (BitVec.ofNat 32 bytes.length) }

/-- `LOAD CIN` (R85). -/
def loadCin (bytes : List Byte) (s : State) : State :=
  { s with
    cin := Memory.ofBytes bytes
    cinLen := BitVec.ofNat 32 bytes.length
    cinStaged := s.cin.stage s.cinStaged s.cinLen (BitVec.ofNat 32 bytes.length) }

/-- `SET FREQ[b], v` (R42, R85). -/
def setFreq (b : Byte) (v : Word) (s : State) : State := { s with freq := s.freq.set b.toNat v }

/-- `SET SIZE, v` (R42, R85). -/
def setSize (v : Word) (s : State) : State := { s with size := v }

/-- `SET SRC_LEN, v` (R53, R64, R85; log entry 2). -/
def setSrcLen (v : Word) (s : State) : State :=
  { s with
    src := s.src.declare s.srcStaged s.srcLen v s.draws
    srcLen := v
    srcStaged := s.src.stage s.srcStaged s.srcLen v
    draws := s.draws + 1 }

/-- `SET CIN_LEN, v` (R53, R64, R85; log entry 2). -/
def setCinLen (v : Word) (s : State) : State :=
  { s with
    cin := s.cin.declare s.cinStaged s.cinLen v s.draws
    cinLen := v
    cinStaged := s.cin.stage s.cinStaged s.cinLen v
    draws := s.draws + 1 }

/-- A write of a byte of SRC (R42): into the memory below SRC_LEN, staged from there on (R53, R64; log entry 2). -/
def pokeSrc (a : Word) (v : Byte) (s : State) : State :=
  { s with
    src := s.src.writeBelow s.srcLen a v
    srcStaged := Memory.stageByte s.srcStaged s.srcLen a v }

/-- A write of a byte of CIN (R42): into the memory below CIN_LEN, staged from there on (R53, R64; log entry 2). -/
def pokeCin (a : Word) (v : Byte) (s : State) : State :=
  { s with
    cin := s.cin.writeBelow s.cinLen a v
    cinStaged := Memory.stageByte s.cinStaged s.cinLen a v }

/-- Reset (R230): the state of R43. The host's side lives on: its actions to come, what it has read, and the count
of draws, so that a later draw of the free value is a new one (log entry 4). Bytes written before it are gone: after
reset every byte of a memory is unspecified (U3). -/
def resetBlock (s : State) : State :=
  { State.reset with host := s.host, readData := s.readData, draws := s.draws }

/-- A host read: no side effect on the block (R60). -/
def readOutcome (loc : ReadLoc) (s : State) : Host.Outcome State Fault Refusal :=
  match hostRead loc s with
  | some v => .next { s with readData := some v }
  | none => .fault .readBeyondLength

/-- The effect of a well-formed host action that may happen now. -/
def actOn (a : HostAction) (s : State) : Host.Outcome State Fault Refusal :=
  match a with
  | .writeCmd c => .next (writeCmd c s)
  | .loadSrc bytes => .next (loadSrc bytes s)
  | .loadCin bytes => .next (loadCin bytes s)
  | .setFreq b v => .next (setFreq b v s)
  | .setSize v => .next (setSize v s)
  | .setSrcLen v => .next (setSrcLen v s)
  | .setCinLen v => .next (setCinLen v s)
  | .pokeSrc a v => .next (pokeSrc a v s)
  | .pokeCin a v => .next (pokeCin a v s)
  | .read loc => readOutcome loc s
  | .writeReadOnly _ => .next s
  | .reset => .next (resetBlock s)

/-- One host action. Two kinds the spec has the model refuse: an access while BUSY (U4), and a file beyond a
memory's capacity (U8, D21). -/
def hostAct (a : HostAction) (s : State) : Host.Outcome State Fault Refusal :=
  if s.status.state = .busy ∧ allowedWhileBusy a = false then .refused .hostAccessWhileBusy
  else if a.wf = false then .refused .lengthBeyondCapacity
  else actOn a s

end Sys2Proof.Machine
end

