-- ==== Sys2Proof/Machine/Step.lean ====
section
/-! DEFINITION. One step of the machine (10_state.md R35 to R37; 30_encoding.md R71): the command byte in CMD runs to
completion; with CMD empty the host's next action happens; with no action left the block is idle (60_exceptions.md
R219). -/

namespace Sys2Proof.Machine

/-- The byte written to CMD is decoded: a command is accepted and runs, a reserved byte is an illegal command (R71). -/
def issue (c : Byte) (s : State) : Host.Outcome State Fault Refusal :=
  match decode c with
  | .ok i => exec i s
  | .error _ => .next (illegalCommand s)

/-- One step. The order of commands is the order of the host's writes (R37). -/
def step (s : State) : Host.Outcome State Fault Refusal :=
  match s.cmd with
  | some c => issue c { s with cmd := none }
  | none =>
    match s.host with
    | [] => .next s
    | a :: rest => hostAct a { s with host := rest }

/-- `s` with an instruction's byte in CMD, the one place a command comes from (R35, R67), so that the next step runs
it (log entry 1). A command is one byte: bits above bit 7 are no part of it. -/
def State.withFetchWord (s : State) (nbits w : Nat) : State :=
  { s with cmd := some (BitVec.ofNat 8 (w % 2 ^ nbits)) }

end Sys2Proof.Machine
end

