-- ==== Sys2Proof/Machine/Capacity.lean ====
section
/-! DEFINITION. The block with the capacities of its memories as an argument (00_scope.md R6, OPEN parameters;
92_eei_decisions.md D17; 93_implementation_defined.md U8). The spec defines no behaviour for a length beyond a
capacity, and asks a model to refuse it, so that "every length stays within its capacity" is a precondition of every
claim. exec and step are the block with the default capacities, which no length register can exceed (log entry 7). -/

namespace Sys2Proof.Machine

/-- Every length register is within its memory's capacity. -/
def State.within (c : Config.Capacities) (t : State) : Bool :=
  t.srcLen.toNat ≤ c.src && t.cinLen.toNat ≤ c.cin && t.coutLen.toNat ≤ c.cout && t.dstLen.toNat ≤ c.dst &&
    t.pbits.toNat ≤ c.pay

/-- The state a pseudocode has left at its end, before a `raise` empties an output. -/
def BodyEnd.state : BodyEnd → State
  | .done s => s
  | .raised _ s => s

/-- `|DST|` where a command's pseudocode ends (R140): a walk that ends in an error has filled DST with these bytes
before the `raise` empties it (R210). For a command that does not walk, 0. -/
def emittedBytes (i : Instr) (s : State) : Nat :=
  match i with
  | .fcount => 0
  | .tbuild => 0
  | .cgen => 0
  | .bpack => 0
  | .fembed => 0
  | .fextract => 0
  | .bunpack => (bunpackBody (accept s)).state.dst.cells.length
  | .encode => 0
  | .decode => (decodeBody (accept s)).state.dst.cells.length

/-- The bytes the walker emits in the step from `s`. -/
def stepEmits (s : State) : Nat :=
  match s.cmd with
  | none => 0
  | some b =>
    match decode b with
    | .error _ => 0
    | .ok i => emittedBytes i { s with cmd := none }

/-- An outcome in a block of capacities `c`: refused where a length, or DST in the middle of a walk, exceeds one. -/
def limit (c : Config.Capacities) (emitted : Nat) :
    Host.Outcome State Fault Refusal → Host.Outcome State Fault Refusal
  | .next t => if t.within c && emitted ≤ c.dst then .next t else .refused .lengthBeyondCapacity
  | .fault f => .fault f
  | .refused r => .refused r

/-- A command in a block of capacities `c`. -/
def execWithin (c : Config.Capacities) (i : Instr) (s : State) : Host.Outcome State Fault Refusal :=
  limit c (emittedBytes i s) (exec i s)

/-- A step of a block of capacities `c`. -/
def stepWithin (c : Config.Capacities) (s : State) : Host.Outcome State Fault Refusal :=
  limit c (stepEmits s) (step s)

end Sys2Proof.Machine
end

