-- ==== Sys2Proof/Safety.lean ====
section
/-! DEFINITION. The terms claims use: how a command has ended, what a command leaves unchanged, the spec's own
description of the frame, paths in a tree, and the invariants of the machine (10_state.md R27, R32, R34, R36). -/

namespace Sys2Proof.Machine

/-! ### How a command has ended (R36) -/

/-- The command ended DONE, with `EMPTY = empty`. -/
def State.Done (t : State) (empty : Bool) : Prop :=
  t.status = { state := .done, err := none, empty := empty }

/-- The command ended in ERROR `e`, with `EMPTY = empty`. -/
def State.Failed (t : State) (e : ErrorKind) (empty : Bool) : Prop :=
  t.status = { state := .error, err := some e, empty := empty }

/-! ### What the host has written (R64) -/

/-- The value the host wrote last at an address of SRC. -/
def State.srcLast (s : State) (a : Nat) : Option Byte := s.src.lastWritten s.srcStaged s.srcLen a

/-- The value the host wrote last at an address of CIN. -/
def State.cinLast (s : State) (a : Nat) : Option Byte := s.cin.lastWritten s.cinStaged s.cinLen a

/-! ### What a command leaves unchanged

Equality of two memories is equality of the cells and of the draw, so every byte reads as before. -/

/-- SRC, CIN, SRC_LEN and CIN_LEN, which no command writes (20_memory.md R61), CMD, and the host's side. -/
def KeepsInputs (s t : State) : Prop :=
  t.src = s.src ∧ t.srcLen = s.srcLen ∧ t.cin = s.cin ∧ t.cinLen = s.cinLen ∧
  t.cmd = s.cmd ∧ t.host = s.host ∧ t.readData = s.readData ∧ t.srcStaged = s.srcStaged ∧
  t.cinStaged = s.cinStaged ∧ t.draws = s.draws

/-- FREQ and SIZE. -/
def KeepsTable (s t : State) : Prop := t.freq = s.freq ∧ t.size = s.size

/-- NODE, ROOT and TKIND. -/
def KeepsTree (s t : State) : Prop := t.node = s.node ∧ t.root = s.root ∧ t.tkind = s.tkind

/-- CODE. -/
def KeepsCode (s t : State) : Prop := t.code = s.code

/-- PAY and PBITS. -/
def KeepsPay (s t : State) : Prop := t.pay = s.pay ∧ t.pbits = s.pbits

/-- COUT and COUT_LEN. -/
def KeepsCout (s t : State) : Prop := t.cout = s.cout ∧ t.coutLen = s.coutLen

/-- DST and DST_LEN. -/
def KeepsDst (s t : State) : Prop := t.dst = s.dst ∧ t.dstLen = s.dstLen

/-- RDBITS. -/
def KeepsRdbits (s t : State) : Prop := t.rdbits = s.rdbits

/-! ### The frame, bit by bit, as the table of 30_encoding.md R76 gives it -/

/-- Frame bit `k`: `SIZE[31 − k]`, then `FREQ[i][31 − j]` for `k = 32 + 32·i + j`, then `PAY[k − 8224]`. -/
def State.wireBit (s : State) (k : Nat) : Bit :=
  if k < 32 then s.size.getLsbD (31 - k)
  else if k < 8224 then (s.freq.toList.getD ((k - 32) / 32) 0).getLsbD (31 - (k - 32) % 32)
  else s.pay.getD (k - 8224) false

/-- The sum of the entries of a frequency table, a natural number. -/
def FreqTable.total (f : FreqTable) : Nat := (f.toList.map BitVec.toNat).sum

/-- The number of byte values of nonzero frequency (40_tree_builder.md R103: `m`). -/
def FreqTable.symbols (f : FreqTable) : Nat := (f.toList.filter (fun v => decide (v ≠ 0))).length

/-- The number of valid leaves of an arena. -/
def NodeTable.leaves (t : NodeTable) : Nat :=
  ((List.finRange 256).filter (fun b : Fin 256 => (t[b.val]'(by omega)).isSome)).length

/-- The number of valid entries of an arena. -/
def NodeTable.count (t : NodeTable) : Nat := (t.toList.filter Option.isSome).length

/-- The concatenation of the codes of a byte sequence (42_bit_packer.md R132), where every byte has one. -/
def CodeTable.codeOf (c : CodeTable) (bs : List Byte) : List Bit := bs.flatMap fun b => (c.entry b).getD []

/-! ### Paths in a tree (41_code_table.md R121) -/

/-- The node a path of branch bits leads to from node `i`. -/
def NodeTable.follow (t : NodeTable) : NodeIdx → List Bit → Option NodeIdx
  | i, [] => some i
  | i, b :: bs =>
    match t.child i b with
    | none => none
    | some j => NodeTable.follow t j bs

/-- The frequency of the node at an optional index, as a natural number; 0 where there is none. -/
def NodeTable.freqAt (t : NodeTable) (i : Option NodeIdx) : Nat :=
  match i with
  | none => 0
  | some j => ((t.entry j).map fun n => n.freq.toNat).getD 0

/-- A node that has no parent among the internal nodes of index below `n`: an element of `Q` just before the node of
index `n` is created (R108). -/
def OpenAt (t : NodeTable) (n : Nat) (i : NodeIdx) : Prop :=
  i.val < n ∧ t.entry i ≠ none ∧ ∀ p b, p.val < n → t.child p b ≠ some i

/-- The tie-break of R107 on the nodes of an arena. -/
def NodeBefore (t : NodeTable) (i j : NodeIdx) : Prop :=
  t.freqAt (some i) < t.freqAt (some j) ∨ (t.freqAt (some i) = t.freqAt (some j) ∧ i.val < j.val)

/-! ### Invariants -/

/-- R29 to R32: the invariants of NODE, ROOT and TKIND. -/
structure Tree.Ok (t : Tree) : Prop where
  /-- A leaf of byte value `b` is at index `b` (R31). -/
  leafLayout : ∀ i sym f, t.node.entry i = some (.leaf sym f) → sym.toNat = i.val
  /-- An internal node is at index 256 or above (R31). -/
  internalLayout : ∀ i f l r, t.node.entry i = some (.internal f l r) → 256 ≤ i.val
  /-- A child is a valid node of smaller index (R32 (c)). -/
  childBelow : ∀ i b j, t.node.child i b = some j → j.val < i.val ∧ t.node.entry j ≠ none
  /-- An internal node has two children, but the degenerate root, which has a left child only (R32 (b), R30). -/
  twoChildren : ∀ i f l r, t.node.entry i = some (.internal f l r) →
    l ≠ none ∧ (r = none ↔ t.kind = .degen ∧ t.root = some i)
  /-- The left child of the degenerate root is the sole leaf (R32 (b), R106). -/
  degenLeaf : t.kind = .degen → ∀ r, t.root = some r →
    ∃ l sym f, t.node.child r false = some l ∧ t.node.entry l = some (.leaf sym f)
  /-- Every valid node but the root is the child of exactly one internal node, on one side (R32 (a)). -/
  oneParent : ∀ i, t.node.entry i ≠ none → t.root ≠ some i →
    ∃ p b, t.node.child p b = some i ∧ ∀ p' b', t.node.child p' b' = some i → p' = p ∧ b' = b
  /-- The root is an internal node and nobody's child (R29, R32 (a)). -/
  rootTop : ∀ r, t.root = some r →
    (∃ f l r', t.node.entry r = some (.internal f l r')) ∧ ∀ p b, t.node.child p b ≠ some r
  /-- `TKIND = EMPTY` exactly when `ROOT = NONE` (R30). -/
  emptyKind : t.kind = .empty ↔ t.root = none
  /-- `TKIND = DEGEN` exactly when the root has no right child (R30). -/
  degenKind : t.kind = .degen ↔ ∃ r, t.root = some r ∧ t.node.child r true = none
  /-- When `ROOT = NONE` no entry is valid (R32 (d)). -/
  noNodes : t.root = none → ∀ i, t.node.entry i = none
  /-- Every valid entry is reachable from ROOT (R32 (d)). -/
  reachable : ∀ r i, t.root = some r → t.node.entry i ≠ none → ∃ path, t.node.follow r path = some i
  /-- The frequency of an internal node is the sum of its children's (R31). -/
  freqSum : ∀ i f l r, t.node.entry i = some (.internal f l r) → f.toNat = t.node.freqAt l + t.node.freqAt r

/-- R33, R34: a present code has 1 to 255 bits, and no present code is a prefix of another. -/
structure CodeTable.Ok (c : CodeTable) : Prop where
  lengths : ∀ b x, c.entry b = some x → x ≠ [] ∧ x.length ≤ 255
  prefixFree : ∀ b b' x x', b ≠ b' → c.entry b = some x → c.entry b' = some x' → ¬ x <+: x'

/-- An output memory holds a byte at every address below its length and none elsewhere (R25, R26, R53). -/
def Memory.Holds (m : Memory) (n : Word) : Prop := m.cells.map Prod.fst = List.range n.toNat

/-- A byte memory holds nothing at or beyond its length: that is no state (R53, U7). -/
def Memory.Below (m : Memory) (n : Word) : Prop := ∀ c ∈ m.cells, c.1 < n.toNat

/-- The invariant of the machine. -/
structure State.Inv (s : State) : Prop where
  /-- The tree (R29 to R32). -/
  tree : s.tree.Ok
  /-- The code table (R33, R34). -/
  codes : s.code.Ok
  /-- PBITS is the length of PAY (R27). -/
  pay : s.pay.length = s.pbits.toNat
  /-- BUSY is never observable (R36). -/
  notBusy : s.status.state ≠ .busy
  /-- ERR is 0 exactly when STATE is not ERROR (R36, R201). -/
  errField : s.status.err = none ↔ s.status.state ≠ .error
  /-- The byte memories are in canonical form. -/
  memories : s.src.wf ∧ s.cin.wf ∧ s.cout.wf ∧ s.dst.wf
  /-- The input memories hold nothing at or beyond their length (R53). -/
  inputs : s.src.Below s.srcLen ∧ s.cin.Below s.cinLen
  /-- The bytes the host has staged lie at or beyond the length, in rising order (log entry 2). -/
  staged : risingCells s.srcStaged ∧ (∀ c ∈ s.srcStaged, s.srcLen.toNat ≤ c.1) ∧
    risingCells s.cinStaged ∧ ∀ c ∈ s.cinStaged, s.cinLen.toNat ≤ c.1
  /-- The output memories hold exactly their length. -/
  outputs : s.cout.Holds s.coutLen ∧ s.dst.Holds s.dstLen

/-! ### Sequences of unit commands (30_encoding.md R86) -/

/-- Run commands one after the other; the host stops at the first that ends in ERROR (R86). -/
def runUnits : List Instr → State → Host.Outcome State Fault Refusal
  | [], s => .next s
  | i :: is, s =>
    match exec i s with
    | .next t => if t.status.state = .error then .next t else runUnits is t
    | .fault f => .fault f
    | .refused r => .refused r

end Sys2Proof.Machine
end

