-- ==== Sys2Proof/Certificates/Slice0/Obligations.lean ====
section
/-! DEFINITION. The statements about the block, for the provers. Each docstring names the rule of spec/ it formalises
and, where a statement needs one, the invariant it assumes (a field of State.Inv, which StepKeepsInvariant states is
kept). -/

open Sys2Proof Sys2Proof.Machine

/-! ### The command word and issuing a command -/

/-- R72: the nine bytes of the opcode map. -/
def Obligations.OpcodeMapBytes : Prop :=
  decode 0x01 = .ok .fcount ∧ decode 0x02 = .ok .tbuild ∧ decode 0x03 = .ok .cgen ∧ decode 0x04 = .ok .bpack ∧
  decode 0x05 = .ok .fembed ∧ decode 0x06 = .ok .fextract ∧ decode 0x07 = .ok .bunpack ∧
  decode 0x08 = .ok .encode ∧ decode 0x09 = .ok .decode

/-- 30_encoding.md section 1: decoding and encoding agree in both directions, and every other byte is reserved. -/
def Obligations.DecodeEncodeAgree : Prop :=
  (∀ i : Instr, decode (encode i) = .ok i) ∧
  (∀ (c : Byte) (i : Instr), decode c = .ok i → encode i = c) ∧
  (∀ c : Byte, (∃ e, decode c = .error e) ↔ c.toNat = 0 ∨ 9 < c.toNat)

/-- 10_state.md R35, R37: a step with a command byte in CMD is exec of the decoded command, with CMD consumed; with
CMD empty it is the host's next action; with nothing to do the block keeps its state. The place of the byte in CMD
and the list of host actions are the model's own (log entry 1). -/
def Obligations.StepRunsDecodedCommand : Prop :=
  (∀ (s : State) (c : Byte) (i : Instr), s.cmd = some c → decode c = .ok i →
    step s = exec i { s with cmd := none }) ∧
  (∀ (s : State) (a : HostAction) (rest : List HostAction), s.cmd = none → s.host = a :: rest →
    step s = hostAct a { s with host := rest }) ∧
  (∀ s : State, s.cmd = none → s.host = [] → step s = .next s)

/-- R35, R71, R236: a CMD write while STATE is not BUSY issues the command, which the next step runs, or raises
IllegalCommand when the byte is reserved; a write while STATE is BUSY is ignored. That the write and the command are
two steps is the model's choice (log entry 1). -/
def Obligations.CmdWriteIssuesOrIsIgnored : Prop :=
  ∀ (s : State) (c : Byte) (rest : List HostAction), s.cmd = none → s.host = .writeCmd c :: rest →
    (s.status.state ≠ .busy → ∀ i, decode c = .ok i →
      ∃ u, step s = .next u ∧ u = { s with host := rest, cmd := some c } ∧ step u = exec i { s with host := rest }) ∧
    (s.status.state ≠ .busy → ∀ e, decode c = .error e →
      ∃ u, step s = .next u ∧
        step u = .next { s with host := rest, status := { state := .error, err := some .illegalCommand, empty := false } }) ∧
    (s.status.state = .busy → step s = .next { s with host := rest })

/-- R74, R207: the reserved bytes are `0x00` and those above `0x09`; a reserved byte raises IllegalCommand, error
code 6, and changes nothing else. -/
def Obligations.ReservedByteIsIllegalCommand : Prop :=
  (∀ c : Byte, (∃ e, decode c = .error e) ↔ c.toNat = 0 ∨ 9 < c.toNat) ∧ ErrorKind.code .illegalCommand = 6 ∧
  ∀ (s : State) (c : Byte), c.toNat = 0 ∨ 9 < c.toNat →
    issue c s = .next { s with status := { state := .error, err := some .illegalCommand, empty := false } }

/-! ### Every command -/

/-- R36, R240: every command, on every state, is one transition to a state that is DONE with ERR 0 or ERROR with an
error; it writes neither the host's memories nor their lengths (20_memory.md R61). -/
def Obligations.EveryCommandEndsDoneOrError : Prop :=
  ∀ (i : Instr) (s : State), ∃ t, exec i s = .next t ∧
    ((∃ e, t.Done e) ∨ (∃ k e, t.Failed k e)) ∧ KeepsInputs s t

/-- R212: a command runs from ERROR exactly as from IDLE or DONE: what STATUS held before has no effect. -/
def Obligations.StatusBeforeCommandHasNoEffect : Prop :=
  ∀ (i : Instr) (s : State) (st : Status), exec i { s with status := st } = exec i s

/-- R201, R209, R181: which errors each command can end in. -/
def Obligations.ErrorKindsByCommand : Prop :=
  ∀ (i : Instr) (s : State), ∃ t, exec i s = .next t ∧
    match i with
    | .fcount => t.status.err = none
    | .tbuild => t.status.err = none
    | .cgen => t.status.err = none
    | .bpack => t.status.err = none ∨ t.status.err = some .missingCode
    | .fembed => t.status.err = none ∨ t.status.err = some .insufficientCapacity
    | .fextract => t.status.err = none ∨ t.status.err = some .corruptHeader
    | .bunpack => t.status.err = none ∨ t.status.err = some .incompleteStream ∨ t.status.err = some .invalidCode
    | .encode => t.status.err = none ∨ t.status.err = some .insufficientCapacity
    | .decode => t.status.err = none ∨ t.status.err = some .corruptHeader ∨
        t.status.err = some .incompleteStream ∨ t.status.err = some .invalidCode

/-- R38: which commands set EMPTY, and when; an accepted command has cleared it, so it is 0 otherwise. -/
def Obligations.EmptyFlagRule : Prop :=
  ∀ (i : Instr) (s : State), ∃ t, exec i s = .next t ∧
    (t.status.empty = true ↔
      match i with
      | .fcount => s.srcLen = 0
      | .tbuild => False
      | .cgen => False
      | .bpack => False
      | .fembed => s.size = 0
      | .fextract => 86 ≤ s.cinLen.toNat ∧ ∀ j, j < 32 → extractBit (s.cin.read (54 + j)) = false
      | .bunpack => s.size = 0
      | .encode => s.srcLen = 0
      | .decode => 86 ≤ s.cinLen.toNat ∧ ∀ j, j < 32 → extractBit (s.cin.read (54 + j)) = false)

/-- R36, R201: the fields of STATUS as a host reads them, and the error codes. -/
def Obligations.StatusWordFields : Prop :=
  ∀ st : Status, st.word.extractLsb' 0 2 = st.state.code ∧
    st.word.extractLsb' 2 4 = (match st.err with | none => 0 | some e => e.code) ∧
    st.word.getLsbD 6 = st.empty ∧ st.word.getLsbD 7 = false ∧
    RunState.code .idle = 0 ∧ RunState.code .busy = 1 ∧ RunState.code .done = 2 ∧ RunState.code .error = 3 ∧
    ErrorKind.code .insufficientCapacity = 1 ∧ ErrorKind.code .missingCode = 2 ∧ ErrorKind.code .corruptHeader = 3 ∧
    ErrorKind.code .incompleteStream = 4 ∧ ErrorKind.code .invalidCode = 5 ∧ ErrorKind.code .illegalCommand = 6

/-! ### Reset -/

/-- R43, R230: reset, at any time, leaves the state of R43, and that state meets the invariants R43 names. -/
def Obligations.ResetLeavesEmptyBlock : Prop :=
  ∀ s : State, ∃ t, hostAct .reset s = .next t ∧
    t.status = { state := .idle, err := none, empty := false } ∧
    (∀ b : Fin 256, t.freq[b.val] = 0) ∧ t.size = 0 ∧
    t.srcLen = 0 ∧ t.cinLen = 0 ∧ t.coutLen = 0 ∧ t.dstLen = 0 ∧ t.pbits = 0 ∧ t.rdbits = 0 ∧
    t.root = none ∧ t.tkind = .empty ∧ (∀ i : NodeIdx, t.node[i.val] = none) ∧
    (∀ b : Fin 256, t.code[b.val] = none) ∧ t.cmd = none ∧
    t.srcBytes = [] ∧ t.cinBytes = [] ∧ t.coutBytes = [] ∧ t.dstBytes = [] ∧ t.payBits = [] ∧
    t.tree.Ok ∧ t.code.Ok ∧ t.freq.total = t.size.toNat

/-- 70_reset_and_hazards.md R232, first sentence: what each command does in the reset state. -/
def Obligations.CommandsFromReset : Prop :=
  (∃ t, exec .fcount State.reset = .next t ∧ t.Done true ∧ ∀ b : Fin 256, t.freq[b.val] = 0) ∧
  (∃ t, exec .tbuild State.reset = .next t ∧ t.Done false ∧ t.root = none ∧ t.tkind = .empty) ∧
  (∃ t, exec .cgen State.reset = .next t ∧ t.Done false ∧ ∀ b : Fin 256, t.code[b.val] = none) ∧
  (∃ t, exec .bpack State.reset = .next t ∧ t.Done false ∧ t.pay = [] ∧ t.pbits = 0) ∧
  (∃ t, exec .fembed State.reset = .next t ∧ t.Failed .insufficientCapacity true) ∧
  (∃ t, exec .fextract State.reset = .next t ∧ t.Failed .corruptHeader false) ∧
  (∃ t, exec .bunpack State.reset = .next t ∧ t.Done true ∧ t.dstLen = 0) ∧
  (∃ t, exec .encode State.reset = .next t ∧ t.Failed .insufficientCapacity true) ∧
  (∃ t, exec .decode State.reset = .next t ∧ t.Failed .corruptHeader false)

/-! ### FCOUNT -/

/-- R101: FCOUNT counts the bytes of SRC and always ends DONE. -/
def Obligations.FcountCountsBytes : Prop :=
  encode .fcount = 0x01 ∧
  ∀ s : State, ∃ t, exec .fcount s = .next t ∧ t.Done (s.srcLen == 0) ∧
    (∀ b : Byte, (t.freq[b.toNat]).toNat = s.srcBytes.count b) ∧
    t.size = s.srcLen ∧ t.freq.total = t.size.toNat ∧
    KeepsInputs s t ∧ KeepsTree s t ∧ KeepsCode s t ∧ KeepsPay s t ∧ KeepsCout s t ∧ KeepsDst s t ∧ KeepsRdbits s t

/-! ### TBUILD -/

/-- R104 and the frame of R103: TBUILD ends DONE, its leaves are the byte values of nonzero frequency, each placed in
the priority structure; a byte value of frequency 0 has no node and later no code; and TBUILD writes nothing but the
tree and STATUS. -/
def Obligations.TbuildLeaves : Prop :=
  ∀ s : State, ∃ t, exec .tbuild s = .next t ∧ t.Done false ∧
    (∀ b : Byte, t.node[b.toNat] =
      if s.freq[b.toNat] = 0 then none else some (.leaf b ((s.freq[b.toNat]).setWidth 40))) ∧
    (∀ k : Key, k ∈ leafQueue s.freq ↔ ∃ b : Byte, s.freq[b.toNat] ≠ 0 ∧ k.i.val = b.toNat ∧
      k.f = (s.freq[b.toNat]).setWidth 40) ∧
    (∀ (g : State) (b : Byte), exec .cgen t = .next g → s.freq[b.toNat] = 0 → g.code.entry b = none) ∧
    KeepsInputs s t ∧ KeepsTable s t ∧ KeepsCode s t ∧ KeepsPay s t ∧ KeepsCout s t ∧ KeepsDst s t ∧ KeepsRdbits s t

/-- R105: the empty table. -/
def Obligations.TbuildEmptyTable : Prop :=
  ∀ s : State, (∀ b : Fin 256, s.freq[b.val] = 0) →
    ∃ t, exec .tbuild s = .next t ∧ t.Done false ∧ t.root = none ∧ t.tkind = .empty ∧
      ∀ i : NodeIdx, t.node[i.val] = none

/-- R106: the degenerate table; and a one-child node is produced only at the root and only in this case. -/
def Obligations.TbuildDegenerateTable : Prop :=
  (∀ (s : State) (b : Byte), s.freq[b.toNat] ≠ 0 → (∀ c : Byte, c ≠ b → s.freq[c.toNat] = 0) →
    ∃ (t : State) (leaf root : NodeIdx), exec .tbuild s = .next t ∧ t.Done false ∧
      leaf.val = b.toNat ∧ root.val = 256 ∧ t.root = some root ∧ t.tkind = .degen ∧
      t.node.entry leaf = some (.leaf b ((s.freq[b.toNat]).setWidth 40)) ∧
      t.node.entry root = some (.internal ((s.freq[b.toNat]).setWidth 40) (some leaf) none) ∧
      ∀ i : NodeIdx, i ≠ leaf → i ≠ root → t.node.entry i = none) ∧
  ∀ s : State, ∃ t, exec .tbuild s = .next t ∧
    ∀ i f l r, t.node.entry i = some (.internal f l r) → l = none ∨ r = none →
      t.root = some i ∧ l ≠ none ∧ r = none ∧ s.freq.symbols = 1

/-- R107: ExtractMin removes the element of smallest key `(F, i)`, and what the order is: lower frequency first, and
at equal frequency the lower node index. Keys of distinct indices are never tied, and a leaf precedes an internal node
of equal frequency. -/
def Obligations.ExtractMinTakesSmallestKey : Prop :=
  (∀ (q q' : List Key) (k : Key), extractMin q = some (k, q') →
    q.Perm (k :: q') ∧ ∀ x ∈ q, k.f < x.f ∨ (k.f = x.f ∧ k.i ≤ x.i)) ∧
  (∀ q : List Key, extractMin q = none ↔ q = []) ∧
  (∀ a b : Key, a.before b = true ↔ a.f < b.f ∨ (a.f = b.f ∧ a.i < b.i)) ∧
  (∀ a b : Key, a.i ≠ b.i → (a.before b = true ↔ b.before a = false)) ∧
  (∀ a b : Key, a.f = b.f → a.i.val < 256 → 256 ≤ b.i.val → a.before b = true)

/-- R107 to R109 read off the finished arena: with `m ≥ 2` symbols exactly the internal nodes 256 .. 256 + m − 2
exist, and each joins the two least of the nodes then open, the least on the left. -/
def Obligations.TbuildMergesTwoLeast : Prop :=
  ∀ s : State, 2 ≤ s.freq.symbols → ∃ t, exec .tbuild s = .next t ∧ t.Done false ∧
    t.tkind = .full ∧
    ∀ n : NodeIdx, 256 ≤ n.val →
      (n.val < 255 + s.freq.symbols → ∃ (f : Wide) (a c : NodeIdx),
        t.node.entry n = some (.internal f (some a) (some c)) ∧
        f.toNat = t.node.freqAt (some a) + t.node.freqAt (some c) ∧
        OpenAt t.node n.val a ∧ OpenAt t.node n.val c ∧ NodeBefore t.node a c ∧
        ∀ x, OpenAt t.node n.val x → x ≠ a → x ≠ c → NodeBefore t.node c x) ∧
      (255 + s.freq.symbols ≤ n.val → t.node.entry n = none)

/-- R110: the root is the last internal node created, and its frequency is the sum of the table. -/
def Obligations.TbuildRootIsTotal : Prop :=
  ∀ s : State, ∃ t, exec .tbuild s = .next t ∧
    (∀ r, t.root = some r → t.node.freqAt (some r) = s.freq.total) ∧
    (s.freq.symbols = 0 → t.root = none) ∧
    (s.freq.symbols = 1 → ∃ r, t.root = some r ∧ r.val = 256) ∧
    (2 ≤ s.freq.symbols → ∃ r, t.root = some r ∧ r.val = 256 + s.freq.symbols - 2)

/-- 40_tree_builder.md R113, the counts: 0, 2 or 2m − 1 valid nodes, and a depth between 1 and m − 1 for every leaf
(1 for the sole leaf of the degenerate tree). Optimality, which R113 marks as general knowledge, is not claimed. -/
def Obligations.TbuildShapeCounts : Prop :=
  ∀ s : State, ∃ t, exec .tbuild s = .next t ∧
    (s.freq.symbols = 0 → t.node.count = 0) ∧
    (s.freq.symbols = 1 → t.node.count = 2) ∧
    (2 ≤ s.freq.symbols → t.node.count = 2 * s.freq.symbols - 1) ∧
    ∀ r i path, t.root = some r → i.val < 256 → t.node.follow r path = some i →
      1 ≤ path.length ∧ path.length ≤ max 1 (s.freq.symbols - 1)

/-- R32: the invariants of NODE after reset and after any TBUILD: one parent each and a root without one, two children but for the
degenerate root, children before parents, every valid node reachable, and the root's frequency. -/
def Obligations.TbuildTreeInvariants : Prop :=
  State.reset.tree.Ok ∧
  ∀ s : State, ∃ t, exec .tbuild s = .next t ∧ t.tree.Ok ∧ ∀ r, t.root = some r → t.node.freqAt (some r) = s.freq.total

/-- R112: the tree, and the code table made from it, are functions of FREQ and of nothing else. -/
def Obligations.TbuildDeterministic : Prop :=
  ∀ s s' t t' : State, s.freq = s'.freq → exec .tbuild s = .next t → exec .tbuild s' = .next t' →
    t.node = t'.node ∧ t.root = t'.root ∧ t.tkind = t'.tkind ∧
    ∀ g g', exec .cgen t = .next g → exec .cgen t' = .next g' → g.code = g'.code

/-! ### CGEN -/

/-- R121 and the frame of R120: the code of a byte is the path from the root to its leaf, and no path is longer than
255. Assumes the tree
invariants of R32 (Tree.Ok), since R121 rests on them. -/
def Obligations.CgenCodesArePaths : Prop :=
  ∀ s : State, s.tree.Ok → ∃ t, exec .cgen s = .next t ∧ t.Done false ∧
    (∀ (b : Byte) (path : List Bit), t.code.entry b = some path ↔
      ∃ (r i : NodeIdx) (f : Wide), s.root = some r ∧ s.node.follow r path = some i ∧
        s.node.entry i = some (.leaf b f)) ∧
    (∀ (b : Byte) (path : List Bit), t.code.entry b = some path → path.length ≤ 255) ∧
    KeepsInputs s t ∧ KeepsTable s t ∧ KeepsTree s t ∧ KeepsPay s t ∧ KeepsCout s t ∧ KeepsDst s t ∧ KeepsRdbits s t

/-- R124: present exactly for the valid leaves; a prefix code; no empty code; and the Kraft sum, written with
numerators over 2^255. Assumes Tree.Ok, the invariants of a tree left by TBUILD. -/
def Obligations.CgenPrefixCode : Prop :=
  ∀ s : State, s.tree.Ok → ∃ t, exec .cgen s = .next t ∧
    (∀ b : Byte, t.code.entry b ≠ none ↔ s.node[b.toNat]'(by omega) ≠ none) ∧
    (∀ (b b' : Byte) (x x' : List Bit), b ≠ b' → t.code.entry b = some x → t.code.entry b' = some x' → ¬ x <+: x') ∧
    (∀ (b : Byte) (x : List Bit), t.code.entry b = some x → x ≠ []) ∧
    (s.tkind = .full →
      (t.code.toList.map fun c => (c.map fun x => 2 ^ (255 - x.length)).getD 0).sum = 2 ^ 255) ∧
    (s.tkind = .degen →
      (t.code.toList.map fun c => (c.map fun x => 2 ^ (255 - x.length)).getD 0).sum = 2 ^ 254)

/-- R125: the bounds on code length, with `m` the number of valid leaves. Assumes Tree.Ok. -/
def Obligations.CgenCodeLengthBounds : Prop :=
  ∀ s : State, s.tree.Ok → ∃ t, exec .cgen s = .next t ∧ ∀ (b : Byte) (x : List Bit), t.code.entry b = some x →
    1 ≤ x.length ∧ x.length ≤ 255 ∧
    (2 ≤ s.node.leaves → x.length ≤ s.node.leaves - 1) ∧ (s.node.leaves = 1 → x.length = 1)

/-- R123: the empty tree gives no code, as after reset. -/
def Obligations.CgenEmptyTree : Prop :=
  (∀ s : State, s.root = none → ∃ t, exec .cgen s = .next t ∧ t.Done false ∧ ∀ b : Byte, t.code.entry b = none) ∧
  ∀ b : Byte, State.reset.code.entry b = none

/-- R122: the degenerate tree gives its sole leaf's symbol the code 0, and no other code. Assumes Tree.Ok. -/
def Obligations.CgenDegenerateTree : Prop :=
  ∀ (s : State) (r : NodeIdx), s.tree.Ok → s.tkind = .degen → s.root = some r → ∃ t, exec .cgen s = .next t ∧
    ∃ b : Byte, soleSymbol s.node r = some b ∧ t.code.entry b = some [false] ∧ ∀ c : Byte, c ≠ b → t.code.entry c = none

/-! ### BPACK -/

/-- R131, R132: when every byte of SRC has a code, PAY is the codes in input order and PBITS the sum of their
lengths. Assumes that no code is longer than 255 bits (R33, a part of CodeTable.Ok), so that PBITS does not wrap
(R136). -/
def Obligations.BpackPacksCodes : Prop :=
  ∀ s : State, (∀ b x, s.code.entry b = some x → x.length ≤ 255) → (∀ b ∈ s.srcBytes, s.code.entry b ≠ none) →
    ∃ t, exec .bpack s = .next t ∧ t.Done false ∧
      t.pay = s.code.codeOf s.srcBytes ∧
      t.pbits.toNat = (s.srcBytes.map fun b => ((s.code.entry b).getD []).length).sum ∧
      t.pbits.toNat = t.pay.length ∧ t.pbits.toNat ≤ 255 * s.srcLen.toNat ∧
      KeepsInputs s t ∧ KeepsTable s t ∧ KeepsTree s t ∧ KeepsCode s t ∧ KeepsCout s t ∧ KeepsDst s t ∧
      KeepsRdbits s t

/-- R133, R134, R203: a byte of SRC without a code raises MissingCode, and PAY is empty. -/
def Obligations.BpackMissingCode : Prop :=
  ∀ s : State, (∃ b ∈ s.srcBytes, s.code.entry b = none) →
    ∃ t, exec .bpack s = .next t ∧ t.Failed .missingCode false ∧ ErrorKind.code .missingCode = 2 ∧
      t.pay = [] ∧ t.pbits = 0 ∧
      KeepsInputs s t ∧ KeepsTable s t ∧ KeepsTree s t ∧ KeepsCode s t ∧ KeepsCout s t ∧ KeepsDst s t ∧
      KeepsRdbits s t

/-- R135: BPACK of the empty file, whatever CODE holds. -/
def Obligations.BpackEmptyFile : Prop :=
  ∀ s : State, s.srcLen = 0 → ∃ t, exec .bpack s = .next t ∧ t.Done false ∧ t.pay = [] ∧ t.pbits = 0

/-! ### FEMBED and FEXTRACT -/

/-- R57, R58: the two LSB primitives. -/
def Obligations.EmbedExtractBit : Prop :=
  ∀ (c : Byte) (b : Bit),
    (∀ j, j ≠ 0 → (embedBit c b).getLsbD j = c.getLsbD j) ∧ (embedBit c b).getLsbD 0 = b ∧
    (embedBit c b).toNat ≤ c.toNat + 1 ∧ c.toNat ≤ (embedBit c b).toNat + 1 ∧
    (c.getLsbD 0 = b → embedBit c b = c) ∧ extractBit c = c.getLsbD 0 ∧ extractBit (embedBit c b) = b

/-- R81, R9: val32 is the inverse of bits32 and gives element `j` the weight `2^(31 − j)`; a field of the carrier is
its 32 carrier bits, each at that weight; and every 32-bit value is the value of some field. -/
def Obligations.FieldBitOrder : Prop :=
  (∀ v : Word, (bits32 v).length = 32 ∧ (∀ j, j < 32 → (bits32 v)[j]? = some (v.getLsbD (31 - j))) ∧
    val32 (bits32 v) = v) ∧
  (∀ x : List Bit, x.length = 32 → bits32 (val32 x) = x ∧
    (val32 x).toNat = ((List.range 32).map fun j => if x.getD j false then 2 ^ (31 - j) else 0).sum) ∧
  (∀ (s : State) (k0 : Nat), (s.frameField k0).toNat =
    ((List.range 32).map fun j => if extractBit (s.cin.read (54 + k0 + j)) then 2 ^ (31 - j) else 0).sum) ∧
  ∀ (v : Word) (k0 : Nat), ∃ s : State, s.frameField k0 = v

/-- R166, R164, R165: the output carrier byte by byte, for a carrier large enough; the frame bits are those of the
table of R76. Assumes that PBITS is the length of PAY (R27). The bytes stored are those of COUT below COUT_LEN. -/
def Obligations.FembedWritesCarrier : Prop :=
  ∀ s : State, s.pay.length = s.pbits.toNat → 8278 + s.pbits.toNat ≤ s.cinLen.toNat →
    ∃ t, exec .fembed s = .next t ∧ t.Done (s.size == 0) ∧ t.coutLen = s.cinLen ∧ t.cout.Holds t.coutLen ∧
      (∀ a, a < s.cinLen.toNat → t.cout.read a =
        if a < 54 then s.cin.read a
        else if a < 54 + (8224 + s.pbits.toNat) then (s.cin.read a &&& 0xFE) ||| (if s.wireBit (a - 54) then 1 else 0)
        else s.cin.read a) ∧
      KeepsInputs s t ∧ KeepsTable s t ∧ KeepsTree s t ∧ KeepsCode s t ∧ KeepsPay s t ∧ KeepsDst s t ∧ KeepsRdbits s t

/-- R162, R167, R202: a carrier too small raises InsufficientCapacity; COUT is empty and nothing else changes. -/
def Obligations.FembedInsufficientCapacity : Prop :=
  ∀ s : State, s.cinLen.toNat < 8278 + s.pbits.toNat →
    ∃ t, exec .fembed s = .next t ∧ t.Failed .insufficientCapacity (s.size == 0) ∧
      ErrorKind.code .insufficientCapacity = 1 ∧ t.coutLen = 0 ∧ t.coutBytes = [] ∧ t.cout.Holds 0 ∧
      KeepsInputs s t ∧ KeepsTable s t ∧ KeepsTree s t ∧ KeepsCode s t ∧ KeepsPay s t ∧ KeepsDst s t ∧ KeepsRdbits s t

/-- R170, R172: with a nonzero size field and a whole header, SIZE and FREQ are the fields of the carrier, most
significant bit first. -/
def Obligations.FextractReadsHeader : Prop :=
  ∀ s : State, 8278 ≤ s.cinLen.toNat → (∃ j, j < 32 ∧ extractBit (s.cin.read (54 + j)) = true) →
    ∃ t, exec .fextract s = .next t ∧ t.Done false ∧
      (∀ j, j < 32 → t.size.getLsbD (31 - j) = extractBit (s.cin.read (54 + j))) ∧
      (∀ (i : Fin 256) (j : Nat), j < 32 →
        (t.freq[i.val]).getLsbD (31 - j) = extractBit (s.cin.read (86 + 32 * i.val + j))) ∧
      KeepsInputs s t ∧ KeepsTree s t ∧ KeepsCode s t ∧ KeepsPay s t ∧ KeepsCout s t ∧ KeepsDst s t ∧ KeepsRdbits s t

/-- R171: a size field of 0 ends FEXTRACT at once; no byte from 86 on need exist. -/
def Obligations.FextractSizeZero : Prop :=
  ∀ s : State, 86 ≤ s.cinLen.toNat → (∀ j, j < 32 → extractBit (s.cin.read (54 + j)) = false) →
    ∃ t, exec .fextract s = .next t ∧ t.Done true ∧ t.size = 0 ∧ (∀ b : Fin 256, t.freq[b.val] = 0) ∧
      KeepsInputs s t ∧ KeepsTree s t ∧ KeepsCode s t ∧ KeepsPay s t ∧ KeepsCout s t ∧ KeepsDst s t ∧ KeepsRdbits s t

/-- R173, R175, R204: a carrier that ends inside the header raises CorruptHeader, which nothing else raises; no partial
header is retained. -/
def Obligations.FextractCorruptHeader : Prop :=
  (∀ s t : State, exec .fextract s = .next t → t.status.state = .error →
    s.cinLen.toNat < 86 ∨
      (s.cinLen.toNat < 8278 ∧ ∃ j, j < 32 ∧ extractBit (s.cin.read (54 + j)) = true)) ∧
  ∀ s : State,
    (s.cinLen.toNat < 86 ∨
      (s.cinLen.toNat < 8278 ∧ ∃ j, j < 32 ∧ extractBit (s.cin.read (54 + j)) = true)) →
    ∃ t, exec .fextract s = .next t ∧ t.Failed .corruptHeader false ∧ ErrorKind.code .corruptHeader = 3 ∧
      t.size = 0 ∧ (∀ b : Fin 256, t.freq[b.val] = 0) ∧
      KeepsInputs s t ∧ KeepsTree s t ∧ KeepsCode s t ∧ KeepsPay s t ∧ KeepsCout s t ∧ KeepsDst s t ∧ KeepsRdbits s t

/-- R177: FEXTRACT reads back what a successful FEMBED wrote, and the payload bits are PAY's. Assumes that PBITS is
the length of PAY (R27). -/
def Obligations.FextractInvertsFembed : Prop :=
  ∀ s t : State, s.pay.length = s.pbits.toNat → exec .fembed s = .next t → t.status.state = .done →
    let c := loadCin t.coutBytes t
    c.cinLen = t.coutLen ∧
    (∃ u, exec .fextract c = .next u ∧ u.Done (s.size == 0) ∧ u.size = s.size ∧
      (s.size ≠ 0 → u.freq = s.freq) ∧ (s.size = 0 → ∀ b : Fin 256, u.freq[b.val] = 0)) ∧
    ∀ p, p < s.pbits.toNat → s.pay[p]? = some (extractBit (c.cin.read (8278 + p)))

/-! ### BUNPACK -/

/-- R143: a target length of 0 ends BUNPACK at once, whatever the tree and the carrier. -/
def Obligations.BunpackSizeZero : Prop :=
  ∀ s : State, s.size = 0 →
    ∃ t, exec .bunpack s = .next t ∧ t.Done true ∧ t.dstLen = 0 ∧ t.dstBytes = [] ∧ t.dst.Holds 0 ∧ t.rdbits = 0 ∧
      KeepsInputs s t ∧ KeepsTable s t ∧ KeepsTree s t ∧ KeepsCode s t ∧ KeepsPay s t ∧ KeepsCout s t

/-- R144, R151: output expected from an empty tree is InvalidCode before any bit is read, even where the carrier
has no payload byte. DECODE meets this exactly when the size it reads is nonzero and the table all zero. -/
def Obligations.BunpackEmptyTree : Prop :=
  (∀ s : State, s.size ≠ 0 → s.root = none →
    ∃ t, exec .bunpack s = .next t ∧ t.Failed .invalidCode false ∧ ErrorKind.code .invalidCode = 5 ∧
      t.rdbits = 0 ∧ t.dstLen = 0 ∧ t.dstBytes = [] ∧ t.dst.Holds 0 ∧
      KeepsInputs s t ∧ KeepsTable s t ∧ KeepsTree s t ∧ KeepsCode s t ∧ KeepsPay s t ∧ KeepsCout s t) ∧
  ∀ s u : State, exec .fextract s = .next u → ∃ t, exec .decode s = .next t ∧
    (t.status.err = some .invalidCode ↔ u.status.state = .done ∧ u.size ≠ 0 ∧ ∀ b : Fin 256, u.freq[b.val] = 0)

/-- R146: in the degenerate tree every bit, whatever its value, emits the sole symbol; and R148 for that tree. -/
def Obligations.BunpackDegenerateTree : Prop :=
  ∀ (s : State) (r l : NodeIdx) (f g : Wide) (b : Byte), s.size ≠ 0 → s.tkind = .degen → s.root = some r →
    s.node.entry r = some (.internal f (some l) none) → s.node.entry l = some (.leaf b g) →
    ∃ t, exec .bunpack s = .next t ∧
      (8278 + s.size.toNat ≤ s.cinLen.toNat →
        t.Done false ∧ t.dstLen = s.size ∧ t.dstBytes = List.replicate s.size.toNat b ∧ t.rdbits = s.size) ∧
      (s.cinLen.toNat < 8278 + s.size.toNat →
        t.Failed .incompleteStream false ∧ t.dstLen = 0 ∧ t.dstBytes = [] ∧
          t.rdbits.toNat = s.cinLen.toNat - 8278) ∧
      KeepsInputs s t ∧ KeepsTable s t ∧ KeepsTree s t ∧ KeepsCode s t ∧ KeepsPay s t ∧ KeepsCout s t

/-- R148, R149, R150: on a tree that meets R32, a walk either emits all SIZE bytes or ends IncompleteStream with
every payload bit of the carrier read and no output; the per-bit InvalidCode never fires. Assumes Tree.Ok. -/
def Obligations.BunpackFinishesOrRunsOut : Prop :=
  ∀ (s : State) (r : NodeIdx), s.tree.Ok → s.size ≠ 0 → s.root = some r →
    ∃ t, exec .bunpack s = .next t ∧
      ((t.Done false ∧ t.dstLen = s.size ∧ t.dst.Holds s.size ∧ 8278 + t.rdbits.toNat ≤ s.cinLen.toNat) ∨
       (t.Failed .incompleteStream false ∧ ErrorKind.code .incompleteStream = 4 ∧
        t.dstLen = 0 ∧ t.dstBytes = [] ∧ t.dst.Holds 0 ∧ t.rdbits.toNat = s.cinLen.toNat - 8278)) ∧
      KeepsInputs s t ∧ KeepsTable s t ∧ KeepsTree s t ∧ KeepsCode s t ∧ KeepsPay s t ∧ KeepsCout s t

/-- R147: on success DST_LEN is SIZE and RDBITS is the sum of the code lengths of the emitted bytes; and no carrier
byte after the last bit read matters, nor whether it exists. Assumes Tree.Ok. -/
def Obligations.BunpackStopsAtLastByte : Prop :=
  ∀ s t : State, s.tree.Ok → exec .bunpack s = .next t → t.status.state = .done →
    (∀ g, exec .cgen s = .next g →
      t.dstLen = s.size ∧ t.dstBytes.length = s.size.toNat ∧
      (∀ b ∈ t.dstBytes, g.code.entry b ≠ none) ∧
      t.rdbits.toNat = (g.code.codeOf t.dstBytes).length ∧
      ∀ p, p < t.rdbits.toNat → s.tkind = .full →
        (g.code.codeOf t.dstBytes)[p]? = some (extractBit (s.cin.read (8278 + p)))) ∧
    ∀ (m : Memory) (n : Word), 8278 + t.rdbits.toNat ≤ n.toNat →
      (∀ p, p < t.rdbits.toNat → m.read (8278 + p) = s.cin.read (8278 + p)) →
      exec .bunpack { s with cin := m, cinLen := n } = .next { t with cin := m, cinLen := n }

/-- R153: the walker inverts the packer. Assumes Tree.Ok; the codes are those CGEN makes of the tree. -/
def Obligations.BunpackInvertsCodes : Prop :=
  ∀ (s g : State) (bs : List Byte), s.tree.Ok → exec .cgen s = .next g →
    (∀ b ∈ bs, g.code.entry b ≠ none) → s.size.toNat = bs.length →
    (∀ p, p < (g.code.codeOf bs).length →
      (g.code.codeOf bs)[p]? = some (extractBit (s.cin.read (8278 + p)))) →
    8278 + (g.code.codeOf bs).length ≤ s.cinLen.toNat →
    ∃ t, exec .bunpack s = .next t ∧ t.Done (s.size == 0) ∧ t.dstBytes = bs ∧
      t.rdbits.toNat = (g.code.codeOf bs).length

/-- R58: ExtractBit is bit 0 of the carrier byte, and bits 7..1 of a carrier byte never influence a decode result. -/
def Obligations.UpperCarrierBitsDoNotMatter : Prop :=
  (∀ (s : State) (a : Nat), (if s.carrierBit a then 1 else 0) = s.cin.read a &&& 1) ∧
  ∀ (i : Instr) (s t : State) (m : Memory), (i = .fextract ∨ i = .bunpack ∨ i = .decode) →
    (∀ a, a < s.cinLen.toNat → extractBit (m.read a) = extractBit (s.cin.read a)) →
    exec i s = .next t → exec i { s with cin := m } = .next { t with cin := m }

/-! ### ENCODE and DECODE -/

/-- R181, R189: ENCODE ends DONE exactly when the carrier is large enough, and can end in no error but
InsufficientCapacity. The last clause bounds the need by the file alone (R136). -/
def Obligations.EncodeEndsDoneExactlyWithCapacity : Prop :=
  ∀ s : State, ∃ t, exec .encode s = .next t ∧
    (8278 + t.pbits.toNat ≤ s.cinLen.toNat → t.Done (s.srcLen == 0)) ∧
    (s.cinLen.toNat < 8278 + t.pbits.toNat → t.Failed .insufficientCapacity (s.srcLen == 0)) ∧
    (8278 + 255 * s.srcLen.toNat ≤ s.cinLen.toNat → t.Done (s.srcLen == 0))

/-- R183: the state after ENCODE: table, tree, codes and payload belong to SRC, and COUT is the carrier with the
frame, or empty when the carrier is too small. -/
def Obligations.EncodeFinalState : Prop :=
  ∀ s : State, ∃ t, exec .encode s = .next t ∧
    (∀ b : Byte, (t.freq[b.toNat]).toNat = s.srcBytes.count b) ∧ t.size = s.srcLen ∧
    t.freq.total = s.srcLen.toNat ∧
    (∀ u, exec .tbuild t = .next u → KeepsTree t u) ∧ (∀ u, exec .cgen t = .next u → KeepsCode t u) ∧
    (∀ b ∈ s.srcBytes, t.code.entry b ≠ none) ∧ t.pay = t.code.codeOf s.srcBytes ∧
    t.pbits.toNat = t.pay.length ∧
    t.pbits.toNat = ((List.range 256).map fun b =>
      (t.freq.toList.getD b 0).toNat * ((t.code.toList.getD b none).getD []).length).sum ∧
    (8278 + t.pbits.toNat ≤ s.cinLen.toNat →
      t.coutLen = s.cinLen ∧ t.cout.Holds t.coutLen ∧ ∀ a, a < s.cinLen.toNat → t.cout.read a =
        if 54 ≤ a ∧ a < 8278 + t.pbits.toNat then (s.cin.read a &&& 0xFE) ||| (if t.wireBit (a - 54) then 1 else 0)
        else s.cin.read a) ∧
    (s.cinLen.toNat < 8278 + t.pbits.toNat →
      t.coutLen = 0 ∧ t.coutBytes = [] ∧ t.Failed .insufficientCapacity (s.srcLen == 0)) ∧
    KeepsInputs s t ∧ KeepsDst s t ∧ KeepsRdbits s t

/-- R182: ENCODE of the empty file. -/
def Obligations.EncodeEmptyFile : Prop :=
  ∀ s : State, s.srcLen = 0 → ∃ t, exec .encode s = .next t ∧
    (∀ b : Fin 256, t.freq[b.val] = 0) ∧ t.size = 0 ∧ t.root = none ∧ t.tkind = .empty ∧
    (∀ b : Byte, t.code.entry b = none) ∧ t.pbits = 0 ∧
    (8278 ≤ s.cinLen.toNat → t.Done true ∧ ∀ a, 54 ≤ a → a < 8278 → t.cout.read a = s.cin.read a &&& 0xFE) ∧
    (s.cinLen.toNat < 8278 → t.Failed .insufficientCapacity true)

/-- R86, first row: ENCODE leaves the same state as FCOUNT; TBUILD; CGEN; BPACK; FEMBED, STATUS included. -/
def Obligations.EncodeIsUnitSequence : Prop :=
  ∀ s : State, exec .encode s = runUnits [.fcount, .tbuild, .cgen, .bpack, .fembed] s

/-- R86, second row, with R185's difference: DECODE is FEXTRACT and then, only if it ended DONE with a nonzero SIZE,
TBUILD; BUNPACK; in the other cases DECODE also empties DST and clears RDBITS. -/
def Obligations.DecodeIsUnitSequence : Prop :=
  ∀ s u : State, exec .fextract s = .next u →
    (u.status.state = .done → u.size ≠ 0 → exec .decode s = runUnits [.tbuild, .bunpack] u) ∧
    (u.status.state = .error ∨ u.size = 0 →
      ∃ t, exec .decode s = .next t ∧ t = { u with dst := t.dst, dstLen := 0, rdbits := 0 } ∧ t.dstBytes = [] ∧
        t.dst.Holds 0)

/-- R185: DECODE of an empty file; the tree is not rebuilt. -/
def Obligations.DecodeEmptyFile : Prop :=
  ∀ s : State, 86 ≤ s.cinLen.toNat → (∀ j, j < 32 → extractBit (s.cin.read (54 + j)) = false) →
    ∃ t, exec .decode s = .next t ∧ t.Done true ∧ t.dstLen = 0 ∧ t.dstBytes = [] ∧ t.dst.Holds 0 ∧ t.rdbits = 0 ∧
      t.size = 0 ∧ (∀ b : Fin 256, t.freq[b.val] = 0) ∧
      KeepsInputs s t ∧ KeepsTree s t ∧ KeepsCode s t ∧ KeepsPay s t ∧ KeepsCout s t

/-- From R186: the errors of DECODE in the order they are tested, and the state each leaves. In row 4, DECODE of a whole
header with a nonzero table ends DONE or IncompleteStream, never another way; which of the two is the walker's (the
BUNPACK statements). A size field of 0 is DecodeEmptyFile's case. -/
def Obligations.DecodeErrorsInOrder : Prop :=
  ∀ s : State, ∃ t, exec .decode s = .next t ∧ KeepsInputs s t ∧ KeepsCode s t ∧ KeepsPay s t ∧ KeepsCout s t ∧
    (s.cinLen.toNat < 86 ∨
        (s.cinLen.toNat < 8278 ∧ ∃ j, j < 32 ∧ extractBit (s.cin.read (54 + j)) = true) →
      t.Failed .corruptHeader false ∧ t.size = 0 ∧ (∀ b : Fin 256, t.freq[b.val] = 0) ∧
        t.dstLen = 0 ∧ t.dstBytes = [] ∧ t.rdbits = 0 ∧ KeepsTree s t) ∧
    (8278 ≤ s.cinLen.toNat → (∃ j, j < 32 ∧ extractBit (s.cin.read (54 + j)) = true) →
      (∀ j, j < 32 → t.size.getLsbD (31 - j) = extractBit (s.cin.read (54 + j))) ∧
      (∀ (i : Fin 256) (j : Nat), j < 32 →
        (t.freq[i.val]).getLsbD (31 - j) = extractBit (s.cin.read (86 + 32 * i.val + j))) ∧
      (∀ u, exec .tbuild t = .next u → KeepsTree t u) ∧
      ((∀ k, k < 8192 → extractBit (s.cin.read (86 + k)) = false) →
        (∀ b : Fin 256, t.freq[b.val] = 0) ∧ t.Failed .invalidCode false ∧ t.root = none ∧ t.tkind = .empty ∧ t.dstLen = 0 ∧ t.dstBytes = [] ∧
          t.rdbits = 0) ∧
      ((∃ k, k < 8192 ∧ extractBit (s.cin.read (86 + k)) = true) →
        (t.Done false ∧ t.dstLen = t.size ∧ t.dst.Holds t.size ∧ 8278 + t.rdbits.toNat ≤ s.cinLen.toNat) ∨
        (t.Failed .incompleteStream false ∧ t.dstLen = 0 ∧ t.dstBytes = [] ∧
          t.rdbits.toNat = s.cinLen.toNat - 8278)))

/-- R184 with R153: DECODE of a carrier whose payload is the codes, in the tree of its own table, of a byte sequence
of the length its size field names, ends DONE with that sequence. The tree and the codes are those TBUILD and CGEN make
of the table FEXTRACT reads. -/
def Obligations.DecodeOfPackedPayload : Prop :=
  ∀ (s u v g : State) (bs : List Byte),
    exec .fextract s = .next u → u.status.state = .done → exec .tbuild u = .next v → exec .cgen v = .next g →
    (∀ b ∈ bs, g.code.entry b ≠ none) → u.size.toNat = bs.length →
    (∀ p, p < (g.code.codeOf bs).length →
      (g.code.codeOf bs)[p]? = some (extractBit (s.cin.read (8278 + p)))) →
    8278 + (g.code.codeOf bs).length ≤ s.cinLen.toNat →
    ∃ t, exec .decode s = .next t ∧ t.Done (u.size == 0) ∧ t.size = u.size ∧ t.freq = u.freq ∧
      t.dstLen = u.size ∧ t.dstBytes = bs ∧ t.rdbits.toNat = (g.code.codeOf bs).length ∧
      (u.size ≠ 0 → KeepsTree v t) ∧ KeepsInputs s t ∧ KeepsCode s t ∧ KeepsPay s t ∧ KeepsCout s t

/-- R188: the round trip. ENCODE, the output carrier copied to CIN, DECODE: the secret file comes back. -/
def Obligations.EncodeDecodeRoundTrip : Prop :=
  ∀ s t : State, exec .encode s = .next t → 8278 + t.pbits.toNat ≤ s.cinLen.toNat →
    ∃ u, exec .decode (loadCin t.coutBytes t) = .next u ∧ u.Done (s.srcLen == 0) ∧
      u.dstLen = s.srcLen ∧ u.dstBytes = s.srcBytes ∧ u.rdbits.toNat = t.pbits.toNat

/-! ### The host and the byte memories -/

/-- R42: what the host's writes do, and that a write to any other location is ignored, while STATE is not BUSY. A
byte of SRC or CIN written below the length is the one byte of the memory that changes. One written at or beyond the
length leaves the memory as it is, where R53 says there is no state, and is the host's latest write there all the same
(R64): that it is staged on the host's side is the model's choice (log entry 2, DESIGN CHOICE). -/
def Obligations.HostWriteEffects : Prop :=
  ∀ (s : State), s.status.state ≠ .busy →
    (∀ b v, ∃ t, hostAct (.setFreq b v) s = .next t ∧
      (∀ c : Byte, t.freq[c.toNat] = if c = b then v else s.freq[c.toNat]) ∧ t = { s with freq := t.freq }) ∧
    (∀ v, hostAct (.setSize v) s = .next { s with size := v }) ∧
    (∀ a v, ∃ t, hostAct (.pokeSrc a v) s = .next t ∧ t = { s with src := t.src, srcStaged := t.srcStaged } ∧
      (∀ x, t.srcLast x = if x = a.toNat then some v else s.srcLast x) ∧
      (a < s.srcLen → t.srcStaged = s.srcStaged ∧ ∀ x, t.src.read x = if x = a.toNat then v else s.src.read x) ∧
      (s.srcLen ≤ a → t.src = s.src)) ∧
    (∀ a v, ∃ t, hostAct (.pokeCin a v) s = .next t ∧ t = { s with cin := t.cin, cinStaged := t.cinStaged } ∧
      (∀ x, t.cinLast x = if x = a.toNat then some v else s.cinLast x) ∧
      (a < s.cinLen → t.cinStaged = s.cinStaged ∧ ∀ x, t.cin.read x = if x = a.toNat then v else s.cin.read x) ∧
      (s.cinLen ≤ a → t.cin = s.cin)) ∧
    (∀ loc, hostAct (.writeReadOnly loc) s = .next s)

/-- R85: LOAD gives the memory exactly the loaded bytes. R64, R232: neither a LOAD nor a length write drops a byte the
host wrote elsewhere; after a length write every byte below the new length reads as the host's latest write there, so a
byte and the length that takes it in may be written in either order. A declared byte the host never wrote reads as the
free value of a new draw (R53, U3; log entry 3), and no value of it is used. Nothing at or beyond the length is in the
memory (R53): that such bytes are staged on the host's side is the model's choice (log entry 2, DESIGN CHOICE). -/
def Obligations.HostLoadAndLengthWrites : Prop :=
  ∀ (s : State), s.status.state ≠ .busy →
    (∀ bs : List Byte, bs.length < 2 ^ 32 →
      (∃ t, hostAct (.loadSrc bs) s = .next t ∧ t.srcLen.toNat = bs.length ∧ t.srcBytes = bs ∧
        (∀ a, bs.length ≤ a → t.srcLast a = s.srcLast a) ∧
        t = { s with src := t.src, srcLen := t.srcLen, srcStaged := t.srcStaged }) ∧
      (∃ t, hostAct (.loadCin bs) s = .next t ∧ t.cinLen.toNat = bs.length ∧ t.cinBytes = bs ∧
        (∀ a, bs.length ≤ a → t.cinLast a = s.cinLast a) ∧
        t = { s with cin := t.cin, cinLen := t.cinLen, cinStaged := t.cinStaged })) ∧
    (∀ v : Word,
      (∃ t, hostAct (.setSrcLen v) s = .next t ∧ t.srcLen = v ∧ (∀ a, t.srcLast a = s.srcLast a) ∧ t.src.Below v ∧
        (∀ a, a < v.toNat → t.src.read a = (s.srcLast a).getD (Config.unloadedByte s.draws a)) ∧
        t = { s with src := t.src, srcLen := v, srcStaged := t.srcStaged, draws := t.draws }) ∧
      (∃ t, hostAct (.setCinLen v) s = .next t ∧ t.cinLen = v ∧ (∀ a, t.cinLast a = s.cinLast a) ∧ t.cin.Below v ∧
        (∀ a, a < v.toNat → t.cin.read a = (s.cinLast a).getD (Config.unloadedByte s.draws a)) ∧
        t = { s with cin := t.cin, cinLen := v, cinStaged := t.cinStaged, draws := t.draws })) ∧
    (∀ (a v : Word) (x : Byte), a < v →
      (∃ t u, hostAct (.pokeSrc a x) s = .next t ∧ hostAct (.setSrcLen v) t = .next u ∧ u.src.read a.toNat = x) ∧
      (∃ t u, hostAct (.pokeCin a x) s = .next t ∧ hostAct (.setCinLen v) t = .next u ∧ u.cin.read a.toNat = x))

/-- R60, R42: a host read changes nothing the block holds, and a second read of the same location returns the same
value. -/
def Obligations.HostReadsAreIdempotent : Prop :=
  ∀ (s t : State) (loc : ReadLoc), hostAct (.read loc) s = .next t →
    t = { s with readData := t.readData } ∧ t.readData = hostRead loc s ∧ t.readData ≠ none ∧
    hostAct (.read loc) t = .next t

/-! ### The invariant -/

/-- The invariant holds after reset (R43: "This state satisfies invariants R32 and R34"). -/
def Obligations.ResetMeetsInvariant : Prop := State.reset.Inv

/-- Every step keeps the invariant: the tree of R32, the prefix code of R34, PBITS the length of PAY, BUSY never
observable, ERR only in ERROR, the byte memories canonical, nothing in SRC or CIN at or beyond its length (R53) nor
staged below it (log entry 2), and the outputs exactly as long as their registers say. -/
def Obligations.StepKeepsInvariant : Prop :=
  ∀ s t : State, s.Inv → step s = .next t → t.Inv

/-! ### The capacities -/

/-- R6, D17, U8: the capacities as an argument of the model (log entry 7). The block with the default capacities is
exec and step; a step of a block with any capacities is the same step, ends with every length within its capacity, and
is refused when a length would exceed one; a command whose lengths, and the SIZE it leaves, stay within them runs. -/
def Obligations.CapacityIsAPrecondition : Prop :=
  (∀ s, stepWithin Config.defaultCapacities s = step s) ∧
  (∀ i s, execWithin Config.defaultCapacities i s = exec i s) ∧
  (∀ c s t, stepWithin c s = .next t → step s = .next t ∧ t.srcLen.toNat ≤ c.src ∧ t.cinLen.toNat ≤ c.cin ∧
    t.coutLen.toNat ≤ c.cout ∧ t.dstLen.toNat ≤ c.dst ∧ t.pbits.toNat ≤ c.pay) ∧
  (∀ c s t, step s = .next t → (c.src < t.srcLen.toNat ∨ c.cin < t.cinLen.toNat ∨ c.cout < t.coutLen.toNat ∨
    c.dst < t.dstLen.toNat ∨ c.pay < t.pbits.toNat) → stepWithin c s = .refused .lengthBeyondCapacity) ∧
  (∀ c i s t, exec i s = .next t → t.srcLen.toNat ≤ c.src → t.cinLen.toNat ≤ c.cin → t.coutLen.toNat ≤ c.cout →
    t.dstLen.toNat ≤ c.dst → t.pbits.toNat ≤ c.pay → t.size.toNat ≤ c.dst → execWithin c i s = .next t)
end

