-- ==== Sys2Proof/Laws/Memory.lean ====
section
/-! SUPPORT. The laws of the byte memories: read after write, the canonical form kept by every operation, and the
content of a memory as a byte sequence, with nothing held at or beyond a length, and the host's latest writes. -/

namespace Sys2Proof.Machine

/-! ### Looking up and inserting cells -/

theorem lookup_insertCell (cells : List Host.Cell) (a x : Nat) (v : Byte) :
    Memory.lookup (Memory.insertCell cells a v) x = if a = x then some v else Memory.lookup cells x := by
  induction cells with
  | nil => simp [Memory.insertCell, Memory.lookup]
  | cons c rest ih =>
    obtain ⟨k, w⟩ := c
    simp only [Memory.insertCell]
    split
    · simp [Memory.lookup]
    · split
      · subst_vars; simp only [Memory.lookup]; split <;> rfl
      · simp only [Memory.lookup, ih]
        split
        · subst_vars; simp_all
        · rfl

theorem mem_insertCell {cells : List Host.Cell} {a : Nat} {v : Byte} {c : Host.Cell}
    (h : c ∈ Memory.insertCell cells a v) : c = (a, v) ∨ c ∈ cells := by
  induction cells with
  | nil => simpa [Memory.insertCell] using h
  | cons d rest ih =>
    obtain ⟨k, w⟩ := d
    simp only [Memory.insertCell] at h
    split at h
    · simpa using h
    · split at h
      · simp only [List.mem_cons] at h ⊢; tauto
      · simp only [List.mem_cons] at h ⊢
        rcases h with h | h
        · exact .inr (.inl h)
        · rcases ih h with h | h
          · exact .inl h
          · exact .inr (.inr h)

theorem lookup_eq_some_of_mem {cells : List Host.Cell} {a : Nat} {v : Byte}
    (hwf : cells.Pairwise (fun c d => c.1 < d.1)) (h : (a, v) ∈ cells) : Memory.lookup cells a = some v := by
  induction cells with
  | nil => simp at h
  | cons c rest ih =>
    obtain ⟨k, w⟩ := c
    rw [List.pairwise_cons] at hwf
    simp only [Memory.lookup]
    rcases List.mem_cons.mp h with h | h
    · obtain ⟨rfl, rfl⟩ := Prod.mk.inj h; simp
    · have := hwf.1 _ h
      rw [if_neg (by simp at this; omega), ih hwf.2 h]

/-! ### The canonical form -/

theorem wf_emptyMemory : emptyMemory.wf := .nil

theorem rising_insertCell {cells : List Host.Cell} (h : risingCells cells) (a : Nat) (v : Byte) :
    risingCells (Memory.insertCell cells a v) := by
  induction cells with
  | nil => simp [Memory.insertCell]
  | cons c rest ih =>
    obtain ⟨k, w⟩ := c
    replace h := List.pairwise_cons.mp h
    simp only [Memory.insertCell]
    split
    · rename_i hlt
      refine List.pairwise_cons.mpr ⟨?_, List.pairwise_cons.mpr h⟩
      intro d hd
      rcases List.mem_cons.mp hd with rfl | hd
      · exact hlt
      · exact Nat.lt_trans hlt (h.1 _ hd)
    · split
      · subst_vars; exact List.pairwise_cons.mpr h
      · refine List.pairwise_cons.mpr ⟨?_, ih h.2⟩
        intro d hd
        rcases mem_insertCell hd with rfl | hd
        · simp only; omega
        · exact h.1 _ hd

theorem wf_write {m : Memory} (h : m.wf) (a : Nat) (v : Byte) : (m.write a v).wf := rising_insertCell h a v

theorem wf_writeBelow {m : Memory} (h : m.wf) (len a : Word) (v : Byte) : (m.writeBelow len a v).wf := by
  unfold Memory.writeBelow; split
  · exact wf_write h a.toNat v
  · exact h

theorem rising_stageByte {staged : List Host.Cell} (h : risingCells staged) (len a : Word) (v : Byte) :
    risingCells (Memory.stageByte staged len a v) := by
  unfold Memory.stageByte; split
  · exact h
  · exact rising_insertCell h a.toNat v

/-- The memory's bytes lie below the length and the staged ones do not, so the host's writes rise. -/
theorem rising_written {m : Memory} {staged : List Host.Cell} (h : m.wf) (hs : risingCells staged) (len : Word) :
    risingCells (m.written staged len) := by
  refine List.pairwise_append.mpr ⟨h.sublist List.filter_sublist, hs.sublist List.filter_sublist, ?_⟩
  intro c hc d hd
  simp only [List.mem_filter, decide_eq_true_eq] at hc hd
  omega

theorem wf_declare {m : Memory} {staged : List Host.Cell} (h : m.wf) (hs : risingCells staged) (len n : Word)
    (draw : Nat) : (m.declare staged len n draw).wf := (rising_written h hs len).sublist List.filter_sublist

theorem rising_stage {m : Memory} {staged : List Host.Cell} (h : m.wf) (hs : risingCells staged) (len n : Word) :
    risingCells (m.stage staged len n) := (rising_written h hs len).sublist List.filter_sublist

theorem map_fst_cellsFrom (a : Nat) (bs : List Byte) :
    (Memory.cellsFrom a bs).map Prod.fst = List.range' a bs.length := by
  induction bs generalizing a with
  | nil => rfl
  | cons b bs ih => simp [Memory.cellsFrom, ih, List.range'_succ]

/-- A byte sequence laid out from address 0 lists exactly the addresses below its length. -/
theorem map_fst_ofBytes (bs : List Byte) : (Memory.ofBytes bs).cells.map Prod.fst = List.range bs.length := by
  simp [Memory.ofBytes, map_fst_cellsFrom, List.range_eq_range']

theorem wf_ofBytes (bs : List Byte) : (Memory.ofBytes bs).wf := by
  have h : ((Memory.ofBytes bs).cells.map Prod.fst).Pairwise (· < ·) := by
    rw [map_fst_ofBytes]; exact List.pairwise_lt_range
  exact List.pairwise_map.mp h

/-! ### Nothing at or beyond a length (R53) -/

theorem below_emptyMemory (n : Word) : emptyMemory.Below n := by simp [Memory.Below, emptyMemory]

theorem below_ofBytes {bs : List Byte} {n : Word} (h : bs.length ≤ n.toNat) : (Memory.ofBytes bs).Below n := by
  intro c hc
  have : c.1 ∈ (Memory.ofBytes bs).cells.map Prod.fst := List.mem_map_of_mem hc
  rw [map_fst_ofBytes, List.mem_range] at this
  omega

theorem below_writeBelow {m : Memory} {len : Word} (h : m.Below len) (a : Word) (v : Byte) :
    (m.writeBelow len a v).Below len := by
  unfold Memory.writeBelow
  split
  · rename_i ha
    intro c hc
    rcases mem_insertCell hc with rfl | hc
    · exact ha
    · exact h c hc
  · exact h

theorem below_declare (m : Memory) (staged : List Host.Cell) (len n : Word) (draw : Nat) :
    (m.declare staged len n draw).Below n := by
  intro c hc
  simpa using (List.mem_filter.mp hc).2

theorem stage_ge {m : Memory} {staged : List Host.Cell} {len n : Word} {c : Host.Cell}
    (hc : c ∈ m.stage staged len n) : n.toNat ≤ c.1 := by simpa using (List.mem_filter.mp hc).2

theorem stageByte_ge {staged : List Host.Cell} {len : Word} (h : ∀ c ∈ staged, len.toNat ≤ c.1) (a : Word) (v : Byte) :
    ∀ c ∈ Memory.stageByte staged len a v, len.toNat ≤ c.1 := by
  unfold Memory.stageByte
  split
  · exact h
  · rename_i ha
    intro c hc
    rcases mem_insertCell hc with rfl | hc
    · exact BitVec.le_def.mp (BitVec.not_lt.mp ha)
    · exact h c hc

/-! ### Reading -/

/-- Read after write: the byte written at its address, every other address as before. -/
@[simp] theorem read_write (m : Memory) (a x : Nat) (v : Byte) :
    (m.write a v).read x = if x = a then v else m.read x := by
  simp only [Memory.read, Memory.write, lookup_insertCell, eq_comm (a := a)]
  split <;> simp

/-- Keeping cells by their address. -/
theorem lookup_filter (p : Nat → Bool) (cells : List Host.Cell) (a : Nat) :
    Memory.lookup (cells.filter (fun c => p c.1)) a = if p a then Memory.lookup cells a else none := by
  induction cells with
  | nil => simp [Memory.lookup]
  | cons c rest ih =>
    obtain ⟨k, w⟩ := c
    by_cases hk : k = a
    · subst hk; cases hp : p k <;> simp [hp, ih, Memory.lookup]
    · cases hp : p k <;> simp [hp, ih, Memory.lookup, hk]

theorem lookup_append (l l' : List Host.Cell) (a : Nat) :
    Memory.lookup (l ++ l') a = (Memory.lookup l a).or (Memory.lookup l' a) := by
  induction l with
  | nil => simp [Memory.lookup]
  | cons c rest ih =>
    obtain ⟨k, w⟩ := c
    simp only [List.cons_append, Memory.lookup, ih]
    split <;> rfl

/-- The latest write at an address, on every state. -/
theorem lookup_written (m : Memory) (staged : List Host.Cell) (len : Word) (a : Nat) :
    Memory.lookup (m.written staged len) a = m.lastWritten staged len a := by
  rw [Memory.written, lookup_append, lookup_filter (fun k => decide (k < len.toNat)),
    lookup_filter (fun k => decide (len.toNat ≤ k)), Memory.lastWritten]
  by_cases h : a < len.toNat
  · simp [h, Nat.not_le.mpr h]
  · simp [h, Nat.not_lt.mp h]

/-- After a length write a byte below the new length reads as the host's latest write there, or, where there is none,
as the new draw (R64, R53, U3). -/
theorem read_declare {n : Word} {a : Nat} (h : a < n.toNat) (m : Memory) (staged : List Host.Cell) (len : Word)
    (draw : Nat) :
    (m.declare staged len n draw).read a = (m.lastWritten staged len a).getD (Config.unloadedByte draw a) := by
  simp only [Memory.read, Memory.declare]
  rw [lookup_filter (fun k => decide (k < n.toNat)), lookup_written]
  simp [h, Memory.unlisted]

/-- A length write neither drops nor changes a write of the host (R64). -/
theorem lastWritten_declare (m : Memory) (staged : List Host.Cell) (len n : Word) (draw a : Nat) :
    (m.declare staged len n draw).lastWritten (m.stage staged len n) n a = m.lastWritten staged len a := by
  rw [Memory.lastWritten, Memory.declare, Memory.stage, lookup_filter (fun k => decide (k < n.toNat)),
    lookup_filter (fun k => decide (n.toNat ≤ k)), lookup_written]
  by_cases h : a < n.toNat
  · simp [h]
  · simp [h, Nat.not_lt.mp h]

/-- A byte write of the host is the latest at its address, and every other latest write stays (R64). -/
theorem lastWritten_poke (m : Memory) (staged : List Host.Cell) (len a : Word) (v : Byte) (x : Nat) :
    (m.writeBelow len a v).lastWritten (Memory.stageByte staged len a v) len x =
      if x = a.toNat then some v else m.lastWritten staged len x := by
  simp only [Memory.lastWritten, Memory.writeBelow, Memory.stageByte, Memory.write, BitVec.lt_def]
  by_cases ha : a.toNat < len.toNat <;> by_cases hx : x < len.toNat <;>
    simp only [ha, hx, if_true, if_false, lookup_insertCell, eq_comm (a := a.toNat)]
  all_goals rw [if_neg (by omega)]

theorem lookup_cellsFrom (a i : Nat) (bs : List Byte) : Memory.lookup (Memory.cellsFrom a bs) (a + i) = bs[i]? := by
  induction bs generalizing a i with
  | nil => rfl
  | cons b bs ih =>
    cases i with
    | zero => simp [Memory.cellsFrom, Memory.lookup]
    | succ i =>
      have := ih (a + 1) i
      simp only [Memory.cellsFrom, Memory.lookup]
      rw [if_neg (by omega), show a + (i + 1) = a + 1 + i by omega, this]
      rfl

theorem lookup_ofBytes (bs : List Byte) (i : Nat) : Memory.lookup (Memory.ofBytes bs).cells i = bs[i]? := by
  simpa [Memory.ofBytes] using lookup_cellsFrom 0 i bs

/-- A memory made of a byte sequence reads as that sequence. -/
theorem read_ofBytes {bs : List Byte} {i : Nat} (h : i < bs.length) : (Memory.ofBytes bs).read i = bs[i] := by
  simp [Memory.read, lookup_ofBytes, h]

/-- A LOAD writes its bytes, and every other latest write stays (R64). -/
theorem lastWritten_load (m : Memory) (staged : List Host.Cell) (len n : Word) (bs : List Byte)
    (hn : n.toNat = bs.length) (a : Nat) :
    (Memory.ofBytes bs).lastWritten (m.stage staged len n) n a =
      if a < bs.length then bs[a]? else m.lastWritten staged len a := by
  rw [Memory.lastWritten, Memory.stage, lookup_filter (fun k => decide (n.toNat ≤ k)), lookup_written, lookup_ofBytes, hn]
  by_cases h : a < bs.length
  · simp [h]
  · simp [h, Nat.not_lt.mp h]

/-! ### Contents -/

@[simp] theorem length_bytesFrom (m : Memory) (a n : Nat) : (m.bytesFrom a n).length = n := by
  induction n generalizing a with
  | zero => rfl
  | succ n ih => simp [Memory.bytesFrom, ih]

@[simp] theorem length_bytes (m : Memory) (n : Nat) : (m.bytes n).length = n := length_bytesFrom m 0 n

theorem getElem?_bytesFrom (m : Memory) (a : Nat) {n i : Nat} (h : i < n) :
    (m.bytesFrom a n)[i]? = some (m.read (a + i)) := by
  induction n generalizing a i with
  | zero => omega
  | succ n ih =>
    cases i with
    | zero => simp [Memory.bytesFrom]
    | succ i =>
      simp only [Memory.bytesFrom, List.getElem?_cons_succ]
      rw [ih (a + 1) (by omega), show a + 1 + i = a + (i + 1) by omega]

theorem getElem?_bytes (m : Memory) {n i : Nat} (h : i < n) : (m.bytes n)[i]? = some (m.read i) := by
  rw [Memory.bytes, getElem?_bytesFrom m 0 h, Nat.zero_add]

theorem getElem_bytes (m : Memory) {n i : Nat} (h : i < (m.bytes n).length) : (m.bytes n)[i] = m.read i := by
  have := getElem?_bytes m (n := n) (i := i) (by simpa using h)
  rw [List.getElem?_eq_getElem h] at this
  exact Option.some.inj this

/-- Two memories that read alike below `n` have the same content. -/
theorem bytes_congr {m m' : Memory} {n : Nat} (h : ∀ a, a < n → m.read a = m'.read a) : m.bytes n = m'.bytes n := by
  apply List.ext_getElem (by simp)
  intro i h1 h2
  rw [getElem_bytes, getElem_bytes]
  exact h i (by simpa using h1)

/-- A memory made of a byte sequence holds that sequence. -/
@[simp] theorem bytes_ofBytes (bs : List Byte) : (Memory.ofBytes bs).bytes bs.length = bs := by
  apply List.ext_getElem (by simp)
  intro i h1 h2
  rw [getElem_bytes, read_ofBytes h2]

@[simp] theorem bytes_zero (m : Memory) : m.bytes 0 = [] := rfl

end Sys2Proof.Machine
end

