-- ==== Sys2Proof/Laws/Operands.lean ====
section
/-! SUPPORT. The laws of the LSB primitives, of the 32-bit fields, of the frame and of the framing layer's carrier:
each says once, element by element, what the function gives. -/

namespace Sys2Proof.Machine

/-! ### The LSB primitives (R57, R58) -/

theorem getLsbD_embedBit (c : Byte) (b : Bit) (j : Nat) :
    (embedBit c b).getLsbD j = if j = 0 then b else c.getLsbD j := by
  have h : ∀ (c : Byte) (b : Bit) (i : Fin 8), (embedBit c b).getLsbD i.val =
      if i.val = 0 then b else c.getLsbD i.val := by decide +kernel
  by_cases hj : j < 8
  · exact h c b ⟨j, hj⟩
  · rw [BitVec.getLsbD_of_ge _ _ (by omega), BitVec.getLsbD_of_ge _ _ (by omega), if_neg (by omega)]

@[simp] theorem extractBit_embedBit (c : Byte) (b : Bit) : extractBit (embedBit c b) = b := by
  rw [extractBit, getLsbD_embedBit, if_pos rfl]

theorem embedBit_false (c : Byte) : embedBit c false = c &&& 0xFE := by simp [embedBit]

/-! ### 32-bit fields (R9, R81) -/

@[simp] theorem length_bits32 (v : Word) : (bits32 v).length = 32 := by simp [bits32]

theorem getElem_bits32 (v : Word) {j : Nat} (h : j < (bits32 v).length) : (bits32 v)[j] = v.getLsbD (31 - j) := by
  simp [bits32]

theorem getLsbD_shiftIn (v : Word) (b : Bit) {k : Nat} (hk : k < 32) :
    ((v <<< 1) ||| (if b then 1 else 0)).getLsbD k = if k = 0 then b else v.getLsbD (k - 1) := by
  by_cases h : k = 0
  · cases b <;> simp [h]
  · have h1 : k - 1 < 32 := by omega
    cases b <;> simp [h, hk, BitVec.getLsbD_eq_getElem h1]

/-- The shift-and-or of R81 puts element `j` of a sequence at bit `length − 1 − j`, over what was there. -/
theorem getLsbD_foldField (bs : List Bit) (v : Word) (k : Nat) (hk : k < 32) :
    (bs.foldl (fun (v : Word) (b : Bit) => (v <<< 1) ||| (if b then 1 else 0)) v).getLsbD k =
      if k < bs.length then bs.getD (bs.length - 1 - k) false else v.getLsbD (k - bs.length) := by
  induction bs generalizing v with
  | nil => rfl
  | cons b bs ih =>
    rw [List.foldl_cons, ih, List.length_cons]
    by_cases h1 : k < bs.length
    · rw [if_pos h1, if_pos (by omega), show bs.length + 1 - 1 - k = bs.length - 1 - k + 1 by omega,
        List.getD_cons_succ]
    · rw [if_neg h1, getLsbD_shiftIn _ _ (by omega)]
      by_cases h2 : k = bs.length
      · rw [if_pos (by omega), if_pos (by omega), show bs.length + 1 - 1 - k = 0 by omega, List.getD_cons_zero]
      · rw [if_neg (by omega), if_neg (by omega)]
        congr 1

/-- `val32(s)[31 − j] = s[j]` on a sequence of 32 bits. -/
theorem getLsbD_val32 {bs : List Bit} (h : bs.length = 32) {j : Nat} (hj : j < 32) :
    (val32 bs).getLsbD (31 - j) = bs.getD j false := by
  rw [val32, getLsbD_foldField _ _ _ (by omega), if_pos (by omega), h]
  congr 1; omega

theorem bits32_val32 {bs : List Bit} (h : bs.length = 32) : bits32 (val32 bs) = bs := by
  apply List.ext_getElem (by simp [h])
  intro j h1 h2
  rw [getElem_bits32, getLsbD_val32 h (by omega), List.getD_eq_getElem _ _ h2]

@[simp] theorem val32_bits32 (v : Word) : val32 (bits32 v) = v := by
  apply BitVec.eq_of_getLsbD_eq
  intro i hi
  have := getLsbD_val32 (length_bits32 v) (j := 31 - i) (by omega)
  rw [show 31 - (31 - i) = i by omega] at this
  rw [this, List.getD_eq_getElem _ _ (by simp; omega), getElem_bits32, show 31 - (31 - i) = i by omega]

/-- A field of the carrier, bit by bit: bit `31 − j` of the value is frame bit `k0 + j` (R56, R81). -/
theorem getLsbD_frameField (s : State) (k0 : Nat) {j : Nat} (hj : j < 32) :
    (s.frameField k0).getLsbD (31 - j) = s.frameBit (k0 + j) := by
  rw [State.frameField, getLsbD_val32 (by simp) hj, List.getD_eq_getElem _ _ (by simpa using hj)]
  simp

/-- A field is 0 exactly when its 32 bits are. -/
theorem frameField_eq_zero (s : State) (k0 : Nat) :
    s.frameField k0 = 0 ↔ ∀ j, j < 32 → s.frameBit (k0 + j) = false := by
  constructor
  · intro h j hj
    rw [← getLsbD_frameField s k0 hj, h]; simp
  · intro h
    apply BitVec.eq_of_getLsbD_eq
    intro i hi
    have := getLsbD_frameField s k0 (j := 31 - i) (by omega)
    rw [show 31 - (31 - i) = i by omega] at this
    rw [this, h _ (by omega)]; simp

/-! ### The frame (R76) -/

theorem length_flatMap_bits32 (l : List Word) : (l.flatMap bits32).length = 32 * l.length := by
  induction l with
  | nil => rfl
  | cons v l ih => simp [ih]; omega

theorem getD_flatMap_bits32 (l : List Word) (k : Nat) (h : k < 32 * l.length) :
    (l.flatMap bits32).getD k false = (l.getD (k / 32) 0).getLsbD (31 - k % 32) := by
  induction l generalizing k with
  | nil => simp at h
  | cons v l ih =>
    by_cases hk : k < 32
    · rw [List.flatMap_cons, List.getD_append _ _ _ _ (by simpa using hk),
        List.getD_eq_getElem _ _ (by simpa using hk), getElem_bits32]
      simp [Nat.div_eq_of_lt hk, Nat.mod_eq_of_lt hk]
    · rw [List.flatMap_cons, List.getD_append_right _ _ _ _ (by simp; omega), length_bits32,
        ih _ (by simp at h; omega)]
      rw [show k / 32 = (k - 32) / 32 + 1 by omega, show k % 32 = (k - 32) % 32 by omega, List.getD_cons_succ]

@[simp] theorem length_headerFrame (n : Word) (f : FreqTable) : (headerFrame n f).length = 8224 := by
  rw [headerFrame, List.length_append, length_bits32, length_flatMap_bits32, Vector.length_toList]

/-- The header part of the frame, bit by bit: SIZE, then the table entries, most significant bit first. -/
theorem getD_headerFrame (n : Word) (f : FreqTable) (k : Nat) (hk : k < 8224) :
    (headerFrame n f).getD k false =
      if k < 32 then n.getLsbD (31 - k) else (f.toList.getD ((k - 32) / 32) 0).getLsbD (31 - (k - 32) % 32) := by
  rw [headerFrame]
  split
  · rename_i h
    rw [List.getD_append _ _ _ _ (by simpa using h), List.getD_eq_getElem _ _ (by simpa using h), getElem_bits32]
  · rw [List.getD_append_right _ _ _ _ (by simp; omega), length_bits32, getD_flatMap_bits32 _ _ (by simp; omega)]

/-! ### The output carrier (R164 to R166) -/

@[simp] theorem length_embedBits (cs : List Byte) (bs : List Bit) : (embedBits cs bs).length = cs.length := by
  induction cs generalizing bs with
  | nil => rfl
  | cons c cs ih => cases bs with
    | nil => rfl
    | cons b bs => simp [embedBits, ih]

theorem getD_embedBits (cs : List Byte) (bs : List Bit) (i : Nat) (h : i < cs.length) :
    (embedBits cs bs).getD i 0 = if i < bs.length then embedBit (cs.getD i 0) (bs.getD i false) else cs.getD i 0 := by
  induction cs generalizing bs i with
  | nil => simp at h
  | cons c cs ih =>
    cases bs with
    | nil => simp [embedBits]
    | cons b bs =>
      cases i with
      | zero => simp [embedBits]
      | succ i =>
        simp only [embedBits, List.getD_cons_succ, List.length_cons, Nat.succ_lt_succ_iff]
        exact ih bs i (by simpa using h)

@[simp] theorem length_embedFrame (cs : List Byte) (bs : List Bit) : (embedFrame cs bs).length = cs.length := by
  simp [embedFrame]; omega

/-- The output carrier byte by byte (R166). -/
theorem getD_embedFrame (cs : List Byte) (bs : List Bit) (a : Nat) (h : a < cs.length) :
    (embedFrame cs bs).getD a 0 =
      if 54 ≤ a ∧ a < 54 + bs.length then embedBit (cs.getD a 0) (bs.getD (a - 54) false) else cs.getD a 0 := by
  rw [embedFrame, Config.hdrLen_eq]
  by_cases h54 : a < 54
  · rw [List.getD_append _ _ _ _ (by simp; omega), if_neg (by omega)]
    simp [List.getD_eq_getElem?_getD, h54]
  · rw [List.getD_append_right _ _ _ _ (by simp; omega)]
    have : (List.take 54 cs).length = 54 := by simp; omega
    rw [this, getD_embedBits _ _ _ (by simp; omega)]
    have hd : (List.drop 54 cs).getD (a - 54) 0 = cs.getD a 0 := by
      simp [List.getD_eq_getElem?_getD, show 54 + (a - 54) = a by omega]
    rw [hd]
    by_cases hb : a - 54 < bs.length
    · rw [if_pos hb, if_pos ⟨by omega, by omega⟩]
    · rw [if_neg hb, if_neg (by omega)]

end Sys2Proof.Machine
end

