-- ==== Sys2Proof/Laws/State.lean ====
section
/-! SUPPORT. One lemma per field of State per update of Machine/Ops.lean and Machine/Flags.lean: what the update
writes, and that it writes nothing else. All true by rfl but those of raiseError, which splits on the error. -/

namespace Sys2Proof.Machine

variable (s : State)


@[simp] theorem withStatus_freq (st : Status) : (s.withStatus st).freq = s.freq := rfl
@[simp] theorem withStatus_size (st : Status) : (s.withStatus st).size = s.size := rfl
@[simp] theorem withStatus_srcLen (st : Status) : (s.withStatus st).srcLen = s.srcLen := rfl
@[simp] theorem withStatus_cinLen (st : Status) : (s.withStatus st).cinLen = s.cinLen := rfl
@[simp] theorem withStatus_coutLen (st : Status) : (s.withStatus st).coutLen = s.coutLen := rfl
@[simp] theorem withStatus_dstLen (st : Status) : (s.withStatus st).dstLen = s.dstLen := rfl
@[simp] theorem withStatus_pbits (st : Status) : (s.withStatus st).pbits = s.pbits := rfl
@[simp] theorem withStatus_rdbits (st : Status) : (s.withStatus st).rdbits = s.rdbits := rfl
@[simp] theorem withStatus_root (st : Status) : (s.withStatus st).root = s.root := rfl
@[simp] theorem withStatus_tkind (st : Status) : (s.withStatus st).tkind = s.tkind := rfl
@[simp] theorem withStatus_node (st : Status) : (s.withStatus st).node = s.node := rfl
@[simp] theorem withStatus_code (st : Status) : (s.withStatus st).code = s.code := rfl
@[simp] theorem withStatus_cmd (st : Status) : (s.withStatus st).cmd = s.cmd := rfl
@[simp] theorem withStatus_status (st : Status) : (s.withStatus st).status = st := rfl
@[simp] theorem withStatus_src (st : Status) : (s.withStatus st).src = s.src := rfl
@[simp] theorem withStatus_cin (st : Status) : (s.withStatus st).cin = s.cin := rfl
@[simp] theorem withStatus_cout (st : Status) : (s.withStatus st).cout = s.cout := rfl
@[simp] theorem withStatus_dst (st : Status) : (s.withStatus st).dst = s.dst := rfl
@[simp] theorem withStatus_pay (st : Status) : (s.withStatus st).pay = s.pay := rfl
@[simp] theorem withStatus_host (st : Status) : (s.withStatus st).host = s.host := rfl
@[simp] theorem withStatus_readData (st : Status) : (s.withStatus st).readData = s.readData := rfl
@[simp] theorem withStatus_srcStaged (st : Status) : (s.withStatus st).srcStaged = s.srcStaged := rfl
@[simp] theorem withStatus_cinStaged (st : Status) : (s.withStatus st).cinStaged = s.cinStaged := rfl
@[simp] theorem withStatus_draws (st : Status) : (s.withStatus st).draws = s.draws := rfl
@[simp] theorem withStatus_tree (st : Status) : (s.withStatus st).tree = s.tree := rfl

@[simp] theorem withTable_freq (f : FreqTable) (n : Word) : (s.withTable f n).freq = f := rfl
@[simp] theorem withTable_size (f : FreqTable) (n : Word) : (s.withTable f n).size = n := rfl
@[simp] theorem withTable_srcLen (f : FreqTable) (n : Word) : (s.withTable f n).srcLen = s.srcLen := rfl
@[simp] theorem withTable_cinLen (f : FreqTable) (n : Word) : (s.withTable f n).cinLen = s.cinLen := rfl
@[simp] theorem withTable_coutLen (f : FreqTable) (n : Word) : (s.withTable f n).coutLen = s.coutLen := rfl
@[simp] theorem withTable_dstLen (f : FreqTable) (n : Word) : (s.withTable f n).dstLen = s.dstLen := rfl
@[simp] theorem withTable_pbits (f : FreqTable) (n : Word) : (s.withTable f n).pbits = s.pbits := rfl
@[simp] theorem withTable_rdbits (f : FreqTable) (n : Word) : (s.withTable f n).rdbits = s.rdbits := rfl
@[simp] theorem withTable_root (f : FreqTable) (n : Word) : (s.withTable f n).root = s.root := rfl
@[simp] theorem withTable_tkind (f : FreqTable) (n : Word) : (s.withTable f n).tkind = s.tkind := rfl
@[simp] theorem withTable_node (f : FreqTable) (n : Word) : (s.withTable f n).node = s.node := rfl
@[simp] theorem withTable_code (f : FreqTable) (n : Word) : (s.withTable f n).code = s.code := rfl
@[simp] theorem withTable_cmd (f : FreqTable) (n : Word) : (s.withTable f n).cmd = s.cmd := rfl
@[simp] theorem withTable_status (f : FreqTable) (n : Word) : (s.withTable f n).status = s.status := rfl
@[simp] theorem withTable_src (f : FreqTable) (n : Word) : (s.withTable f n).src = s.src := rfl
@[simp] theorem withTable_cin (f : FreqTable) (n : Word) : (s.withTable f n).cin = s.cin := rfl
@[simp] theorem withTable_cout (f : FreqTable) (n : Word) : (s.withTable f n).cout = s.cout := rfl
@[simp] theorem withTable_dst (f : FreqTable) (n : Word) : (s.withTable f n).dst = s.dst := rfl
@[simp] theorem withTable_pay (f : FreqTable) (n : Word) : (s.withTable f n).pay = s.pay := rfl
@[simp] theorem withTable_host (f : FreqTable) (n : Word) : (s.withTable f n).host = s.host := rfl
@[simp] theorem withTable_readData (f : FreqTable) (n : Word) : (s.withTable f n).readData = s.readData := rfl
@[simp] theorem withTable_srcStaged (f : FreqTable) (n : Word) : (s.withTable f n).srcStaged = s.srcStaged := rfl
@[simp] theorem withTable_cinStaged (f : FreqTable) (n : Word) : (s.withTable f n).cinStaged = s.cinStaged := rfl
@[simp] theorem withTable_draws (f : FreqTable) (n : Word) : (s.withTable f n).draws = s.draws := rfl
@[simp] theorem withTable_tree (f : FreqTable) (n : Word) : (s.withTable f n).tree = s.tree := rfl

@[simp] theorem withTree_freq (t : Tree) : (s.withTree t).freq = s.freq := rfl
@[simp] theorem withTree_size (t : Tree) : (s.withTree t).size = s.size := rfl
@[simp] theorem withTree_srcLen (t : Tree) : (s.withTree t).srcLen = s.srcLen := rfl
@[simp] theorem withTree_cinLen (t : Tree) : (s.withTree t).cinLen = s.cinLen := rfl
@[simp] theorem withTree_coutLen (t : Tree) : (s.withTree t).coutLen = s.coutLen := rfl
@[simp] theorem withTree_dstLen (t : Tree) : (s.withTree t).dstLen = s.dstLen := rfl
@[simp] theorem withTree_pbits (t : Tree) : (s.withTree t).pbits = s.pbits := rfl
@[simp] theorem withTree_rdbits (t : Tree) : (s.withTree t).rdbits = s.rdbits := rfl
@[simp] theorem withTree_root (t : Tree) : (s.withTree t).root = t.root := rfl
@[simp] theorem withTree_tkind (t : Tree) : (s.withTree t).tkind = t.kind := rfl
@[simp] theorem withTree_node (t : Tree) : (s.withTree t).node = t.node := rfl
@[simp] theorem withTree_code (t : Tree) : (s.withTree t).code = s.code := rfl
@[simp] theorem withTree_cmd (t : Tree) : (s.withTree t).cmd = s.cmd := rfl
@[simp] theorem withTree_status (t : Tree) : (s.withTree t).status = s.status := rfl
@[simp] theorem withTree_src (t : Tree) : (s.withTree t).src = s.src := rfl
@[simp] theorem withTree_cin (t : Tree) : (s.withTree t).cin = s.cin := rfl
@[simp] theorem withTree_cout (t : Tree) : (s.withTree t).cout = s.cout := rfl
@[simp] theorem withTree_dst (t : Tree) : (s.withTree t).dst = s.dst := rfl
@[simp] theorem withTree_pay (t : Tree) : (s.withTree t).pay = s.pay := rfl
@[simp] theorem withTree_host (t : Tree) : (s.withTree t).host = s.host := rfl
@[simp] theorem withTree_readData (t : Tree) : (s.withTree t).readData = s.readData := rfl
@[simp] theorem withTree_srcStaged (t : Tree) : (s.withTree t).srcStaged = s.srcStaged := rfl
@[simp] theorem withTree_cinStaged (t : Tree) : (s.withTree t).cinStaged = s.cinStaged := rfl
@[simp] theorem withTree_draws (t : Tree) : (s.withTree t).draws = s.draws := rfl
@[simp] theorem withTree_tree (t : Tree) : (s.withTree t).tree = t := rfl

@[simp] theorem withCode_freq (c : CodeTable) : (s.withCode c).freq = s.freq := rfl
@[simp] theorem withCode_size (c : CodeTable) : (s.withCode c).size = s.size := rfl
@[simp] theorem withCode_srcLen (c : CodeTable) : (s.withCode c).srcLen = s.srcLen := rfl
@[simp] theorem withCode_cinLen (c : CodeTable) : (s.withCode c).cinLen = s.cinLen := rfl
@[simp] theorem withCode_coutLen (c : CodeTable) : (s.withCode c).coutLen = s.coutLen := rfl
@[simp] theorem withCode_dstLen (c : CodeTable) : (s.withCode c).dstLen = s.dstLen := rfl
@[simp] theorem withCode_pbits (c : CodeTable) : (s.withCode c).pbits = s.pbits := rfl
@[simp] theorem withCode_rdbits (c : CodeTable) : (s.withCode c).rdbits = s.rdbits := rfl
@[simp] theorem withCode_root (c : CodeTable) : (s.withCode c).root = s.root := rfl
@[simp] theorem withCode_tkind (c : CodeTable) : (s.withCode c).tkind = s.tkind := rfl
@[simp] theorem withCode_node (c : CodeTable) : (s.withCode c).node = s.node := rfl
@[simp] theorem withCode_code (c : CodeTable) : (s.withCode c).code = c := rfl
@[simp] theorem withCode_cmd (c : CodeTable) : (s.withCode c).cmd = s.cmd := rfl
@[simp] theorem withCode_status (c : CodeTable) : (s.withCode c).status = s.status := rfl
@[simp] theorem withCode_src (c : CodeTable) : (s.withCode c).src = s.src := rfl
@[simp] theorem withCode_cin (c : CodeTable) : (s.withCode c).cin = s.cin := rfl
@[simp] theorem withCode_cout (c : CodeTable) : (s.withCode c).cout = s.cout := rfl
@[simp] theorem withCode_dst (c : CodeTable) : (s.withCode c).dst = s.dst := rfl
@[simp] theorem withCode_pay (c : CodeTable) : (s.withCode c).pay = s.pay := rfl
@[simp] theorem withCode_host (c : CodeTable) : (s.withCode c).host = s.host := rfl
@[simp] theorem withCode_readData (c : CodeTable) : (s.withCode c).readData = s.readData := rfl
@[simp] theorem withCode_srcStaged (c : CodeTable) : (s.withCode c).srcStaged = s.srcStaged := rfl
@[simp] theorem withCode_cinStaged (c : CodeTable) : (s.withCode c).cinStaged = s.cinStaged := rfl
@[simp] theorem withCode_draws (c : CodeTable) : (s.withCode c).draws = s.draws := rfl
@[simp] theorem withCode_tree (c : CodeTable) : (s.withCode c).tree = s.tree := rfl

@[simp] theorem withPay_freq (bits : List Bit) (total : Nat) : (s.withPay bits total).freq = s.freq := rfl
@[simp] theorem withPay_size (bits : List Bit) (total : Nat) : (s.withPay bits total).size = s.size := rfl
@[simp] theorem withPay_srcLen (bits : List Bit) (total : Nat) : (s.withPay bits total).srcLen = s.srcLen := rfl
@[simp] theorem withPay_cinLen (bits : List Bit) (total : Nat) : (s.withPay bits total).cinLen = s.cinLen := rfl
@[simp] theorem withPay_coutLen (bits : List Bit) (total : Nat) : (s.withPay bits total).coutLen = s.coutLen := rfl
@[simp] theorem withPay_dstLen (bits : List Bit) (total : Nat) : (s.withPay bits total).dstLen = s.dstLen := rfl
@[simp] theorem withPay_pbits (bits : List Bit) (total : Nat) : (s.withPay bits total).pbits = BitVec.ofNat 40 total := rfl
@[simp] theorem withPay_rdbits (bits : List Bit) (total : Nat) : (s.withPay bits total).rdbits = s.rdbits := rfl
@[simp] theorem withPay_root (bits : List Bit) (total : Nat) : (s.withPay bits total).root = s.root := rfl
@[simp] theorem withPay_tkind (bits : List Bit) (total : Nat) : (s.withPay bits total).tkind = s.tkind := rfl
@[simp] theorem withPay_node (bits : List Bit) (total : Nat) : (s.withPay bits total).node = s.node := rfl
@[simp] theorem withPay_code (bits : List Bit) (total : Nat) : (s.withPay bits total).code = s.code := rfl
@[simp] theorem withPay_cmd (bits : List Bit) (total : Nat) : (s.withPay bits total).cmd = s.cmd := rfl
@[simp] theorem withPay_status (bits : List Bit) (total : Nat) : (s.withPay bits total).status = s.status := rfl
@[simp] theorem withPay_src (bits : List Bit) (total : Nat) : (s.withPay bits total).src = s.src := rfl
@[simp] theorem withPay_cin (bits : List Bit) (total : Nat) : (s.withPay bits total).cin = s.cin := rfl
@[simp] theorem withPay_cout (bits : List Bit) (total : Nat) : (s.withPay bits total).cout = s.cout := rfl
@[simp] theorem withPay_dst (bits : List Bit) (total : Nat) : (s.withPay bits total).dst = s.dst := rfl
@[simp] theorem withPay_pay (bits : List Bit) (total : Nat) : (s.withPay bits total).pay = bits := rfl
@[simp] theorem withPay_host (bits : List Bit) (total : Nat) : (s.withPay bits total).host = s.host := rfl
@[simp] theorem withPay_readData (bits : List Bit) (total : Nat) : (s.withPay bits total).readData = s.readData := rfl
@[simp] theorem withPay_srcStaged (bits : List Bit) (total : Nat) : (s.withPay bits total).srcStaged = s.srcStaged := rfl
@[simp] theorem withPay_cinStaged (bits : List Bit) (total : Nat) : (s.withPay bits total).cinStaged = s.cinStaged := rfl
@[simp] theorem withPay_draws (bits : List Bit) (total : Nat) : (s.withPay bits total).draws = s.draws := rfl
@[simp] theorem withPay_tree (bits : List Bit) (total : Nat) : (s.withPay bits total).tree = s.tree := rfl

@[simp] theorem withCout_freq (bs : List Byte) (n : Word) : (s.withCout bs n).freq = s.freq := rfl
@[simp] theorem withCout_size (bs : List Byte) (n : Word) : (s.withCout bs n).size = s.size := rfl
@[simp] theorem withCout_srcLen (bs : List Byte) (n : Word) : (s.withCout bs n).srcLen = s.srcLen := rfl
@[simp] theorem withCout_cinLen (bs : List Byte) (n : Word) : (s.withCout bs n).cinLen = s.cinLen := rfl
@[simp] theorem withCout_coutLen (bs : List Byte) (n : Word) : (s.withCout bs n).coutLen = n := rfl
@[simp] theorem withCout_dstLen (bs : List Byte) (n : Word) : (s.withCout bs n).dstLen = s.dstLen := rfl
@[simp] theorem withCout_pbits (bs : List Byte) (n : Word) : (s.withCout bs n).pbits = s.pbits := rfl
@[simp] theorem withCout_rdbits (bs : List Byte) (n : Word) : (s.withCout bs n).rdbits = s.rdbits := rfl
@[simp] theorem withCout_root (bs : List Byte) (n : Word) : (s.withCout bs n).root = s.root := rfl
@[simp] theorem withCout_tkind (bs : List Byte) (n : Word) : (s.withCout bs n).tkind = s.tkind := rfl
@[simp] theorem withCout_node (bs : List Byte) (n : Word) : (s.withCout bs n).node = s.node := rfl
@[simp] theorem withCout_code (bs : List Byte) (n : Word) : (s.withCout bs n).code = s.code := rfl
@[simp] theorem withCout_cmd (bs : List Byte) (n : Word) : (s.withCout bs n).cmd = s.cmd := rfl
@[simp] theorem withCout_status (bs : List Byte) (n : Word) : (s.withCout bs n).status = s.status := rfl
@[simp] theorem withCout_src (bs : List Byte) (n : Word) : (s.withCout bs n).src = s.src := rfl
@[simp] theorem withCout_cin (bs : List Byte) (n : Word) : (s.withCout bs n).cin = s.cin := rfl
@[simp] theorem withCout_cout (bs : List Byte) (n : Word) : (s.withCout bs n).cout = Memory.ofBytes bs := rfl
@[simp] theorem withCout_dst (bs : List Byte) (n : Word) : (s.withCout bs n).dst = s.dst := rfl
@[simp] theorem withCout_pay (bs : List Byte) (n : Word) : (s.withCout bs n).pay = s.pay := rfl
@[simp] theorem withCout_host (bs : List Byte) (n : Word) : (s.withCout bs n).host = s.host := rfl
@[simp] theorem withCout_readData (bs : List Byte) (n : Word) : (s.withCout bs n).readData = s.readData := rfl
@[simp] theorem withCout_srcStaged (bs : List Byte) (n : Word) : (s.withCout bs n).srcStaged = s.srcStaged := rfl
@[simp] theorem withCout_cinStaged (bs : List Byte) (n : Word) : (s.withCout bs n).cinStaged = s.cinStaged := rfl
@[simp] theorem withCout_draws (bs : List Byte) (n : Word) : (s.withCout bs n).draws = s.draws := rfl
@[simp] theorem withCout_tree (bs : List Byte) (n : Word) : (s.withCout bs n).tree = s.tree := rfl

@[simp] theorem withDst_freq (bs : List Byte) (n : Word) : (s.withDst bs n).freq = s.freq := rfl
@[simp] theorem withDst_size (bs : List Byte) (n : Word) : (s.withDst bs n).size = s.size := rfl
@[simp] theorem withDst_srcLen (bs : List Byte) (n : Word) : (s.withDst bs n).srcLen = s.srcLen := rfl
@[simp] theorem withDst_cinLen (bs : List Byte) (n : Word) : (s.withDst bs n).cinLen = s.cinLen := rfl
@[simp] theorem withDst_coutLen (bs : List Byte) (n : Word) : (s.withDst bs n).coutLen = s.coutLen := rfl
@[simp] theorem withDst_dstLen (bs : List Byte) (n : Word) : (s.withDst bs n).dstLen = n := rfl
@[simp] theorem withDst_pbits (bs : List Byte) (n : Word) : (s.withDst bs n).pbits = s.pbits := rfl
@[simp] theorem withDst_rdbits (bs : List Byte) (n : Word) : (s.withDst bs n).rdbits = s.rdbits := rfl
@[simp] theorem withDst_root (bs : List Byte) (n : Word) : (s.withDst bs n).root = s.root := rfl
@[simp] theorem withDst_tkind (bs : List Byte) (n : Word) : (s.withDst bs n).tkind = s.tkind := rfl
@[simp] theorem withDst_node (bs : List Byte) (n : Word) : (s.withDst bs n).node = s.node := rfl
@[simp] theorem withDst_code (bs : List Byte) (n : Word) : (s.withDst bs n).code = s.code := rfl
@[simp] theorem withDst_cmd (bs : List Byte) (n : Word) : (s.withDst bs n).cmd = s.cmd := rfl
@[simp] theorem withDst_status (bs : List Byte) (n : Word) : (s.withDst bs n).status = s.status := rfl
@[simp] theorem withDst_src (bs : List Byte) (n : Word) : (s.withDst bs n).src = s.src := rfl
@[simp] theorem withDst_cin (bs : List Byte) (n : Word) : (s.withDst bs n).cin = s.cin := rfl
@[simp] theorem withDst_cout (bs : List Byte) (n : Word) : (s.withDst bs n).cout = s.cout := rfl
@[simp] theorem withDst_dst (bs : List Byte) (n : Word) : (s.withDst bs n).dst = Memory.ofBytes bs := rfl
@[simp] theorem withDst_pay (bs : List Byte) (n : Word) : (s.withDst bs n).pay = s.pay := rfl
@[simp] theorem withDst_host (bs : List Byte) (n : Word) : (s.withDst bs n).host = s.host := rfl
@[simp] theorem withDst_readData (bs : List Byte) (n : Word) : (s.withDst bs n).readData = s.readData := rfl
@[simp] theorem withDst_srcStaged (bs : List Byte) (n : Word) : (s.withDst bs n).srcStaged = s.srcStaged := rfl
@[simp] theorem withDst_cinStaged (bs : List Byte) (n : Word) : (s.withDst bs n).cinStaged = s.cinStaged := rfl
@[simp] theorem withDst_draws (bs : List Byte) (n : Word) : (s.withDst bs n).draws = s.draws := rfl
@[simp] theorem withDst_tree (bs : List Byte) (n : Word) : (s.withDst bs n).tree = s.tree := rfl

@[simp] theorem withRdbits_freq (p : Nat) : (s.withRdbits p).freq = s.freq := rfl
@[simp] theorem withRdbits_size (p : Nat) : (s.withRdbits p).size = s.size := rfl
@[simp] theorem withRdbits_srcLen (p : Nat) : (s.withRdbits p).srcLen = s.srcLen := rfl
@[simp] theorem withRdbits_cinLen (p : Nat) : (s.withRdbits p).cinLen = s.cinLen := rfl
@[simp] theorem withRdbits_coutLen (p : Nat) : (s.withRdbits p).coutLen = s.coutLen := rfl
@[simp] theorem withRdbits_dstLen (p : Nat) : (s.withRdbits p).dstLen = s.dstLen := rfl
@[simp] theorem withRdbits_pbits (p : Nat) : (s.withRdbits p).pbits = s.pbits := rfl
@[simp] theorem withRdbits_rdbits (p : Nat) : (s.withRdbits p).rdbits = BitVec.ofNat 32 p := rfl
@[simp] theorem withRdbits_root (p : Nat) : (s.withRdbits p).root = s.root := rfl
@[simp] theorem withRdbits_tkind (p : Nat) : (s.withRdbits p).tkind = s.tkind := rfl
@[simp] theorem withRdbits_node (p : Nat) : (s.withRdbits p).node = s.node := rfl
@[simp] theorem withRdbits_code (p : Nat) : (s.withRdbits p).code = s.code := rfl
@[simp] theorem withRdbits_cmd (p : Nat) : (s.withRdbits p).cmd = s.cmd := rfl
@[simp] theorem withRdbits_status (p : Nat) : (s.withRdbits p).status = s.status := rfl
@[simp] theorem withRdbits_src (p : Nat) : (s.withRdbits p).src = s.src := rfl
@[simp] theorem withRdbits_cin (p : Nat) : (s.withRdbits p).cin = s.cin := rfl
@[simp] theorem withRdbits_cout (p : Nat) : (s.withRdbits p).cout = s.cout := rfl
@[simp] theorem withRdbits_dst (p : Nat) : (s.withRdbits p).dst = s.dst := rfl
@[simp] theorem withRdbits_pay (p : Nat) : (s.withRdbits p).pay = s.pay := rfl
@[simp] theorem withRdbits_host (p : Nat) : (s.withRdbits p).host = s.host := rfl
@[simp] theorem withRdbits_readData (p : Nat) : (s.withRdbits p).readData = s.readData := rfl
@[simp] theorem withRdbits_srcStaged (p : Nat) : (s.withRdbits p).srcStaged = s.srcStaged := rfl
@[simp] theorem withRdbits_cinStaged (p : Nat) : (s.withRdbits p).cinStaged = s.cinStaged := rfl
@[simp] theorem withRdbits_draws (p : Nat) : (s.withRdbits p).draws = s.draws := rfl
@[simp] theorem withRdbits_tree (p : Nat) : (s.withRdbits p).tree = s.tree := rfl

@[simp] theorem setEmpty_freq (n : Word) : (s.setEmpty n).freq = s.freq := rfl
@[simp] theorem setEmpty_size (n : Word) : (s.setEmpty n).size = s.size := rfl
@[simp] theorem setEmpty_srcLen (n : Word) : (s.setEmpty n).srcLen = s.srcLen := rfl
@[simp] theorem setEmpty_cinLen (n : Word) : (s.setEmpty n).cinLen = s.cinLen := rfl
@[simp] theorem setEmpty_coutLen (n : Word) : (s.setEmpty n).coutLen = s.coutLen := rfl
@[simp] theorem setEmpty_dstLen (n : Word) : (s.setEmpty n).dstLen = s.dstLen := rfl
@[simp] theorem setEmpty_pbits (n : Word) : (s.setEmpty n).pbits = s.pbits := rfl
@[simp] theorem setEmpty_rdbits (n : Word) : (s.setEmpty n).rdbits = s.rdbits := rfl
@[simp] theorem setEmpty_root (n : Word) : (s.setEmpty n).root = s.root := rfl
@[simp] theorem setEmpty_tkind (n : Word) : (s.setEmpty n).tkind = s.tkind := rfl
@[simp] theorem setEmpty_node (n : Word) : (s.setEmpty n).node = s.node := rfl
@[simp] theorem setEmpty_code (n : Word) : (s.setEmpty n).code = s.code := rfl
@[simp] theorem setEmpty_cmd (n : Word) : (s.setEmpty n).cmd = s.cmd := rfl
@[simp] theorem setEmpty_status (n : Word) : (s.setEmpty n).status = { s.status with empty := n == 0 } := rfl
@[simp] theorem setEmpty_src (n : Word) : (s.setEmpty n).src = s.src := rfl
@[simp] theorem setEmpty_cin (n : Word) : (s.setEmpty n).cin = s.cin := rfl
@[simp] theorem setEmpty_cout (n : Word) : (s.setEmpty n).cout = s.cout := rfl
@[simp] theorem setEmpty_dst (n : Word) : (s.setEmpty n).dst = s.dst := rfl
@[simp] theorem setEmpty_pay (n : Word) : (s.setEmpty n).pay = s.pay := rfl
@[simp] theorem setEmpty_host (n : Word) : (s.setEmpty n).host = s.host := rfl
@[simp] theorem setEmpty_readData (n : Word) : (s.setEmpty n).readData = s.readData := rfl
@[simp] theorem setEmpty_srcStaged (n : Word) : (s.setEmpty n).srcStaged = s.srcStaged := rfl
@[simp] theorem setEmpty_cinStaged (n : Word) : (s.setEmpty n).cinStaged = s.cinStaged := rfl
@[simp] theorem setEmpty_draws (n : Word) : (s.setEmpty n).draws = s.draws := rfl
@[simp] theorem setEmpty_tree (n : Word) : (s.setEmpty n).tree = s.tree := rfl

@[simp] theorem accept_freq : (accept s).freq = s.freq := rfl
@[simp] theorem accept_size : (accept s).size = s.size := rfl
@[simp] theorem accept_srcLen : (accept s).srcLen = s.srcLen := rfl
@[simp] theorem accept_cinLen : (accept s).cinLen = s.cinLen := rfl
@[simp] theorem accept_coutLen : (accept s).coutLen = s.coutLen := rfl
@[simp] theorem accept_dstLen : (accept s).dstLen = s.dstLen := rfl
@[simp] theorem accept_pbits : (accept s).pbits = s.pbits := rfl
@[simp] theorem accept_rdbits : (accept s).rdbits = s.rdbits := rfl
@[simp] theorem accept_root : (accept s).root = s.root := rfl
@[simp] theorem accept_tkind : (accept s).tkind = s.tkind := rfl
@[simp] theorem accept_node : (accept s).node = s.node := rfl
@[simp] theorem accept_code : (accept s).code = s.code := rfl
@[simp] theorem accept_cmd : (accept s).cmd = s.cmd := rfl
@[simp] theorem accept_status : (accept s).status = { state := .busy, err := none, empty := false } := rfl
@[simp] theorem accept_src : (accept s).src = s.src := rfl
@[simp] theorem accept_cin : (accept s).cin = s.cin := rfl
@[simp] theorem accept_cout : (accept s).cout = s.cout := rfl
@[simp] theorem accept_dst : (accept s).dst = s.dst := rfl
@[simp] theorem accept_pay : (accept s).pay = s.pay := rfl
@[simp] theorem accept_host : (accept s).host = s.host := rfl
@[simp] theorem accept_readData : (accept s).readData = s.readData := rfl
@[simp] theorem accept_srcStaged : (accept s).srcStaged = s.srcStaged := rfl
@[simp] theorem accept_cinStaged : (accept s).cinStaged = s.cinStaged := rfl
@[simp] theorem accept_draws : (accept s).draws = s.draws := rfl
@[simp] theorem accept_tree : (accept s).tree = s.tree := rfl

@[simp] theorem complete_freq : (complete s).freq = s.freq := rfl
@[simp] theorem complete_size : (complete s).size = s.size := rfl
@[simp] theorem complete_srcLen : (complete s).srcLen = s.srcLen := rfl
@[simp] theorem complete_cinLen : (complete s).cinLen = s.cinLen := rfl
@[simp] theorem complete_coutLen : (complete s).coutLen = s.coutLen := rfl
@[simp] theorem complete_dstLen : (complete s).dstLen = s.dstLen := rfl
@[simp] theorem complete_pbits : (complete s).pbits = s.pbits := rfl
@[simp] theorem complete_rdbits : (complete s).rdbits = s.rdbits := rfl
@[simp] theorem complete_root : (complete s).root = s.root := rfl
@[simp] theorem complete_tkind : (complete s).tkind = s.tkind := rfl
@[simp] theorem complete_node : (complete s).node = s.node := rfl
@[simp] theorem complete_code : (complete s).code = s.code := rfl
@[simp] theorem complete_cmd : (complete s).cmd = s.cmd := rfl
@[simp] theorem complete_status : (complete s).status = { s.status with state := .done } := rfl
@[simp] theorem complete_src : (complete s).src = s.src := rfl
@[simp] theorem complete_cin : (complete s).cin = s.cin := rfl
@[simp] theorem complete_cout : (complete s).cout = s.cout := rfl
@[simp] theorem complete_dst : (complete s).dst = s.dst := rfl
@[simp] theorem complete_pay : (complete s).pay = s.pay := rfl
@[simp] theorem complete_host : (complete s).host = s.host := rfl
@[simp] theorem complete_readData : (complete s).readData = s.readData := rfl
@[simp] theorem complete_srcStaged : (complete s).srcStaged = s.srcStaged := rfl
@[simp] theorem complete_cinStaged : (complete s).cinStaged = s.cinStaged := rfl
@[simp] theorem complete_draws : (complete s).draws = s.draws := rfl
@[simp] theorem complete_tree : (complete s).tree = s.tree := rfl

@[simp] theorem emptyOutputs_freq (e : ErrorKind) : (emptyOutputs e s).freq = s.freq := by cases e <;> rfl
@[simp] theorem emptyOutputs_size (e : ErrorKind) : (emptyOutputs e s).size = s.size := by cases e <;> rfl
@[simp] theorem emptyOutputs_srcLen (e : ErrorKind) : (emptyOutputs e s).srcLen = s.srcLen := by cases e <;> rfl
@[simp] theorem emptyOutputs_cinLen (e : ErrorKind) : (emptyOutputs e s).cinLen = s.cinLen := by cases e <;> rfl
@[simp] theorem emptyOutputs_coutLen (e : ErrorKind) : (emptyOutputs e s).coutLen = s.coutLen := by cases e <;> rfl
@[simp] theorem emptyOutputs_pbits (e : ErrorKind) : (emptyOutputs e s).pbits = s.pbits := by cases e <;> rfl
@[simp] theorem emptyOutputs_rdbits (e : ErrorKind) : (emptyOutputs e s).rdbits = s.rdbits := by cases e <;> rfl
@[simp] theorem emptyOutputs_root (e : ErrorKind) : (emptyOutputs e s).root = s.root := by cases e <;> rfl
@[simp] theorem emptyOutputs_tkind (e : ErrorKind) : (emptyOutputs e s).tkind = s.tkind := by cases e <;> rfl
@[simp] theorem emptyOutputs_node (e : ErrorKind) : (emptyOutputs e s).node = s.node := by cases e <;> rfl
@[simp] theorem emptyOutputs_code (e : ErrorKind) : (emptyOutputs e s).code = s.code := by cases e <;> rfl
@[simp] theorem emptyOutputs_cmd (e : ErrorKind) : (emptyOutputs e s).cmd = s.cmd := by cases e <;> rfl
@[simp] theorem emptyOutputs_src (e : ErrorKind) : (emptyOutputs e s).src = s.src := by cases e <;> rfl
@[simp] theorem emptyOutputs_cin (e : ErrorKind) : (emptyOutputs e s).cin = s.cin := by cases e <;> rfl
@[simp] theorem emptyOutputs_cout (e : ErrorKind) : (emptyOutputs e s).cout = s.cout := by cases e <;> rfl
@[simp] theorem emptyOutputs_pay (e : ErrorKind) : (emptyOutputs e s).pay = s.pay := by cases e <;> rfl
@[simp] theorem emptyOutputs_host (e : ErrorKind) : (emptyOutputs e s).host = s.host := by cases e <;> rfl
@[simp] theorem emptyOutputs_readData (e : ErrorKind) : (emptyOutputs e s).readData = s.readData := by cases e <;> rfl
@[simp] theorem emptyOutputs_srcStaged (e : ErrorKind) : (emptyOutputs e s).srcStaged = s.srcStaged := by cases e <;> rfl
@[simp] theorem emptyOutputs_cinStaged (e : ErrorKind) : (emptyOutputs e s).cinStaged = s.cinStaged := by cases e <;> rfl
@[simp] theorem emptyOutputs_draws (e : ErrorKind) : (emptyOutputs e s).draws = s.draws := by cases e <;> rfl
@[simp] theorem emptyOutputs_status (e : ErrorKind) : (emptyOutputs e s).status = s.status := by cases e <;> rfl

@[simp] theorem raiseError_freq (e : ErrorKind) : (raiseError e s).freq = s.freq := by cases e <;> rfl
@[simp] theorem raiseError_size (e : ErrorKind) : (raiseError e s).size = s.size := by cases e <;> rfl
@[simp] theorem raiseError_srcLen (e : ErrorKind) : (raiseError e s).srcLen = s.srcLen := by cases e <;> rfl
@[simp] theorem raiseError_cinLen (e : ErrorKind) : (raiseError e s).cinLen = s.cinLen := by cases e <;> rfl
@[simp] theorem raiseError_coutLen (e : ErrorKind) : (raiseError e s).coutLen = s.coutLen := by cases e <;> rfl
@[simp] theorem raiseError_pbits (e : ErrorKind) : (raiseError e s).pbits = s.pbits := by cases e <;> rfl
@[simp] theorem raiseError_rdbits (e : ErrorKind) : (raiseError e s).rdbits = s.rdbits := by cases e <;> rfl
@[simp] theorem raiseError_root (e : ErrorKind) : (raiseError e s).root = s.root := by cases e <;> rfl
@[simp] theorem raiseError_tkind (e : ErrorKind) : (raiseError e s).tkind = s.tkind := by cases e <;> rfl
@[simp] theorem raiseError_node (e : ErrorKind) : (raiseError e s).node = s.node := by cases e <;> rfl
@[simp] theorem raiseError_code (e : ErrorKind) : (raiseError e s).code = s.code := by cases e <;> rfl
@[simp] theorem raiseError_cmd (e : ErrorKind) : (raiseError e s).cmd = s.cmd := by cases e <;> rfl
@[simp] theorem raiseError_src (e : ErrorKind) : (raiseError e s).src = s.src := by cases e <;> rfl
@[simp] theorem raiseError_cin (e : ErrorKind) : (raiseError e s).cin = s.cin := by cases e <;> rfl
@[simp] theorem raiseError_cout (e : ErrorKind) : (raiseError e s).cout = s.cout := by cases e <;> rfl
@[simp] theorem raiseError_pay (e : ErrorKind) : (raiseError e s).pay = s.pay := by cases e <;> rfl
@[simp] theorem raiseError_host (e : ErrorKind) : (raiseError e s).host = s.host := by cases e <;> rfl
@[simp] theorem raiseError_readData (e : ErrorKind) : (raiseError e s).readData = s.readData := by cases e <;> rfl
@[simp] theorem raiseError_srcStaged (e : ErrorKind) : (raiseError e s).srcStaged = s.srcStaged := by cases e <;> rfl
@[simp] theorem raiseError_cinStaged (e : ErrorKind) : (raiseError e s).cinStaged = s.cinStaged := by cases e <;> rfl
@[simp] theorem raiseError_draws (e : ErrorKind) : (raiseError e s).draws = s.draws := by cases e <;> rfl
@[simp] theorem raiseError_tree (e : ErrorKind) : (raiseError e s).tree = s.tree := by cases e <;> rfl
@[simp] theorem raiseError_status (e : ErrorKind) :
    (raiseError e s).status = { s.status with state := .error, err := some e } := rfl

@[simp] theorem raiseError_dst_insufficientCapacity : (raiseError .insufficientCapacity s).dst = s.dst := rfl
@[simp] theorem raiseError_dstLen_insufficientCapacity : (raiseError .insufficientCapacity s).dstLen = s.dstLen := rfl
@[simp] theorem raiseError_dst_missingCode : (raiseError .missingCode s).dst = s.dst := rfl
@[simp] theorem raiseError_dstLen_missingCode : (raiseError .missingCode s).dstLen = s.dstLen := rfl
@[simp] theorem raiseError_dst_corruptHeader : (raiseError .corruptHeader s).dst = s.dst := rfl
@[simp] theorem raiseError_dstLen_corruptHeader : (raiseError .corruptHeader s).dstLen = s.dstLen := rfl
@[simp] theorem raiseError_dst_incompleteStream : (raiseError .incompleteStream s).dst = Memory.ofBytes [] := rfl
@[simp] theorem raiseError_dstLen_incompleteStream : (raiseError .incompleteStream s).dstLen = 0 := rfl
@[simp] theorem raiseError_dst_invalidCode : (raiseError .invalidCode s).dst = Memory.ofBytes [] := rfl
@[simp] theorem raiseError_dstLen_invalidCode : (raiseError .invalidCode s).dstLen = 0 := rfl
@[simp] theorem raiseError_dst_illegalCommand : (raiseError .illegalCommand s).dst = s.dst := rfl
@[simp] theorem raiseError_dstLen_illegalCommand : (raiseError .illegalCommand s).dstLen = s.dstLen := rfl

end Sys2Proof.Machine
end

