-- ==== Sys2Proof/Laws/Framing.lean ====
section
/-! SUPPORT. What the pseudocode of the framing layer, of the walker and of the whole-path commands can do, once
each: the cases in which it ends, the condition of each, and the state it leaves (R140, R161, R169, R180, R184). -/

namespace Sys2Proof.Machine

/-- FEMBED's pseudocode: the capacity test decides (R162). -/
theorem fembedBody_cases (s : State) :
    (s.cinLen.toNat < 8278 + s.pbits.toNat ∧
      fembedBody s = .raised .insufficientCapacity ((s.setEmpty s.size).withCout [] 0)) ∨
    (8278 + s.pbits.toNat ≤ s.cinLen.toNat ∧
      fembedBody s = .done (((s.setEmpty s.size).withCout [] 0).withCout (embedFrame s.cinBytes s.frame) s.cinLen)) := by
  by_cases h : s.cinLen.toNat < 8278 + s.pbits.toNat
  · refine .inl ⟨h, ?_⟩
    unfold fembedBody
    rw [if_pos (by simp [State.requiredBits]; omega)]
  · refine .inr ⟨by omega, ?_⟩
    unfold fembedBody
    rw [if_neg (by simp [State.requiredBits]; omega)]
    rfl

/-- FEXTRACT's pseudocode: the two tests of R173, with the size field read between them (R169). -/
theorem fextractBody_cases (s : State) :
    ((s.cinLen.toNat < 86 ∨ (s.cinLen.toNat < 8278 ∧ s.frameField 0 ≠ 0)) ∧
      fextractBody s = .raised .corruptHeader (s.withTable zeroFreq 0)) ∨
    (86 ≤ s.cinLen.toNat ∧ s.frameField 0 = 0 ∧
      fextractBody s = .done ((s.withTable zeroFreq 0).setEmpty 0)) ∨
    (8278 ≤ s.cinLen.toNat ∧ s.frameField 0 ≠ 0 ∧
      fextractBody s = .done ((s.withTable zeroFreq 0).withTable s.frameTable (s.frameField 0))) := by
  have hf : (s.withTable zeroFreq 0).frameField 0 = s.frameField 0 := rfl
  have ht : (s.withTable zeroFreq 0).frameTable = s.frameTable := rfl
  by_cases h1 : s.cinLen.toNat < 86
  · left
    refine ⟨.inl h1, ?_⟩
    unfold fextractBody
    rw [if_pos (by simpa using h1)]
  · by_cases h2 : s.frameField 0 = 0
    · right; left
      refine ⟨by omega, h2, ?_⟩
      unfold fextractBody
      simp only []
      rw [if_neg (by simpa using h1), hf, if_pos h2, h2]
    · by_cases h3 : s.cinLen.toNat < 8278
      · left
        refine ⟨.inr ⟨h3, h2⟩, ?_⟩
        unfold fextractBody
        simp only []
        rw [if_neg (by simpa using h1), hf, if_neg h2, if_pos (by simpa using h3)]
      · right; right
        refine ⟨by omega, h2, ?_⟩
        unfold fextractBody
        simp only []
        rw [if_neg (by simpa using h1), hf, if_neg h2, if_neg (by simpa using h3), ht]

/-- The payload bits depend on CIN alone. -/
theorem payloadBit_congr {s t : State} (h : t.cin = s.cin) : t.payloadBit = s.payloadBit := by
  funext p; unfold State.payloadBit State.carrierBit; rw [h]

theorem payloadCapacity_congr {s t : State} (h : t.cinLen = s.cinLen) : t.payloadCapacity = s.payloadCapacity := by
  unfold State.payloadCapacity; rw [h]

/-- BUNPACK's pseudocode: nothing to do, no tree, or the walker's loop (R140, R151). -/
theorem bunpackBody_cases (s : State) :
    (s.size = 0 ∧ bunpackBody s = .done (((s.setEmpty s.size).withDst [] 0).withRdbits 0)) ∨
    (s.size ≠ 0 ∧ s.root = none ∧
      bunpackBody s = .raised .invalidCode (((s.setEmpty s.size).withDst [] 0).withRdbits 0)) ∨
    (∃ root, s.size ≠ 0 ∧ s.root = some root ∧ bunpackBody s =
      endWalk (((s.setEmpty s.size).withDst [] 0).withRdbits 0)
        (walkLoop s.tree root s.payloadBit s.payloadCapacity 0 root s.size.toNat [])) := by
  have hb : (((s.setEmpty s.size).withDst [] 0).withRdbits 0).payloadBit = s.payloadBit := payloadBit_congr rfl
  have hc : (((s.setEmpty s.size).withDst [] 0).withRdbits 0).payloadCapacity = s.payloadCapacity :=
    payloadCapacity_congr rfl
  by_cases h : s.size = 0
  · left
    refine ⟨h, ?_⟩
    unfold bunpackBody
    exact if_pos h
  · cases hr : s.root with
    | none =>
      right; left
      refine ⟨h, rfl, ?_⟩
      unfold bunpackBody
      simp only [withRdbits_size, withDst_size, setEmpty_size, withRdbits_root, withDst_root, setEmpty_root, hr]
      rw [if_neg h]
    | some root =>
      right; right
      refine ⟨root, h, rfl, ?_⟩
      unfold bunpackBody
      simp only [withRdbits_size, withDst_size, setEmpty_size, withRdbits_root, withDst_root, setEmpty_root, hr,
        withRdbits_tree, withDst_tree, setEmpty_tree, hb, hc]
      rw [if_neg h]

end Sys2Proof.Machine
end

