-- ==== Sys2Proof/Laws/Step.lean ====
section
/-! SUPPORT. What a command and a step can do, once: every command answers a next state, which is the end of its
pseudocode; and the four ways a step goes on. -/

namespace Sys2Proof.Machine

/-- The pseudocode of each command (R72). -/
def bodyOf : Instr → State → BodyEnd
  | .fcount, s => .done (fcountBody s)
  | .tbuild, s => .done (tbuildBody s)
  | .cgen, s => .done (cgenBody s)
  | .bpack, s => bpackBody s
  | .fembed, s => fembedBody s
  | .fextract, s => fextractBody s
  | .bunpack, s => bunpackBody s
  | .encode, s => encodeBody s
  | .decode, s => decodeBody s

/-- Accept, run the pseudocode, end (R36): on every state, for every command. -/
theorem exec_eq (i : Instr) (s : State) : exec i s = .next (finish (bodyOf i (accept s))) := by cases i <;> rfl

theorem exec_next_iff {i : Instr} {s t : State} : exec i s = .next t ↔ t = finish (bodyOf i (accept s)) := by
  rw [exec_eq]; simp [eq_comm]

@[simp] theorem finish_done (s : State) : finish (.done s) = complete s := rfl

@[simp] theorem finish_raised (e : ErrorKind) (s : State) : finish (.raised e s) = raiseError e s := rfl

@[simp] theorem andThen_done (s : State) (f : State → BodyEnd) : (BodyEnd.done s).andThen f = f s := rfl

@[simp] theorem andThen_raised (e : ErrorKind) (s : State) (f : State → BodyEnd) :
    (BodyEnd.raised e s).andThen f = .raised e s := rfl

/-- A host action that goes on is one that may happen now and is well formed. -/
theorem hostAct_next {a : HostAction} {s t : State} (h : hostAct a s = .next t) :
    ¬ (s.status.state = .busy ∧ allowedWhileBusy a = false) ∧ a.wf = true ∧ actOn a s = .next t := by
  unfold hostAct at h
  split at h
  · simp at h
  · rename_i h1
    split at h
    · simp at h
    · rename_i h2
      exact ⟨h1, by simpa using h2, h⟩

/-- The four ways a step answers a next state: a command ran; a reserved byte was refused by the block; the host
acted; or nothing was to be done. -/
theorem step_cases {s t : State} (h : step s = .next t) :
    (∃ c i, s.cmd = some c ∧ decode c = .ok i ∧ exec i { s with cmd := none } = .next t) ∨
    (∃ c e, s.cmd = some c ∧ decode c = .error e ∧ t = illegalCommand { s with cmd := none }) ∨
    (∃ a rest, s.cmd = none ∧ s.host = a :: rest ∧ hostAct a { s with host := rest } = .next t) ∨
    (s.cmd = none ∧ s.host = [] ∧ t = s) := by
  unfold step at h
  split at h
  · rename_i c hc
    unfold issue at h
    split at h
    · rename_i i hi; exact .inl ⟨c, i, hc, hi, h⟩
    · rename_i e he
      injection h with h
      exact .inr (.inl ⟨c, e, hc, he, h.symm⟩)
  · rename_i hc
    split at h
    · rename_i hh
      injection h with h
      exact .inr (.inr (.inr ⟨hc, hh, h.symm⟩))
    · rename_i a rest hh
      exact .inr (.inr (.inl ⟨a, rest, hc, hh, h⟩))

/-- An invariant holds of every state a step reaches if every command, the illegal command and every host action
keeps it. -/
theorem step_keeps {P : State → Prop}
    (cmd : ∀ i s t, P s → exec i { s with cmd := none } = .next t → P t)
    (illegal : ∀ s, P s → P (illegalCommand { s with cmd := none }))
    (act : ∀ a s rest t, P s → s.host = a :: rest → hostAct a { s with host := rest } = .next t → P t)
    {s t : State} (hs : P s) (h : step s = .next t) : P t := by
  rcases step_cases h with ⟨c, i, _, _, h⟩ | ⟨c, e, _, _, rfl⟩ | ⟨a, rest, _, hh, h⟩ | ⟨_, _, rfl⟩
  · exact cmd i s t hs h
  · exact illegal s hs
  · exact act a s rest t hs hh h
  · exact hs

end Sys2Proof.Machine
end

