-- ==== Sys2Proof/Laws/Walk.lean ====
section
/-! SUPPORT. The laws of the Tree Walker: what one step can give, and what the loop leaves when it ends, for any tree
(R145 to R149). -/

namespace Sys2Proof.Machine

/-- A step of the walker that emits a byte goes back to the root. -/
theorem walkBit_emit_root {t : Tree} {root cur nxt : NodeIdx} {b : Bit} {x : Byte}
    (h : walkBit t root cur b = some (nxt, some x)) : nxt = root := by
  unfold walkBit at h
  repeat' split at h
  all_goals simp_all

/-- In the degenerate tree the bit's value is ignored (R146). -/
theorem walkBit_degen {t : Tree} (h : t.kind = .degen) (root cur : NodeIdx) (b b' : Bit) :
    walkBit t root cur b = walkBit t root cur b' := by
  simp [walkBit, h]

/-- How the walker's loop ends, started at payload bit `p` with `need` bytes owed and `left` bits to read: finished
with exactly the bytes owed added; or every bit read and fewer bytes; or at a position without a node. -/
theorem walkLoop_cases (t : Tree) (root : NodeIdx) (bit : Nat → Bit) (left p : Nat) (cur : NodeIdx) (need : Nat)
    (dst : List Byte) :
    (∃ out q, walkLoop t root bit left p cur need dst = .finished (dst ++ out) q ∧ out.length = need ∧
      p ≤ q ∧ q ≤ p + left) ∨
    (∃ out, walkLoop t root bit left p cur need dst = .incomplete (dst ++ out) (p + left) ∧ out.length < need) ∨
    (∃ out q, walkLoop t root bit left p cur need dst = .invalid (dst ++ out) q ∧ out.length < need ∧
      p < q ∧ q ≤ p + left) := by
  induction left generalizing p cur need dst with
  | zero =>
    cases need with
    | zero => left; exact ⟨[], p, by simp [walkLoop], rfl, by omega, by omega⟩
    | succ need => right; left; exact ⟨[], by simp [walkLoop], by simp⟩
  | succ left ih =>
    cases need with
    | zero => left; exact ⟨[], p, by simp [walkLoop], rfl, by omega, by omega⟩
    | succ need =>
      simp only [walkLoop]
      rcases hw : walkBit t root cur (bit p) with _ | ⟨nxt, _ | x⟩
      · right; right; exact ⟨[], p + 1, by simp, by simp, by omega, by omega⟩
      · rcases ih (p + 1) nxt (need + 1) dst with ⟨out, q, h, hl, h1, h2⟩ | ⟨out, h, hl⟩ | ⟨out, q, h, hl, h1, h2⟩
        · left; exact ⟨out, q, h, hl, by omega, by omega⟩
        · right; left; exact ⟨out, by simp only [h]; congr 1; omega, hl⟩
        · right; right; exact ⟨out, q, h, hl, by omega, by omega⟩
      · rcases ih (p + 1) nxt need (dst ++ [x]) with ⟨out, q, h, hl, h1, h2⟩ | ⟨out, h, hl⟩ | ⟨out, q, h, hl, h1, h2⟩
        · left; exact ⟨x :: out, q, by simp [h], by simp [hl], by omega, by omega⟩
        · right; left
          refine ⟨x :: out, ?_, by simpa using hl⟩
          simp only [h, List.append_assoc, List.singleton_append]
          congr 1; omega
        · right; right; exact ⟨x :: out, q, by simp [h], by simpa using hl, by omega, by omega⟩

/-- The loop looks at no bit but those it reads: two bit sources that agree on the bits still in the carrier give the
same end. -/
theorem walkLoop_congr {t : Tree} {root : NodeIdx} {bit bit' : Nat → Bit} {left p : Nat}
    (h : ∀ q, p ≤ q → q < p + left → bit q = bit' q) (cur : NodeIdx) (need : Nat) (dst : List Byte) :
    walkLoop t root bit left p cur need dst = walkLoop t root bit' left p cur need dst := by
  induction left generalizing p cur need dst with
  | zero => cases need <;> rfl
  | succ left ih =>
    cases need with
    | zero => rfl
    | succ need =>
      simp only [walkLoop, h p (by omega) (by omega)]
      have ih' := fun cur need dst => ih (p := p + 1) (fun q h1 h2 => h q (by omega) (by omega)) cur need dst
      rcases walkBit t root cur (bit' p) with _ | ⟨nxt, _ | x⟩ <;> simp only [ih']

/-- Payload bits fit RDBITS: the carrier holds fewer than 2^32 bytes (R28). -/
theorem payloadCapacity_lt (s : State) : s.payloadCapacity < 2 ^ 32 := by
  have := s.cinLen.isLt
  simp only [State.payloadCapacity]; omega

end Sys2Proof.Machine
end

