-- ==== Sys2Proof/Laws/Capacity.lean ====
section
/-! SUPPORT. The laws of the capacities: what the limit lets through, that every state is within the default ones, and
that a walk emits at most SIZE bytes (R6, D17, U8). -/

namespace Sys2Proof.Machine

theorem within_iff (c : Config.Capacities) (t : State) : t.within c = true ↔
    t.srcLen.toNat ≤ c.src ∧ t.cinLen.toNat ≤ c.cin ∧ t.coutLen.toNat ≤ c.cout ∧ t.dstLen.toNat ≤ c.dst ∧
      t.pbits.toNat ≤ c.pay := by
  simp [State.within, and_assoc]

/-- No length register can exceed the default capacities (R6). -/
@[simp] theorem within_default (t : State) : t.within Config.defaultCapacities = true := by
  rw [within_iff]
  simp only [Config.defaultCapacities, Config.maxBytes]
  have := t.srcLen.isLt; have := t.cinLen.isLt; have := t.coutLen.isLt; have := t.dstLen.isLt; have := t.pbits.isLt
  omega

/-- The limit lets a next state through exactly when it is within the capacities, and a walk was. -/
theorem limit_eq_next {c : Config.Capacities} {n : Nat} {o : Host.Outcome State Fault Refusal} {t : State} :
    limit c n o = .next t ↔ o = .next t ∧ t.within c = true ∧ n ≤ c.dst := by
  cases o with
  | next u =>
    simp only [limit, Host.Outcome.next.injEq]
    by_cases h : u.within c = true ∧ n ≤ c.dst
    · rw [if_pos (by simpa using h), Host.Outcome.next.injEq]
      exact ⟨fun e => ⟨e, e ▸ h⟩, fun e => e.1⟩
    · rw [if_neg (by simpa using h)]
      constructor
      · intro e; cases e
      · rintro ⟨rfl, e⟩; exact absurd e h
  | fault f => simp [limit]
  | refused r => simp [limit]

/-- A next state that is not let through is refused. -/
theorem limit_next_refused {c : Config.Capacities} {n : Nat} {t : State} (h : ¬ (t.within c = true ∧ n ≤ c.dst)) :
    limit c n (.next t) = .refused .lengthBeyondCapacity := by
  simp only [limit]; rw [if_neg (by simpa using h)]

theorem length_ofBytes (bs : List Byte) : (Memory.ofBytes bs).cells.length = bs.length := by
  rw [← List.length_map (f := Prod.fst), map_fst_ofBytes, List.length_range]

/-- BUNPACK's pseudocode leaves at most SIZE bytes in DST, and never changes SIZE (R147). -/
theorem bunpackBody_emits (s : State) : (bunpackBody s).state.dst.cells.length ≤ s.size.toNat := by
  rcases bunpackBody_cases s with ⟨_, h⟩ | ⟨_, _, h⟩ | ⟨root, _, _, h⟩
  · simp [h, BodyEnd.state, length_ofBytes]
  · simp [h, BodyEnd.state, length_ofBytes]
  · rw [h]
    rcases walkLoop_cases s.tree root s.payloadBit s.payloadCapacity 0 root s.size.toNat [] with
      ⟨out, q, e, hl, _⟩ | ⟨out, e, hl⟩ | ⟨out, q, e, hl, _⟩ <;>
    · rw [e]; simp only [endWalk, BodyEnd.state, withDst_dst, length_ofBytes, List.nil_append]; omega

theorem bunpackBody_size (s : State) : (bunpackBody s).state.size = s.size := by
  rcases bunpackBody_cases s with ⟨_, h⟩ | ⟨_, _, h⟩ | ⟨root, _, _, h⟩
  · rw [h]; rfl
  · rw [h]; rfl
  · rw [h]; cases walkLoop s.tree root s.payloadBit s.payloadCapacity 0 root s.size.toNat [] <;> rfl

@[simp] theorem finish_size (r : BodyEnd) : (finish r).size = r.state.size := by
  cases r <;> simp [BodyEnd.state]

/-- DECODE's pseudocode leaves at most the SIZE it has read in DST (R184). -/
theorem decodeBody_emits (s : State) : (decodeBody s).state.dst.cells.length ≤ (decodeBody s).state.size.toNat := by
  have hd : ∀ x : State, x.dst = Memory.ofBytes [] → x.dst.cells.length ≤ x.size.toNat := by
    intro x hx; rw [hx, length_ofBytes]; exact Nat.zero_le _
  unfold decodeBody
  rcases fextractBody_cases ((s.withDst [] 0).withRdbits 0) with ⟨_, h⟩ | ⟨_, _, h⟩ | ⟨_, _, h⟩
  · rw [h, andThen_raised]; exact hd _ rfl
  · rw [h, andThen_done]
    split
    · exact hd _ rfl
    · rw [bunpackBody_size]; exact bunpackBody_emits _
  · rw [h, andThen_done]
    split
    · exact hd _ rfl
    · rw [bunpackBody_size]; exact bunpackBody_emits _

/-- What a command's walk emits is at most the SIZE it leaves (R147, R184). -/
theorem emittedBytes_le {i : Instr} {s t : State} (h : exec i s = .next t) : emittedBytes i s ≤ t.size.toNat := by
  rw [exec_next_iff] at h; subst h
  rw [finish_size]
  cases i <;> try exact Nat.zero_le _
  · simp only [emittedBytes, bodyOf, bunpackBody_size]; exact bunpackBody_emits _
  · exact decodeBody_emits _

end Sys2Proof.Machine
end

