-- ==== Sys2Proof/Laws/Codes.lean ====
section
/-! SUPPORT. The laws of the Code Table Generator and of paths in a tree: what the walk can record, and how a path
composes (R120, R121). -/

namespace Sys2Proof.Machine

theorem entry_set (code : CodeTable) (sym b : Byte) (x : Option (List Bit)) :
    CodeTable.entry (Vector.set code sym.toNat x (by omega)) b = if b = sym then x else code.entry b := by
  simp only [CodeTable.entry, Vector.getElem_set]
  by_cases h : b = sym
  · subst h; simp
  · rw [if_neg (fun hn => h (BitVec.eq_of_toNat_eq hn.symm)), if_neg h]

@[simp] theorem entry_absentCodes (b : Byte) : absentCodes.entry b = none := by
  simp [CodeTable.entry, absentCodes]

@[simp] theorem follow_nil (t : NodeTable) (i : NodeIdx) : t.follow i [] = some i := rfl

theorem follow_cons (t : NodeTable) (i : NodeIdx) (b : Bit) (bs : List Bit) :
    t.follow i (b :: bs) = (t.child i b).bind fun j => t.follow j bs := by
  simp only [NodeTable.follow]
  cases t.child i b <;> rfl

theorem follow_append (t : NodeTable) (i : NodeIdx) (p q : List Bit) :
    t.follow i (p ++ q) = (t.follow i p).bind fun j => t.follow j q := by
  induction p generalizing i with
  | nil => rfl
  | cons b p ih =>
    rw [List.cons_append, follow_cons, follow_cons]
    cases t.child i b with
    | none => rfl
    | some j => exact ih j

theorem child_of_leaf {t : NodeTable} {i : NodeIdx} {sym : Byte} {f : Wide} (h : t.entry i = some (.leaf sym f))
    (b : Bit) : t.child i b = none := by
  cases b <;> simp [NodeTable.child, h, Node.left, Node.right]

theorem child_of_internal {t : NodeTable} {i : NodeIdx} {f : Wide} {l r : Option NodeIdx}
    (h : t.entry i = some (.internal f l r)) : t.child i false = l ∧ t.child i true = r := by
  simp [NodeTable.child, h, Node.left, Node.right]

/-- The walk below node `i`, in terms of the children of `i`. -/
theorem walkCodes_internal {t : NodeTable} {i : NodeIdx} {f : Wide} {l r : Option NodeIdx}
    (h : t.entry i = some (.internal f l r)) (depth : Nat) (path : List Bit) (code : CodeTable) :
    walkCodes t (depth + 1) i path code =
      r.elim (l.elim code fun j => walkCodes t depth j (path ++ [false]) code)
        fun j => walkCodes t depth j (path ++ [true]) (l.elim code fun j => walkCodes t depth j (path ++ [false]) code) := by
  cases l <;> cases r <;> simp [walkCodes, h]

/-- Whatever the walk records for a byte is the path from the root to a leaf of that byte; every other entry keeps
its value. -/
theorem walkCodes_entry (t : NodeTable) (depth : Nat) (i : NodeIdx) (path : List Bit) (code : CodeTable) (b : Byte) :
    (walkCodes t depth i path code).entry b = code.entry b ∨
    ∃ p j f, t.follow i p = some j ∧ t.entry j = some (.leaf b f) ∧
      (walkCodes t depth i path code).entry b = some (path ++ p) := by
  induction depth generalizing i path code with
  | zero => left; rfl
  | succ depth ih =>
    rcases hi : t.entry i with _ | ⟨sym, f⟩ | ⟨f, l, r⟩
    · left; simp [walkCodes, hi]
    · have hw : walkCodes t (depth + 1) i path code = code.set sym.toNat (some path) := by simp [walkCodes, hi]
      by_cases hb : b = sym
      · right; subst hb
        exact ⟨[], i, f, rfl, hi, by rw [hw, entry_set]; simp⟩
      · left; rw [hw, entry_set, if_neg hb]
    · obtain ⟨hl, hr⟩ := child_of_internal hi
      have side : ∀ (c : Option NodeIdx) (d : Bit) (code' : CodeTable), t.child i d = c →
          (c.elim code' fun j => walkCodes t depth j (path ++ [d]) code').entry b = code'.entry b ∨
          ∃ p j f, t.follow i p = some j ∧ t.entry j = some (.leaf b f) ∧
            (c.elim code' fun j => walkCodes t depth j (path ++ [d]) code').entry b = some (path ++ p) := by
        intro c d code' hc
        cases c with
        | none => left; rfl
        | some j =>
          rcases ih j (path ++ [d]) code' with h | ⟨p, k, g, h1, h2, h3⟩
          · exact .inl h
          · refine .inr ⟨d :: p, k, g, ?_, h2, by simpa using h3⟩
            rw [follow_cons, hc]; exact h1
      rw [walkCodes_internal hi]
      rcases side r true (l.elim code fun j => walkCodes t depth j (path ++ [false]) code) hr with h | h
      · rcases side l false code hl with h' | ⟨p, k, g, h1, h2, h3⟩
        · exact .inl (h.trans h')
        · exact .inr ⟨p, k, g, h1, h2, h.trans h3⟩
      · exact .inr h

end Sys2Proof.Machine
end

