-- ==== Sys2Proof/Laws/Pack.lean ====
section
/-! SUPPORT. The laws of the Bit Packer: when the sizing pass finds a total and which one, and that the packing pass
has that length (R131 to R134). -/

namespace Sys2Proof.Machine

/-- Either every byte has a code, and the sizing pass gives the sum of the lengths, or it finds a byte without one. -/
theorem sizePass_cases (code : CodeTable) (bs : List Byte) (n : Nat) :
    ((∀ b ∈ bs, code.entry b ≠ none) ∧ sizePass code bs n = some (n + (packPass code bs).length)) ∨
    ((∃ b ∈ bs, code.entry b = none) ∧ sizePass code bs n = none) := by
  induction bs generalizing n with
  | nil => left; simp [sizePass, packPass]
  | cons b bs ih =>
    cases hb : code.entry b with
    | none => right; exact ⟨⟨b, by simp, hb⟩, by simp [sizePass, hb]⟩
    | some c =>
      rcases ih (n + c.length) with ⟨h1, h2⟩ | ⟨⟨x, hx, hx'⟩, h2⟩
      · left
        refine ⟨?_, ?_⟩
        · intro x hx
          rcases List.mem_cons.mp hx with rfl | hx
          · simp [hb]
          · exact h1 x hx
        · simp only [sizePass, hb, h2, packPass, List.flatMap_cons, List.length_append, Option.getD_some]
          congr 1; omega
      · right
        exact ⟨⟨x, by simp [hx], hx'⟩, by simp [sizePass, hb, h2]⟩

theorem sizePass_of_coded {code : CodeTable} {bs : List Byte} (h : ∀ b ∈ bs, code.entry b ≠ none) :
    sizePass code bs 0 = some (packPass code bs).length := by
  rcases sizePass_cases code bs 0 with ⟨_, h2⟩ | ⟨⟨x, hx, hx'⟩, _⟩
  · simpa using h2
  · exact absurd hx' (h x hx)

theorem sizePass_of_missing {code : CodeTable} {bs : List Byte} (h : ∃ b ∈ bs, code.entry b = none) :
    sizePass code bs 0 = none := by
  rcases sizePass_cases code bs 0 with ⟨h1, _⟩ | ⟨_, h2⟩
  · obtain ⟨x, hx, hx'⟩ := h; exact absurd hx' (h1 x hx)
  · exact h2

/-- The number of payload bits is at most `n` per byte when no code is longer than `n` (R136). -/
theorem length_packPass_le {code : CodeTable} {n : Nat} (h : ∀ b x, code.entry b = some x → x.length ≤ n)
    (bs : List Byte) : (packPass code bs).length ≤ n * bs.length := by
  induction bs with
  | nil => simp [packPass]
  | cons b bs ih =>
    have hb : ((code.entry b).getD []).length ≤ n := by
      cases hc : code.entry b with
      | none => simp
      | some x => simpa using h b x hc
    simp only [packPass, List.flatMap_cons, List.length_append, List.length_cons] at ih ⊢
    rw [Nat.mul_succ]; omega

/-- What BPACK's pseudocode does: it packs when every byte has a code, and raises MissingCode with an empty payload
when one has none. -/
theorem bpackBody_cases (s : State) :
    ((∀ b ∈ s.srcBytes, s.code.entry b ≠ none) ∧
      bpackBody s = .done ((s.withPay [] 0).withPay (packPass s.code s.srcBytes) (packPass s.code s.srcBytes).length)) ∨
    ((∃ b ∈ s.srcBytes, s.code.entry b = none) ∧ bpackBody s = .raised .missingCode (s.withPay [] 0)) := by
  have hs : (s.withPay [] 0).srcBytes = s.srcBytes := rfl
  rcases sizePass_cases s.code s.srcBytes 0 with ⟨h1, h2⟩ | ⟨h1, h2⟩
  · exact .inl ⟨h1, by simp [bpackBody, hs, h2]⟩
  · exact .inr ⟨h1, by simp [bpackBody, hs, h2]⟩

end Sys2Proof.Machine
end

