-- ==== Sys2Proof/Laws/PerInstr.lean ====
section
/-! SUPPORT. Statements about each command as syntax, one lemma per constructor (LAWS.json: CommandByte). -/

namespace Sys2Proof.Laws.CommandByte

/-- The command's byte has RSV 0000 and an OP value of the opcode map (30_encoding.md R70, R72). -/
def Statement (i : Instr) : Prop := (splitWord (encode i)).wf = true ∧ i.wf = true

theorem fcount : Statement .fcount := by unfold Statement; decide
theorem tbuild : Statement .tbuild := by unfold Statement; decide
theorem cgen : Statement .cgen := by unfold Statement; decide
theorem bpack : Statement .bpack := by unfold Statement; decide
theorem fembed : Statement .fembed := by unfold Statement; decide
theorem fextract : Statement .fextract := by unfold Statement; decide
theorem bunpack : Statement .bunpack := by unfold Statement; decide
theorem encode : Statement .encode := by unfold Statement; decide
theorem decode : Statement .decode := by unfold Statement; decide

end Sys2Proof.Laws.CommandByte
end

