-- ==== Sys2Proof/Laws/Tree.lean ====
section
/-! SUPPORT. The laws of the frequency counter and the Tree Builder: the counters, ExtractMin, the leaves, one merge
and the three forms of the result (R101, R104 to R109). -/

namespace Sys2Proof.Machine

/-! ### Counting (R101) -/

/-- One count: the counter of the byte goes up by one, modulo 2^32, and no other changes. -/
theorem getElem_countByte (f : FreqTable) (b c : Byte) :
    (countByte f b)[c.toNat] = if c = b then f[c.toNat] + 1 else f[c.toNat] := by
  simp only [countByte, Vector.getElem_set]
  by_cases h : c = b
  · subst h; simp
  · rw [if_neg (fun hn => h (BitVec.eq_of_toNat_eq hn.symm)), if_neg h]

/-- The counters after a byte sequence, modulo 2^32. -/
theorem getElem_foldl_countByte (bs : List Byte) (f : FreqTable) (c : Byte) :
    (bs.foldl countByte f)[c.toNat] = f[c.toNat] + BitVec.ofNat 32 (bs.count c) := by
  induction bs generalizing f with
  | nil => simp
  | cons b bs ih =>
    rw [List.foldl_cons, ih, getElem_countByte, List.count_cons]
    by_cases h : c = b
    · subst h; simp [BitVec.ofNat_add]; ac_rfl
    · simp [h, Ne.symm h]

/-! ### ExtractMin (R107) -/

/-- `a` is extracted no later than `b`. -/
def Key.Le (a b : Key) : Prop := a.f < b.f ∨ (a.f = b.f ∧ a.i ≤ b.i)

theorem Key.before_iff (a b : Key) : a.before b = true ↔ a.f < b.f ∨ (a.f = b.f ∧ a.i < b.i) := by
  simp [Key.before]

theorem Key.le_refl (a : Key) : a.Le a := .inr ⟨rfl, Fin.le_refl _⟩

theorem Key.le_trans {a b c : Key} (h1 : a.Le b) (h2 : b.Le c) : a.Le c := by
  simp only [Key.Le, BitVec.lt_def, Fin.le_def, BitVec.toNat_eq] at *
  omega

theorem Key.min_le (a b : Key) : (Key.min a b).Le a ∧ (Key.min a b).Le b := by
  unfold Key.min
  split
  · rename_i h
    rw [Key.before_iff] at h
    refine ⟨?_, Key.le_refl b⟩
    simp only [Key.Le, BitVec.lt_def, Fin.le_def, Fin.lt_def, BitVec.toNat_eq] at *
    omega
  · rename_i h
    rw [Key.before_iff] at h
    refine ⟨Key.le_refl a, ?_⟩
    simp only [Key.Le, BitVec.lt_def, Fin.le_def, Fin.lt_def, BitVec.toNat_eq] at *
    omega

theorem Key.min_eq_or (a b : Key) : Key.min a b = a ∨ Key.min a b = b := by
  unfold Key.min; split <;> simp

theorem foldl_min_spec (k : Key) (ks : List Key) :
    ks.foldl Key.min k ∈ k :: ks ∧ ∀ x ∈ k :: ks, (ks.foldl Key.min k).Le x := by
  induction ks generalizing k with
  | nil => simp [Key.le_refl]
  | cons a ks ih =>
    obtain ⟨h1, h2⟩ := ih (Key.min k a)
    rw [List.foldl_cons]
    refine ⟨?_, ?_⟩
    · rcases List.mem_cons.mp h1 with h | h
      · rw [h]; rcases Key.min_eq_or k a with h | h <;> simp [h]
      · simp [h]
    · intro x hx
      have hm := h2 _ (List.mem_cons_self ..)
      rcases List.mem_cons.mp hx with rfl | hx
      · exact Key.le_trans hm (Key.min_le x a).1
      · rcases List.mem_cons.mp hx with rfl | hx
        · exact Key.le_trans hm (Key.min_le k x).2
        · exact h2 x (by simp [hx])

/-- ExtractMin gives an element of least key, and the rest. -/
theorem extractMin_some {q q' : List Key} {k : Key} (h : extractMin q = some (k, q')) :
    k ∈ q ∧ q' = q.erase k ∧ ∀ x ∈ q, k.Le x := by
  cases q with
  | nil => simp [extractMin] at h
  | cons a as =>
    simp only [extractMin, Option.some.injEq, Prod.mk.injEq] at h
    obtain ⟨rfl, rfl⟩ := h
    exact ⟨(foldl_min_spec a as).1, rfl, (foldl_min_spec a as).2⟩

theorem extractMin_cons (a : Key) (as : List Key) : ∃ k q', extractMin (a :: as) = some (k, q') := ⟨_, _, rfl⟩

theorem length_extractMin {q q' : List Key} {k : Key} (h : extractMin q = some (k, q')) :
    q'.length + 1 = q.length := by
  obtain ⟨hk, rfl, _⟩ := extractMin_some h
  rw [List.length_erase_of_mem hk]
  have := List.length_pos_of_mem hk; omega

/-! ### Leaves (R104) -/

theorem leafArena_entry (f : FreqTable) (i : NodeIdx) :
    (leafArena f).entry i =
      if h : i.val < 256 then
        if f[i.val] = 0 then none else some (.leaf (BitVec.ofNat 8 i.val) ((f[i.val]).setWidth 40))
      else none := by
  simp [NodeTable.entry, leafArena, leafFreq]

theorem mem_leafQueue (f : FreqTable) (k : Key) :
    k ∈ leafQueue f ↔ ∃ h : k.i.val < 256, f[k.i.val] ≠ 0 ∧ k.f = (f[k.i.val]).setWidth 40 := by
  simp only [leafQueue, List.mem_filterMap, List.mem_finRange, true_and, leafFreq]
  constructor
  · rintro ⟨b, hb⟩
    split at hb
    · simp at hb
    · rename_i h0
      obtain rfl := (Option.some.inj hb).symm
      exact ⟨b.isLt, h0, rfl⟩
  · rintro ⟨h, h0, hf⟩
    refine ⟨⟨k.i.val, h⟩, ?_⟩
    rw [if_neg h0]
    obtain ⟨kf, ki⟩ := k
    simp only at hf ⊢
    rw [hf]

/-! ### One merge (R108, R109) -/

/-- One iteration: the two least keys leave the queue, a new internal node joins them, the least on the left. -/
theorem mergeStep_some {slot : NodeIdx} {m m' : Merge} (h : mergeStep slot m = some m') :
    ∃ a c q1 q2, extractMin m.queue = some (a, q1) ∧ extractMin q1 = some (c, q2) ∧
      m'.queue = { f := a.f + c.f, i := slot } :: q2 ∧
      ∀ i, m'.node.entry i =
        if i = slot then some (.internal (a.f + c.f) (some a.i) (some c.i)) else m.node.entry i := by
  unfold mergeStep at h
  split at h
  · simp at h
  · rename_i a q1 h1
    split at h
    · simp at h
    · rename_i c q2 h2
      obtain rfl := (Option.some.inj h).symm
      refine ⟨a, c, q1, q2, h1, h2, rfl, fun i => ?_⟩
      simp only [NodeTable.entry, Vector.getElem_set, Fin.ext_iff, eq_comm (a := slot.val)]

/-- The merge loop goes on exactly while two elements are left. -/
theorem mergeStep_none_iff (slot : NodeIdx) (m : Merge) : mergeStep slot m = none ↔ m.queue.length < 2 := by
  unfold mergeStep
  split
  · rename_i h
    cases hq : m.queue with
    | nil => simp
    | cons a as => simp [hq, extractMin] at h
  · rename_i a q1 h1
    have hl := length_extractMin h1
    split
    · rename_i h2
      cases q1 with
      | nil => simp at hl; simp [← hl]
      | cons b bs => simp [extractMin] at h2
    · rename_i c q2 h2
      have := length_extractMin h2
      simp; omega

/-! ### The three forms of the result (R105, R106, R108) -/

theorem buildTree_cases (f : FreqTable) :
    (leafQueue f = [] ∧ buildTree f = { node := leafArena f, root := none, kind := .empty }) ∨
    (∃ k, leafQueue f = [k] ∧ buildTree f =
      { node := (leafArena f).set 256 (some (.internal k.f (some k.i) none)), root := some 256, kind := .degen }) ∨
    (2 ≤ (leafQueue f).length ∧ buildTree f =
      { node := (mergeLoop internalSlots { node := leafArena f, queue := leafQueue f }).node,
        root := (mergeLoop internalSlots { node := leafArena f, queue := leafQueue f }).queue.head?.map Key.i,
        kind := .full }) := by
  rcases hq : leafQueue f with _ | ⟨k, _ | ⟨k', ks⟩⟩
  · left; exact ⟨rfl, by simp [buildTree, hq]⟩
  · right; left; exact ⟨k, rfl, by simp [buildTree, hq]⟩
  · right; right; exact ⟨by simp, by simp [buildTree, hq]⟩

/-! ### The degenerate table (R106) -/

/-- No leaf is placed twice. -/
theorem nodup_leafQueue (f : FreqTable) : (leafQueue f).Nodup := by
  refine List.Nodup.filterMap ?_ (List.nodup_finRange 256)
  intro a b k ha hb
  simp only [Option.mem_def] at ha hb
  split at ha <;> simp at ha
  split at hb <;> simp at hb
  subst ha
  simpa [Fin.ext_iff] using (congrArg Key.i hb).symm

/-- A table with one nonzero entry starts the priority structure with its one leaf (R106). -/
theorem leafQueue_single {f : FreqTable} {b : Fin 256} (hb : f[b.val] ≠ 0) (h : ∀ c : Fin 256, c ≠ b → f[c.val] = 0) :
    leafQueue f = [{ f := (f[b.val]).setWidth 40, i := ⟨b.val, by omega⟩ }] := by
  refine List.perm_singleton.mp ((List.perm_ext_iff_of_nodup (nodup_leafQueue f) (by simp)).2 fun k => ?_)
  rw [mem_leafQueue, List.mem_singleton]
  constructor
  · rintro ⟨hi, h0, hf⟩
    have hk : (⟨k.i.val, hi⟩ : Fin 256) = b := by
      by_contra hn; exact h0 (h _ hn)
    subst hk
    cases k; simp_all
  · rintro rfl; exact ⟨b.isLt, hb, rfl⟩

/-- The degenerate tree (R106). -/
theorem buildTree_single {f : FreqTable} {b : Fin 256} (hb : f[b.val] ≠ 0) (h : ∀ c : Fin 256, c ≠ b → f[c.val] = 0) :
    buildTree f =
      { node := (leafArena f).set 256 (some (.internal ((f[b.val]).setWidth 40) (some ⟨b.val, by omega⟩) none)),
        root := some 256, kind := .degen } := by
  unfold buildTree; rw [leafQueue_single hb h]
end Sys2Proof.Machine
end

