-- ==== Sys2Proof/Tests/Slice0.lean ====
section
/-! SUPPORT. Tests of one step each, with expected values from spec/95_test_vectors.md and the worked examples of the
command rules; the smoke tests of WellFormed; and, for every statement that has hypotheses, a state that meets them
(theorems named witness_). -/

namespace Sys2Proof.Tests

open Sys2Proof Sys2Proof.Machine

-- one theorem at a time, which keeps the memory of the whole compile low
set_option Elab.async false

/-! ### Ill-formed terms are refused, one for each check of WellFormed -/

theorem test_wf_rsv_refused : CmdWord.rsvOk { rsv := 1, op := 1 } = false := by decide
theorem test_wf_op_zero_refused : CmdWord.opOk { rsv := 0, op := 0 } = false := by decide
theorem test_wf_op_ten_refused : CmdWord.opOk { rsv := 0, op := 10 } = false := by decide
theorem test_wf_word_refused : CmdWord.wf { rsv := 0xF, op := 0xF } = false := by decide
/-- A load of 2^32 bytes or more is ill formed. -/
theorem wf_load_refused (f : List Byte → HostAction)
    (hf : ∀ bs, (f bs).wf = decide (bs.length ≤ 2 ^ 32 - 1)) (bs : List Byte) (h : bs.length = 2 ^ 32) :
    (f bs).wf = false := by
  rw [hf, decide_eq_false_iff_not]; omega
theorem test_wf_load_src_refused : HostAction.wf (.loadSrc (List.replicate (2 ^ 32) 0)) = false := by
  refine wf_load_refused (fun bs => .loadSrc bs) (fun bs => rfl) _ ?_
  rw [List.length_replicate]
theorem test_wf_load_cin_refused : HostAction.wf (.loadCin (List.replicate (2 ^ 32) 0)) = false := by
  refine wf_load_refused (fun bs => .loadCin bs) (fun bs => rfl) _ ?_
  rw [List.length_replicate]
theorem test_wf_word_accepted : CmdWord.wf { rsv := 0, op := 9 } = true := by decide

/-! ### Decoding: words written out from 30_encoding.md R70 and R72 -/

theorem test_decode_fcount : decode 0b00000001 = .ok .fcount := by decide
theorem test_decode_tbuild : decode 0b00000010 = .ok .tbuild := by decide
theorem test_decode_cgen : decode 0b00000011 = .ok .cgen := by decide
theorem test_decode_bpack : decode 0b00000100 = .ok .bpack := by decide
theorem test_decode_fembed : decode 0b00000101 = .ok .fembed := by decide
theorem test_decode_fextract : decode 0b00000110 = .ok .fextract := by decide
theorem test_decode_bunpack : decode 0b00000111 = .ok .bunpack := by decide
theorem test_decode_encode : decode 0b00001000 = .ok .encode := by decide
theorem test_decode_decode : decode 0b00001001 = .ok .decode := by decide
theorem test_decode_zero_reserved : decode 0b00000000 = .error .unusedOp := by decide
theorem test_decode_ten_reserved : decode 0b00001010 = .error .unusedOp := by decide
theorem test_decode_fifteen_reserved : decode 0b00001111 = .error .unusedOp := by decide
theorem test_decode_rsv_reserved : decode 0b00010001 = .error .rsvNotZero := by decide
theorem test_decode_high_rsv_reserved : decode 0b10000001 = .error .rsvNotZero := by decide
theorem test_table_word : decodeTableWord 8 9 = some .decode := by decide
theorem test_table_word_refused : decodeTableWord 8 0x19 = none := by decide

/-! ### Helpers: small states -/

/-- The next state of an outcome. -/
def after (o : Host.Outcome State Fault Refusal) : Option State :=
  match o with
  | .next s => some s
  | .fault _ => none
  | .refused _ => none

/-- Does the outcome answer a next state with this property? -/
def gives (o : Host.Outcome State Fault Refusal) (p : State → Bool) : Bool := (after o).elim false p

theorem gives_next {o : Host.Outcome State Fault Refusal} {p : State → Bool} (h : gives o p = true) :
    ∃ t, o = .next t ∧ p t = true := by
  cases o with
  | next t => exact ⟨t, rfl, h⟩
  | fault f => simp [gives, after] at h
  | refused r => simp [gives, after] at h

/-- The reset state with FREQ entries set by the host. -/
def freqs (l : List (Byte × Word)) : State := l.foldl (fun s e => setFreq e.1 e.2 s) State.reset

/-- The reset state with SRC loaded. -/
def file (bs : List Byte) : State := loadSrc bs State.reset

/-- A state with a few bytes of CIN written and CIN_LEN declared. -/
def carrier (cells : List Host.Cell) (n : Word) (s : State) : State := { s with cin := { cells := cells, epoch := 0 }, cinLen := n }

/-- The tree T1 of 95_test_vectors.md: 0x42 left, 0x41 right. -/
def pairNodes : NodeTable :=
  (((Vector.replicate 511 none).set 0x41 (some (.leaf 0x41 2))).set 0x42 (some (.leaf 0x42 1))).set 256
    (some (.internal 3 (some 0x42) (some 0x41)))

/-- The reset state with the tree T1. -/
def pairState : State := { State.reset with node := pairNodes, root := some 256, tkind := .full }

/-- The tree of FREQ[0x5A] = 4 (vector U6). -/
def soleNodes : NodeTable :=
  ((Vector.replicate 511 none).set 0x5A (some (.leaf 0x5A 4))).set 256 (some (.internal 4 (some 0x5A) none))

/-- The reset state with that tree. -/
def soleState : State := { State.reset with node := soleNodes, root := some 256, tkind := .degen }

/-- The code table G1 of 95_test_vectors.md. -/
def pairCodes : CodeTable := ((Vector.replicate 256 none).set 0x41 (some [true])).set 0x42 (some [false])

/-- Thirty-two carrier bytes from address 54 on whose bit 0 spells a size field of 3 (vector F1). -/
def sizeThree : List Host.Cell := Memory.cellsFrom 54 (List.replicate 30 0xFE ++ [0xFF, 0xFF])

/-- Thirty-two carrier bytes from address 54 on with bit 0 clear (vector F7). -/
def sizeZero : List Host.Cell := Memory.cellsFrom 54 (List.replicate 32 0x10)

/-! ### One command each -/

/-- Vector C6. -/
theorem test_fcount_counts : gives (exec .fcount (file [0x00, 0xFF, 0xFF])) (fun t =>
    t.freq[0] == 1 && t.freq[255] == 2 && t.freq[1] == 0 && t.size == 3 && t.status.word == 0x02) = true := by
  decide +kernel

/-- Vector C2. -/
theorem test_fcount_empty : gives (exec .fcount (file [])) (fun t =>
    t.size == 0 && t.status.word == 0x42) = true := by
  decide +kernel

/-- Vector T4: at frequency 2 the leaves 0x62, 0x72 precede the internal node 256. -/
theorem test_tbuild_ties : gives (exec .tbuild (freqs [(0x61, 5), (0x62, 2), (0x63, 1), (0x64, 1), (0x72, 2)])) (fun t =>
    t.node[256] == some (.internal 2 (some 0x63) (some 0x64)) &&
    t.node[257] == some (.internal 4 (some 0x62) (some 0x72)) &&
    t.node[258] == some (.internal 6 (some 256) (some 257)) &&
    t.node[259] == some (.internal 11 (some 0x61) (some 258)) &&
    t.root == some 259 && t.tkind == .full) = true := by
  decide +kernel

/-- Vector G1. -/
theorem test_cgen_pair : gives (exec .cgen pairState) (fun t =>
    t.code[0x42] == some [false] && t.code[0x41] == some [true] && t.code[0x43] == none) = true := by
  decide +kernel

/-- Vector G3: the degenerate tree's one code is 0. -/
theorem test_cgen_degenerate : gives (exec .cgen soleState) (fun t =>
    t.code[0x5A] == some [false] && t.code[0x41] == none) = true := by
  decide +kernel

/-- Vector P1 (S1): three payload bits. -/
theorem test_bpack_packs : gives (exec .bpack { file [0x41, 0x41, 0x42] with code := pairCodes }) (fun t =>
    t.pay == [true, true, false] && t.pbits == 3 && t.status.word == 0x02) = true := by
  decide +kernel

/-- Vector P6: 0x43 has no code. -/
theorem test_bpack_missing : gives (exec .bpack { file [0x41, 0x43] with code := pairCodes }) (fun t =>
    t.pay == [] && t.pbits == 0 && t.status.word == 0x0B) = true := by
  decide +kernel

/-- Vector F1: a size of 3 in a carrier of 0xFF bytes. -/
theorem test_fembed_size_field : gives
    (exec .fembed (carrier [(83, 0xFF), (84, 0xFF), (85, 0xFF)] 8278 { State.reset with size := 3 })) (fun t =>
    t.cout.read 83 == 0xFE && t.cout.read 84 == 0xFF && t.cout.read 85 == 0xFF && t.coutLen == 8278) = true := by
  decide +kernel

/-- Vector F3: one byte short of the capacity for three payload bits. -/
theorem test_fembed_capacity : gives
    (exec .fembed (carrier [] 8280 { State.reset with size := 3, pay := [true, true, false], pbits := 3 })) (fun t =>
    t.coutLen == 0 && t.status.word == 0x07) = true := by
  decide +kernel

/-- The example of R169: a size field of thirty 0s then 1, 1. -/
theorem test_fextract_size : gives (exec .fextract (carrier sizeThree 8278 State.reset)) (fun t =>
    t.size == 3 && t.status.word == 0x02) = true := by
  decide +kernel

/-- Vector F6: the same carrier one byte short of the whole table. -/
theorem test_fextract_corrupt : gives (exec .fextract (carrier sizeThree 8277 State.reset)) (fun t =>
    t.size == 0 && t.status.word == 0x0F) = true := by
  decide +kernel

/-- Vector U1. -/
theorem test_bunpack_pair : gives
    (exec .bunpack (carrier [(8278, 1), (8279, 1), (8280, 0)] 8281 { pairState with size := 3 })) (fun t =>
    t.dstBytes == [0x41, 0x41, 0x42] && t.rdbits == 3 && t.status.word == 0x02) = true := by
  decide +kernel

/-- Vector U7: the degenerate walk, bits of either value, the carrier one bit short. -/
theorem test_bunpack_incomplete : gives
    (exec .bunpack (carrier [(8278, 0), (8279, 1), (8280, 1)] 8281 { soleState with size := 4 })) (fun t =>
    t.dstLen == 0 && t.rdbits == 3 && t.status.word == 0x13) = true := by
  decide +kernel

/-- Vector E1, the registers: ENCODE of S1. -/
theorem test_encode_registers : gives (exec .encode (carrier [] 8281 (file [0x41, 0x41, 0x42]))) (fun t =>
    t.pay == [true, true, false] && t.pbits == 3 && t.coutLen == 8281 && t.root == some 256 &&
    t.status.word == 0x02) = true := by
  decide +kernel

/-- Vector E3: the empty file in a carrier one byte too small. -/
theorem test_encode_empty_short : gives (exec .encode (carrier [] 8277 (file []))) (fun t =>
    t.coutLen == 0 && t.status.word == 0x47) = true := by
  decide +kernel

/-- Vectors F7 and E3: DECODE of an empty-file image keeps the tree and empties DST. -/
theorem test_decode_empty : gives (exec .decode (carrier sizeZero 86 { pairState with dstLen := 7, rdbits := 9 })) (fun t =>
    t.dstLen == 0 && t.rdbits == 0 && t.size == 0 && t.root == some 256 && t.status.word == 0x42) = true := by
  decide +kernel

/-- Vector E5: a carrier of 85 bytes. -/
theorem test_decode_corrupt : gives (exec .decode (carrier sizeThree 85 State.reset)) (fun t =>
    t.dstLen == 0 && t.status.word == 0x0F) = true := by
  decide +kernel

/-- R53: a byte written at SRC_LEN is not in SRC. R64, R232: the length write that takes it in makes it content. -/
theorem test_poke_beyond : let s := pokeSrc 2 9 (file [4, 5])
    s.src == (file [4, 5]).src ∧ (setSrcLen 3 s).srcBytes = [4, 5, 9] ∧ (setSrcLen 3 s).srcStaged = [] := by decide

/-- R42: a byte below SRC_LEN is written. R53: a shorter SRC_LEN takes it out of SRC; R64: the write is not dropped. -/
theorem test_poke_below : let s := setSrcLen 1 (pokeSrc 1 9 (file [4, 5]))
    s.src.cells = [((0 : Nat), (4 : Byte))] ∧ (setSrcLen 2 s).srcBytes = [4, 9] := by decide

/-- 95_test_vectors.md 2.8: the byte 0x10 from the reset state. -/
theorem test_illegal_command : gives (step (State.reset.withFetchWord 8 0x10)) (fun t =>
    t.status.word == 0x1B && t.cmd == none) = true := by
  decide +kernel

/-- PRG6's first two lines: an illegal byte, then a STATUS read. -/
theorem test_status_read : gives (Host.Core.run core 3 { State.reset with host := [.writeCmd 0, .read .status] }) (fun t =>
    t.readData == some (.status 0x1B)) = true := by
  decide +kernel

/-! ### Capacities of one's own (R6, D17, U8) -/

/-- Capacities of two bytes for every memory but CIN and COUT. -/
def small : Config.Capacities := { Config.defaultCapacities with src := 2, dst := 2, pay := 2 }

/-- Is the outcome the refusal of a length beyond a capacity? -/
def beyond (o : Host.Outcome State Fault Refusal) : Bool :=
  match o with
  | .next _ => false
  | .fault _ => false
  | .refused r => r == .lengthBeyondCapacity

/-- A file as long as SRC runs, one byte more is refused. -/
theorem test_capacity_load :
    gives (stepWithin small { State.reset with host := [.loadSrc [1, 2]] }) (fun t => t.srcLen == 2) = true ∧
    beyond (stepWithin small { State.reset with host := [.loadSrc [1, 2, 3]] }) = true := by
  decide +kernel

/-- Vector U7 has the walker emit three bytes before it ends IncompleteStream: DST holds two. -/
theorem test_capacity_walk :
    beyond (execWithin small .bunpack (carrier [(8278, 0), (8279, 1), (8280, 1)] 8281 { soleState with size := 4 })) =
      true := by
  decide +kernel

/-! ### Small trees that meet the invariants of R32 -/

theorem pair_entry (i : NodeIdx) : pairNodes.entry i =
    if i = 256 then some (.internal 3 (some 0x42) (some 0x41))
    else if i = 0x42 then some (.leaf 0x42 1) else if i = 0x41 then some (.leaf 0x41 2) else none := by
  have h256 : i = 256 ↔ 256 = i.val := by simp [Fin.ext_iff, eq_comm]
  have h42 : i = 0x42 ↔ 0x42 = i.val := by simp [Fin.ext_iff, eq_comm]
  have h41 : i = 0x41 ↔ 0x41 = i.val := by simp [Fin.ext_iff, eq_comm]
  simp only [NodeTable.entry, pairNodes, Vector.getElem_set, Vector.getElem_replicate, h256, h42, h41]

theorem pair_child (i : NodeIdx) (b : Bit) : pairNodes.child i b =
    if i = 256 then (if b then some 0x41 else some 0x42) else none := by
  simp only [NodeTable.child, pair_entry]
  split_ifs <;> simp_all [Node.left, Node.right]

theorem sole_entry (i : NodeIdx) : soleNodes.entry i =
    if i = 256 then some (.internal 4 (some 0x5A) none) else if i = 0x5A then some (.leaf 0x5A 4) else none := by
  have h256 : i = 256 ↔ 256 = i.val := by simp [Fin.ext_iff, eq_comm]
  have h5a : i = 0x5A ↔ 0x5A = i.val := by simp [Fin.ext_iff, eq_comm]
  simp only [NodeTable.entry, soleNodes, Vector.getElem_set, Vector.getElem_replicate, h256, h5a]

theorem sole_child (i : NodeIdx) (b : Bit) : soleNodes.child i b =
    if i = 256 ∧ b = false then some 0x5A else none := by
  simp only [NodeTable.child, sole_entry]
  cases b <;> split_ifs <;> simp_all [Node.left, Node.right]

/-- T1 meets the tree invariants. -/
theorem pair_ok : pairState.tree.Ok := by
  have e : pairState.tree = { node := pairNodes, root := some 256, kind := .full } := rfl
  rw [e]
  constructor <;> simp only
  · intro i sym f h
    rw [pair_entry] at h
    split at h
    · simp at h
    · split at h
      · simp at h; obtain ⟨rfl, _⟩ := h; subst_vars; rfl
      · split at h
        · simp at h; obtain ⟨rfl, _⟩ := h; subst_vars; rfl
        · simp at h
  · intro i f l r h
    rw [pair_entry] at h
    split at h
    · subst_vars; decide
    · split at h
      · simp at h
      · split at h <;> simp at h
  · intro i b j h
    rw [pair_child] at h
    split at h
    · subst_vars
      cases b <;> simp at h <;> subst h <;> exact ⟨by decide, by rw [pair_entry]; decide⟩
    · simp at h
  · intro i f l r h
    rw [pair_entry] at h
    split at h
    · simp at h; obtain ⟨_, rfl, rfl⟩ := h; simp
    · split at h
      · simp at h
      · split at h <;> simp at h
  · intro h; simp at h
  · intro i h hr
    rw [pair_entry] at h
    have h256 : i ≠ 256 := fun hi => hr (by rw [hi])
    rw [if_neg h256] at h
    have hc : i = 0x42 ∨ i = 0x41 := by
      by_cases h1 : i = 0x42
      · exact .inl h1
      · by_cases h2 : i = 0x41
        · exact .inr h2
        · simp [h1, h2] at h
    rcases hc with rfl | rfl
    · refine ⟨256, false, by rw [pair_child]; decide, fun p b hp => ?_⟩
      rw [pair_child] at hp
      split at hp
      · subst_vars; cases b
        · exact ⟨rfl, rfl⟩
        · simp at hp
      · simp at hp
    · refine ⟨256, true, by rw [pair_child]; decide, fun p b hp => ?_⟩
      rw [pair_child] at hp
      split at hp
      · subst_vars; cases b
        · simp at hp
        · exact ⟨rfl, rfl⟩
      · simp at hp
  · intro r hr
    simp at hr; subst hr
    refine ⟨⟨3, some 0x42, some 0x41, by rw [pair_entry]; decide⟩, fun p b => ?_⟩
    rw [pair_child]
    split
    · cases b <;> decide
    · simp
  · decide
  · simp only [reduceCtorEq, false_iff]
    rintro ⟨r, hr, hc⟩
    simp at hr; subst hr
    rw [pair_child] at hc; exact absurd hc (by decide)
  · intro h; simp at h
  · intro r i hr h
    simp at hr; subst hr
    rw [pair_entry] at h
    by_cases h0 : i = 256
    · exact ⟨[], by rw [h0]; rfl⟩
    · by_cases h1 : i = 0x42
      · exact ⟨[false], by rw [h1, follow_cons, pair_child]; decide⟩
      · by_cases h2 : i = 0x41
        · exact ⟨[true], by rw [h2, follow_cons, pair_child]; decide⟩
        · simp [h0, h1, h2] at h
  · intro i f l r h
    rw [pair_entry] at h
    split at h
    · simp at h; obtain ⟨rfl, rfl, rfl⟩ := h
      simp only [NodeTable.freqAt, pair_entry]; decide
    · split at h
      · simp at h
      · split at h <;> simp at h

/-- The degenerate tree meets the tree invariants. -/
theorem sole_ok : soleState.tree.Ok := by
  have e : soleState.tree = { node := soleNodes, root := some 256, kind := .degen } := rfl
  rw [e]
  constructor <;> simp only
  · intro i sym f h
    rw [sole_entry] at h
    split at h
    · simp at h
    · split at h
      · simp at h; obtain ⟨rfl, _⟩ := h; subst_vars; rfl
      · simp at h
  · intro i f l r h
    rw [sole_entry] at h
    split at h
    · subst_vars; decide
    · split at h <;> simp at h
  · intro i b j h
    rw [sole_child] at h
    split at h
    · rename_i hi
      simp at h; subst h; rw [hi.1]
      exact ⟨by decide, by rw [sole_entry]; decide⟩
    · simp at h
  · intro i f l r h
    rw [sole_entry] at h
    split at h
    · simp at h; obtain ⟨_, rfl, rfl⟩ := h; subst_vars; simp
    · split at h <;> simp at h
  · intro _ r hr
    simp at hr; subst hr
    exact ⟨0x5A, 0x5A, 4, by rw [sole_child]; decide, by rw [sole_entry]; decide⟩
  · intro i h hr
    rw [sole_entry] at h
    have h256 : i ≠ 256 := fun hi => hr (by rw [hi])
    rw [if_neg h256] at h
    have hc : i = 0x5A := by
      by_cases h1 : i = 0x5A
      · exact h1
      · simp [h1] at h
    subst hc
    refine ⟨256, false, by rw [sole_child]; decide, fun p b hp => ?_⟩
    rw [sole_child] at hp
    split at hp
    · rename_i hi; exact hi
    · simp at hp
  · intro r hr
    simp at hr; subst hr
    refine ⟨⟨4, some 0x5A, none, by rw [sole_entry]; decide⟩, fun p b => ?_⟩
    rw [sole_child]
    split
    · decide
    · simp
  · decide
  · simp only [true_iff]
    exact ⟨256, rfl, by rw [sole_child]; decide⟩
  · intro h; simp at h
  · intro r i hr h
    simp at hr; subst hr
    rw [sole_entry] at h
    by_cases h0 : i = 256
    · exact ⟨[], by rw [h0]; rfl⟩
    · by_cases h1 : i = 0x5A
      · exact ⟨[false], by rw [h1, follow_cons, sole_child]; decide⟩
      · simp [h0, h1] at h
  · intro i f l r h
    rw [sole_entry] at h
    split at h
    · simp at h; obtain ⟨rfl, rfl, rfl⟩ := h
      simp only [NodeTable.freqAt, sole_entry]; decide
    · split at h <;> simp at h

/-! ### Code tables that meet the invariant of R33 and R34 -/

theorem pair_codes_entry (b : Byte) : pairCodes.entry b =
    if b = 0x42 then some [false] else if b = 0x41 then some [true] else none := by
  have h : pairCodes = Vector.set (Vector.set absentCodes (0x41 : Byte).toNat (some [true]) (by decide))
    (0x42 : Byte).toNat (some [false]) (by decide) := rfl
  rw [h, entry_set, entry_set, entry_absentCodes]

theorem pair_codes_ok : pairCodes.Ok := by
  constructor
  · intro b x h
    rw [pair_codes_entry] at h
    split_ifs at h <;> simp at h <;> subst h <;> simp
  · intro b b' x x' hne h h'
    rw [pair_codes_entry] at h h'
    split_ifs at h h' <;> simp at h h' <;> subst_vars <;> simp_all

theorem absent_codes_ok : absentCodes.Ok :=
  ⟨fun b x h => by simp at h, fun b b' x x' _ h => by simp at h⟩

/-! ### Witnesses: a state that meets the hypotheses of each statement -/

/-- Every command answers a next state from every state: the premise `exec i s = next t` of many statements. -/
theorem witness_exec (i : Instr) (s : State) : ∃ t, exec i s = .next t := ⟨_, exec_eq i s⟩

theorem witness_DecodeEncodeAgree : ∃ (c : Byte) (i : Instr), decode c = .ok i := ⟨9, .decode, by decide⟩

theorem witness_StepRunsDecodedCommand :
    (∃ (s : State) (c : Byte) (i : Instr), s.cmd = some c ∧ decode c = .ok i) ∧
    (∃ (s : State) (a : HostAction) (rest : List HostAction), s.cmd = none ∧ s.host = a :: rest) ∧
    (∃ s : State, s.cmd = none ∧ s.host = []) :=
  ⟨⟨{ State.reset with cmd := some 9 }, 9, .decode, rfl, by decide⟩,
   ⟨{ State.reset with host := [.reset] }, .reset, [], rfl, rfl⟩, ⟨State.reset, rfl, rfl⟩⟩

theorem witness_CmdWriteIssuesOrIsIgnored :
    (∃ (s : State) (c : Byte) (rest : List HostAction) (i : Instr), s.cmd = none ∧ s.host = .writeCmd c :: rest ∧
      s.status.state ≠ .busy ∧ decode c = .ok i) ∧
    (∃ (s : State) (c : Byte) (rest : List HostAction), s.cmd = none ∧ s.host = .writeCmd c :: rest ∧
      s.status.state = .busy) :=
  ⟨⟨{ State.reset with host := [.writeCmd 1] }, 1, [], .fcount, rfl, rfl, by decide, by decide⟩,
   ⟨{ State.reset with host := [.writeCmd 1], status := { state := .busy, err := none, empty := false } }, 1, [],
    rfl, rfl, rfl⟩⟩

/-- A reserved byte waits to be written: one of the boundary bytes `0x00`, `0x0A`, `0x10` and `0xFF`. -/
theorem witness_ReservedByteIsIllegalCommand (c : Byte) (hc : c = 0x00 ∨ c = 0x0A ∨ c = 0x10 ∨ c = 0xFF) :
    (c.toNat = 0 ∨ 9 < c.toNat) ∧ ∃ (s : State) (rest : List HostAction) (e : ReservedWord), s.cmd = none ∧
      s.host = .writeCmd c :: rest ∧ s.status.state ≠ .busy ∧ decode c = .error e := by
  rcases hc with rfl | rfl | rfl | rfl
  · exact ⟨by decide, { State.reset with host := [.writeCmd 0x00] }, [], .unusedOp, rfl, rfl, by decide, by decide⟩
  · exact ⟨by decide, { State.reset with host := [.writeCmd 0x0A] }, [], .unusedOp, rfl, rfl, by decide, by decide⟩
  · exact ⟨by decide, { State.reset with host := [.writeCmd 0x10] }, [], .rsvNotZero, rfl, rfl, by decide, by decide⟩
  · exact ⟨by decide, { State.reset with host := [.writeCmd 0xFF] }, [], .rsvNotZero, rfl, rfl, by decide, by decide⟩

theorem witness_TbuildEmptyTable : ∃ s : State, ∀ b : Fin 256, s.freq[b.val] = 0 :=
  ⟨State.reset, fun b => by simp [State.reset, zeroFreq]⟩

theorem freqs_one (b : Byte) (v : Word) (c : Byte) : ((freqs [(b, v)]).freq[c.toNat]) = if c = b then v else 0 := by
  simp only [freqs, List.foldl, setFreq, State.reset, zeroFreq, Vector.getElem_set, Vector.getElem_replicate]
  by_cases h : c = b
  · subst h; simp
  · rw [if_neg (fun hn => h (BitVec.eq_of_toNat_eq hn.symm)), if_neg h]

/-- Vector T11 (S3): the degenerate tree. -/
theorem test_tbuild_degenerate : ∃ t, exec .tbuild (freqs [(0x41, 1000)]) = .next t ∧
    t.node.entry 256 = some (.internal 1000 (some 0x41) none) ∧ t.root = some 256 ∧ t.tkind = .degen := by
  have hf : ∀ c : Fin 256, (freqs [(0x41, 1000)]).freq[c.val] = if c = 0x41 then 1000 else 0 := by
    intro c
    have h := freqs_one 0x41 1000 (BitVec.ofNat 8 c.val)
    have hn : (BitVec.ofNat 8 c.val).toNat = c.val := by rw [BitVec.toNat_ofNat]; exact Nat.mod_eq_of_lt c.isLt
    simp only [hn] at h
    rw [h]
    by_cases hc : c = 0x41
    · rw [hc]; rfl
    · rw [if_neg hc, if_neg fun e => hc (Fin.ext (by simpa [hn] using congrArg BitVec.toNat e))]
  have hb := buildTree_single (f := (freqs [(0x41, 1000)]).freq) (b := 0x41) (by rw [hf]; decide)
    (fun c hc => by rw [hf, if_neg hc])
  refine ⟨_, exec_eq _ _, ?_, ?_, ?_⟩ <;>
    simp only [bodyOf, finish_done, tbuildBody, complete_node, complete_root, complete_tkind, withTree_node,
      withTree_root, withTree_tkind, accept_freq, hb]
  rw [hf]
  simp only [NodeTable.entry, Vector.getElem_set]
  rfl

theorem witness_TbuildDegenerateTable : ∃ (s : State) (b : Byte), s.freq[b.toNat] ≠ 0 ∧
    ∀ c : Byte, c ≠ b → s.freq[c.toNat] = 0 :=
  ⟨freqs [(0xFF, 1)], 0xFF, by rw [freqs_one]; decide, fun c hc => by rw [freqs_one, if_neg hc]⟩

theorem witness_ExtractMinTakesSmallestKey :
    (∃ (q q' : List Key) (k : Key), extractMin q = some (k, q')) ∧ (∃ a b : Key, a.i ≠ b.i) :=
  ⟨⟨[{ f := 2, i := 256 }, { f := 2, i := 0x7A }], [{ f := 2, i := 256 }], { f := 2, i := 0x7A }, by decide⟩,
   ⟨{ f := 2, i := 256 }, { f := 2, i := 0x7A }, by decide⟩⟩

/-- Two symbols, with the first index created and the first index left free. -/
theorem witness_TbuildMergesTwoLeast : ∃ (s t : State) (n n' : NodeIdx), exec .tbuild s = .next t ∧
    2 ≤ s.freq.symbols ∧ 256 ≤ n.val ∧ n.val < 255 + s.freq.symbols ∧ 256 ≤ n'.val ∧ 255 + s.freq.symbols ≤ n'.val :=
  ⟨freqs [(0x41, 2), (0x42, 1)], _, 256, 257, exec_eq _ _, by decide +kernel, by decide, by decide +kernel,
    by decide, by decide +kernel⟩

/-- No symbol, one symbol and two. -/
theorem witness_TbuildRootIsTotal : (freqs []).freq.symbols = 0 ∧ (freqs [(0, 1)]).freq.symbols = 1 ∧
    2 ≤ (freqs [(0x41, 2), (0x42, 1)]).freq.symbols := by
  decide +kernel

theorem witness_TbuildDeterministic : ∃ s s' t t' : State, s.freq = s'.freq ∧ s ≠ s' ∧ exec .tbuild s = .next t ∧
    exec .tbuild s' = .next t' :=
  ⟨State.reset, { State.reset with size := 1 }, _, _, rfl,
    fun h => absurd (congrArg State.size h) (by decide), exec_eq _ _, exec_eq _ _⟩

/-- The tree T1 and its codes, for the statements that assume Tree.Ok (and CgenCodeLengthBounds with two symbols). -/
theorem witness_CgenCodesArePaths : ∃ (s t : State) (b : Byte) (x : List Bit), s.tree.Ok ∧ s.tkind = .full ∧
    2 ≤ s.node.leaves ∧ exec .cgen s = .next t ∧ t.code.entry b = some x :=
  ⟨pairState, _, 0x41, [true], pair_ok, rfl, by decide +kernel, exec_eq _ _, by decide +kernel⟩

/-- The degenerate tree and its code (and CgenCodeLengthBounds with one symbol). -/
theorem witness_CgenDegenerateTree : ∃ (s t : State) (b : Byte) (x : List Bit), s.tree.Ok ∧ s.tkind = .degen ∧
    s.root = some 256 ∧ s.node.leaves = 1 ∧ exec .cgen s = .next t ∧ t.code.entry b = some x :=
  ⟨soleState, _, 0x5A, [false], sole_ok, rfl, rfl, by decide +kernel, exec_eq _ _, by decide +kernel⟩

/-- Two distinct bytes with codes, for the prefix clause. -/
theorem witness_CgenPrefixCode : ∃ (s t : State) (b b' : Byte) (x x' : List Bit), s.tree.Ok ∧ exec .cgen s = .next t ∧
    b ≠ b' ∧ t.code.entry b = some x ∧ t.code.entry b' = some x' :=
  ⟨pairState, _, 0x41, 0x42, [true], [false], pair_ok, exec_eq _ _, by decide, by decide +kernel, by decide +kernel⟩

theorem witness_CgenEmptyTree : ∃ s : State, s.root = none := ⟨State.reset, rfl⟩

theorem witness_BpackPacksCodes : ∃ s : State, (∀ b x, s.code.entry b = some x → x.length ≤ 255) ∧ s.srcBytes ≠ [] ∧ ∀ b ∈ s.srcBytes, s.code.entry b ≠ none := by
  have hb : ({ file [0x41, 0x41, 0x42] with code := pairCodes } : State).srcBytes = [0x41, 0x41, 0x42] :=
    bytes_ofBytes _
  refine ⟨{ file [0x41, 0x41, 0x42] with code := pairCodes }, fun b x h => (pair_codes_ok.lengths b x h).2, by rw [hb]; simp, fun b h => ?_⟩
  rw [hb] at h
  simp only [List.mem_cons, List.not_mem_nil, or_false] at h
  show pairCodes.entry b ≠ none
  rcases h with rfl | rfl | rfl <;> rw [pair_codes_entry] <;> decide

theorem witness_BpackMissingCode : ∃ s : State, ∃ b ∈ s.srcBytes, s.code.entry b = none := by
  refine ⟨file [0], 0, ?_, by decide⟩
  rw [show (file [0]).srcBytes = [0] from bytes_ofBytes _]; simp

theorem witness_BpackEmptyFile : ∃ s : State, s.srcLen = 0 := ⟨State.reset, rfl⟩

/-- The capacity boundary of vector F3: 8281 bytes hold three payload bits. -/
theorem witness_FembedWritesCarrier : ∃ s : State, s.pay.length = s.pbits.toNat ∧ s.pbits = 3 ∧
    8278 + s.pbits.toNat = s.cinLen.toNat :=
  ⟨carrier [] 8281 { State.reset with pay := [true, true, false], pbits := 3 }, rfl, rfl, rfl⟩

/-- One byte fewer does not. -/
theorem witness_FembedInsufficientCapacity : ∃ s : State, s.pbits = 3 ∧ s.cinLen.toNat + 1 = 8278 + s.pbits.toNat :=
  ⟨carrier [] 8280 { State.reset with pay := [true, true, false], pbits := 3 }, rfl, rfl⟩

theorem witness_FieldBitOrder : ∃ x : List Bit, x.length = 32 := ⟨bits32 3, by decide⟩

theorem witness_EmbedExtractBit : ∃ (c : Byte) (b : Bit) (j : Nat), c.getLsbD 0 = b ∧ j ≠ 0 :=
  ⟨0xFF, true, 1, by decide, by decide⟩

theorem witness_FextractReadsHeader : ∃ s : State, 8278 = s.cinLen.toNat ∧
    ∃ j, j < 32 ∧ extractBit (s.cin.read (54 + j)) = true :=
  ⟨carrier [(85, 1)] 8278 State.reset, rfl, 31, by decide, by decide⟩

theorem witness_FextractSizeZero : ∃ s : State, 86 = s.cinLen.toNat ∧
    ∀ j, j < 32 → extractBit (s.cin.read (54 + j)) = false :=
  ⟨carrier sizeZero 86 State.reset, rfl, by decide⟩

theorem witness_FextractCorruptHeader : (∃ s : State, s.cinLen.toNat = 85) ∧
    (∃ s : State, s.cinLen.toNat = 8277 ∧ ∃ j, j < 32 ∧ extractBit (s.cin.read (54 + j)) = true) :=
  ⟨⟨carrier [] 85 State.reset, rfl⟩, ⟨carrier [(54, 1)] 8277 State.reset, rfl, 0, by decide, by decide⟩⟩

theorem witness_FextractInvertsFembed : ∃ s t : State, s.pay.length = s.pbits.toNat ∧ s.size ≠ 0 ∧
    exec .fembed s = .next t ∧ t.status.state = .done :=
  ⟨carrier [] 8281 { State.reset with size := 3, pay := [true, true, false], pbits := 3 }, _, rfl,
    (by decide : (3 : Word) ≠ 0), exec_eq _ _, by decide +kernel⟩

theorem witness_BunpackSizeZero : ∃ s : State, s.size = 0 := ⟨State.reset, rfl⟩

theorem witness_BunpackEmptyTree : ∃ s : State, s.size ≠ 0 ∧ s.root = none :=
  ⟨{ State.reset with size := 3 }, (by decide : (3 : Word) ≠ 0), rfl⟩

/-- Vectors U6 and U7: the carrier holds exactly the four bits, and one fewer. -/
theorem witness_BunpackDegenerateTree (n : Word) (_hn : n = 8282 ∨ n = 8281) :
    ∃ (s : State) (r l : NodeIdx) (f g : Wide) (b : Byte), s.size ≠ 0 ∧ s.tkind = .degen ∧ s.root = some r ∧
    s.node.entry r = some (.internal f (some l) none) ∧ s.node.entry l = some (.leaf b g) ∧
    (8278 + s.size.toNat ≤ s.cinLen.toNat ∨ s.cinLen.toNat < 8278 + s.size.toNat) ∧ s.cinLen = n :=
  ⟨carrier [] n { soleState with size := 4 }, 256, 0x5A, 4, 4, 0x5A, (by decide : (4 : Word) ≠ 0), rfl, rfl,
    by show soleNodes.entry 256 = _; rw [sole_entry]; decide,
    by show soleNodes.entry 0x5A = _; rw [sole_entry]; decide, Nat.lt_or_ge _ _ |>.symm, rfl⟩

theorem witness_BunpackFinishesOrRunsOut : ∃ (s : State) (r : NodeIdx), s.tree.Ok ∧ s.size ≠ 0 ∧ s.root = some r :=
  ⟨{ pairState with size := 3 }, 256, pair_ok, (by decide : (3 : Word) ≠ 0), rfl⟩

/-- Vector U1. -/
theorem witness_BunpackStopsAtLastByte : ∃ s t g : State, s.tree.Ok ∧ exec .bunpack s = .next t ∧
    t.status.state = .done ∧ exec .cgen s = .next g ∧ s.tkind = .full ∧ 0 < t.rdbits.toNat ∧
    ∃ (m : Memory) (n : Word), m ≠ s.cin ∧ 8278 + t.rdbits.toNat ≤ n.toNat ∧
      ∀ p, p < t.rdbits.toNat → m.read (8278 + p) = s.cin.read (8278 + p) := by
  refine ⟨carrier [(8278, 1), (8279, 1), (8280, 0)] 8300 { pairState with size := 3 }, _, _, pair_ok, exec_eq _ _,
    by decide +kernel, exec_eq _ _, rfl, by decide +kernel,
    { cells := [(8278, 1), (8279, 1), (8280, 0), (8281, 7)], epoch := 0 }, 8281, by decide, by decide +kernel, ?_⟩
  have h3 : (finish (bodyOf .bunpack (accept (carrier [(8278, 1), (8279, 1), (8280, 0)] 8300
    { pairState with size := 3 })))).rdbits.toNat = 3 := by decide +kernel
  rw [h3]
  decide

/-- Vector U1 again, as the inverse of the codes. -/
theorem witness_BunpackInvertsCodes : ∃ (s g : State) (bs : List Byte), s.tree.Ok ∧ exec .cgen s = .next g ∧ bs ≠ [] ∧
    (∀ b ∈ bs, g.code.entry b ≠ none) ∧ s.size.toNat = bs.length ∧
    (∀ p, p < (g.code.codeOf bs).length →
      (g.code.codeOf bs)[p]? = some (extractBit (s.cin.read (8278 + p)))) ∧
    8278 + (g.code.codeOf bs).length ≤ s.cinLen.toNat := by
  have hc : (finish (bodyOf .cgen (accept (carrier [(8278, 1), (8279, 1), (8280, 0)] 8281
    { pairState with size := 3 })))).code.codeOf [0x41, 0x41, 0x42] = [true, true, false] := by decide +kernel
  refine ⟨carrier [(8278, 1), (8279, 1), (8280, 0)] 8281 { pairState with size := 3 }, _, [0x41, 0x41, 0x42], pair_ok,
    exec_eq _ _, by decide, by decide +kernel, rfl, ?_, ?_⟩
  · rw [hc]; decide
  · rw [hc]; decide

/-- A carrier byte whose upper bits change. -/
theorem witness_UpperCarrierBitsDoNotMatter : ∃ (s t : State) (m : Memory), m ≠ s.cin ∧
    (∀ a, a < s.cinLen.toNat → extractBit (m.read a) = extractBit (s.cin.read a)) ∧ exec .decode s = .next t := by
  refine ⟨carrier [(85, 0x01)] 8300 State.reset, _, Memory.write { cells := [(85, 0x01)], epoch := 0 } 85 0xF1,
    by decide, fun a _ => ?_, exec_eq _ _⟩
  show extractBit _ = extractBit (Memory.read { cells := [(85, 0x01)], epoch := 0 } a)
  rw [read_write]
  split
  · subst_vars; decide
  · rfl

theorem witness_EncodeEmptyFile (n : Word) (_hn : n = 8278 ∨ n = 8277) : ∃ s : State, s.srcLen = 0 ∧ s.cinLen = n ∧
    (8278 ≤ s.cinLen.toNat ∨ s.cinLen.toNat < 8278) :=
  ⟨carrier [] n State.reset, rfl, rfl, Nat.lt_or_ge _ _ |>.symm⟩

/-- Vector E1 with a carrier that holds any three-byte file. -/
theorem witness_EncodeEndsDoneExactlyWithCapacity : ∃ s : State, s.srcLen = 3 ∧
    8278 + 255 * s.srcLen.toNat = s.cinLen.toNat :=
  ⟨carrier [] 9043 (file [0x41, 0x41, 0x42]), rfl, rfl⟩

/-- The carrier exactly as large as the frame of the empty file, and one byte smaller. -/
theorem witness_EncodeFinalState :
    (∃ s t : State, exec .encode s = .next t ∧ 8278 + t.pbits.toNat = s.cinLen.toNat) ∧
    (∃ s t : State, exec .encode s = .next t ∧ s.cinLen.toNat + 1 = 8278 + t.pbits.toNat) :=
  ⟨⟨carrier [] 8278 (file []), _, exec_eq _ _, by decide +kernel⟩,
   ⟨carrier [] 8277 (file []), _, exec_eq _ _, by decide +kernel⟩⟩

/-- FEXTRACT ends DONE with a nonzero size, DONE with size 0, and in ERROR. -/
theorem witness_DecodeIsUnitSequence :
    (∃ s u : State, exec .fextract s = .next u ∧ u.status.state = .done ∧ u.size ≠ 0) ∧
    (∃ s u : State, exec .fextract s = .next u ∧ u.status.state = .done ∧ u.size = 0) ∧
    (∃ s u : State, exec .fextract s = .next u ∧ u.status.state = .error) :=
  ⟨⟨carrier sizeThree 8278 State.reset, _, exec_eq _ _, by decide +kernel, by decide +kernel⟩,
   ⟨carrier sizeZero 86 State.reset, _, exec_eq _ _, by decide +kernel, by decide +kernel⟩,
   ⟨carrier [] 85 State.reset, _, exec_eq _ _, by decide +kernel⟩⟩

theorem witness_DecodeEmptyFile : ∃ s : State, 86 = s.cinLen.toNat ∧
    ∀ j, j < 32 → extractBit (s.cin.read (54 + j)) = false :=
  witness_FextractSizeZero

/-- An image: `n` zero bytes, two bytes 1, `m` zero bytes and a last byte. With `n = 84` and `m = 8191` its size field
is 3 and its table is zero but for its very last bit, which `last` gives. -/
def imageOf (n m : Nat) (last : Byte) : List Byte := List.replicate n 0 ++ (1 :: 1 :: (List.replicate m 0 ++ [last]))

theorem length_imageOf (n m : Nat) (last : Byte) : (imageOf n m last).length = n + m + 3 := by
  simp only [imageOf, List.length_append, List.length_replicate, List.length_cons, List.length_nil]; omega

theorem getElem?_imageOf (n m : Nat) (last : Byte) {a : Nat} (h : a < n + m + 3) : (imageOf n m last)[a]? =
    some (if a < n then 0 else if a < n + 2 then 1 else if a < n + m + 2 then 0 else last) := by
  rw [imageOf]
  by_cases h1 : a < n
  · rw [if_pos h1, List.getElem?_append_left (by simpa using h1)]
    simp [h1]
  · rw [if_neg h1, List.getElem?_append_right (by simpa using h1), List.length_replicate]
    by_cases h2 : a < n + 2
    · rw [if_pos h2]
      have : a - n = 0 ∨ a - n = 1 := by omega
      rcases this with h | h <;> rw [h] <;> rfl
    · rw [if_neg h2, show a - n = (a - n - 2) + 1 + 1 by omega, List.getElem?_cons_succ, List.getElem?_cons_succ]
      by_cases h3 : a < n + m + 2
      · rw [if_pos h3, List.getElem?_append_left (by rw [List.length_replicate]; omega)]
        simp only [List.getElem?_replicate]; rw [if_pos (by omega)]
      · rw [if_neg h3, List.getElem?_append_right (by rw [List.length_replicate]; omega), List.length_replicate,
          show a - n - 2 - m = 0 by omega]
        rfl

/-- The reset state with that image in CIN. -/
def imageState (last : Byte) : State := loadCin (imageOf 84 8191 last) State.reset

theorem cinLen_imageState (last : Byte) : (imageState last).cinLen = 8278 := by
  show BitVec.ofNat 32 (imageOf 84 8191 last).length = 8278
  rw [length_imageOf]; rfl

theorem bit_imageState (last : Byte) {a : Nat} (h : a < 8278) : extractBit ((imageState last).cin.read a) =
    if a < 84 then false else if a < 86 then true else if a < 8277 then false else extractBit last := by
  have hl : a < (imageOf 84 8191 last).length := by rw [length_imageOf]; exact h
  have hr : (imageState last).cin.read a = (imageOf 84 8191 last)[a] := read_ofBytes hl
  have hg := getElem?_imageOf 84 8191 last (a := a) (by omega)
  rw [List.getElem?_eq_getElem hl, Option.some.injEq] at hg
  rw [hr, hg]
  split
  · decide
  · split
    · decide
    · split
      · decide
      · rfl

/-- Rows 3 and 4 of R186's table: a zero table, and a table with one bit set. -/
theorem witness_DecodeErrorsInOrder :
    (∃ s : State, 8278 ≤ s.cinLen.toNat ∧ (∃ j, j < 32 ∧ extractBit (s.cin.read (54 + j)) = true) ∧
      ∀ k, k < 8192 → extractBit (s.cin.read (86 + k)) = false) ∧
    (∃ s : State, 8278 ≤ s.cinLen.toNat ∧ (∃ j, j < 32 ∧ extractBit (s.cin.read (54 + j)) = true) ∧
      ∃ k, k < 8192 ∧ extractBit (s.cin.read (86 + k)) = true) := by
  have hbit : ∀ last, extractBit ((imageState last).cin.read (54 + 31)) = true := by
    intro last; rw [bit_imageState last (by omega), if_neg (by omega), if_pos (by omega)]
  refine ⟨⟨imageState 0, by rw [cinLen_imageState]; decide, ⟨31, by decide, hbit 0⟩, fun k hk => ?_⟩,
    ⟨imageState 1, by rw [cinLen_imageState]; decide, ⟨31, by decide, hbit 1⟩, 8191, by decide, ?_⟩⟩
  · rw [bit_imageState 0 (by omega), if_neg (by omega), if_neg (by omega)]
    split <;> decide
  · rw [bit_imageState 1 (by omega), if_neg (by omega), if_neg (by omega), if_neg (by omega)]; decide

/-! A carrier with a payload: size 3, FREQ[0xFF] = 1 and no other symbol, and three payload bits 0. -/

/-- The image with its last table bit set, then three zero bytes. -/
def payloadImage : List Byte := imageOf 84 8191 1 ++ [0, 0, 0]

/-- The reset state with that carrier in CIN. -/
def payloadState : State := loadCin payloadImage State.reset

theorem length_payloadImage : payloadImage.length = 8281 := by
  rw [payloadImage, List.length_append, length_imageOf]; rfl

theorem cinLen_payloadState : payloadState.cinLen = 8281 := by
  show BitVec.ofNat 32 payloadImage.length = 8281
  rw [length_payloadImage]; rfl

theorem bit_payloadState {a : Nat} (h : a < 8281) : extractBit (payloadState.cin.read a) =
    decide (a = 84 ∨ a = 85 ∨ a = 8277) := by
  have hl : a < payloadImage.length := by rw [length_payloadImage]; exact h
  have hr : payloadState.cin.read a = payloadImage[a] := read_ofBytes hl
  have hg : payloadImage[a]? = some (if a = 84 ∨ a = 85 ∨ a = 8277 then 1 else 0) := by
    rw [payloadImage]
    by_cases h1 : a < 8278
    · rw [List.getElem?_append_left (by rw [length_imageOf]; omega), getElem?_imageOf 84 8191 1 (by omega)]
      congr 1
      split_ifs <;> first | rfl | omega
    · rw [List.getElem?_append_right (by rw [length_imageOf]; omega), length_imageOf, if_neg (by omega)]
      have : a - (84 + 8191 + 3) = 0 ∨ a - (84 + 8191 + 3) = 1 ∨ a - (84 + 8191 + 3) = 2 := by omega
      rcases this with h | h | h <;> rw [h] <;> rfl
  rw [List.getElem?_eq_getElem hl, Option.some.injEq] at hg
  rw [hr, hg]
  split <;> rename_i hc <;> simp [hc, extractBit]

/-- FREQ[0xFF] = 1 and no other symbol. -/
def oneFreq : FreqTable := zeroFreq.set 255 1

theorem frameBit_payload {s : State} (hs : s.cin = payloadState.cin) {k : Nat} (hk : k < 8227) :
    s.frameBit k = decide (k = 30 ∨ k = 31 ∨ k = 8223) := by
  rw [State.frameBit, State.carrierBit, hs, Config.hdrLen_eq, bit_payloadState (by omega)]
  congr 1
  simp only [eq_iff_iff]; omega

theorem getElem_oneFreq (i k : Nat) (hi : i < 256) : (oneFreq[i]).getLsbD k = decide (i = 255 ∧ k = 0) := by
  simp only [oneFreq, zeroFreq, Vector.getElem_set, Vector.getElem_replicate, eq_comm (a := 255)]
  by_cases h : i = 255
  · rw [if_pos h, show (1 : Word) = 1#32 from rfl, BitVec.getLsbD_one]; simp [h]
  · rw [if_neg h]; simp [h]

theorem frameTable_payload {s : State} (hs : s.cin = payloadState.cin) : s.frameTable = oneFreq := by
  apply Vector.ext
  intro i hi
  apply BitVec.eq_of_getLsbD_eq
  intro k hk
  have hf : s.frameTable[i] = s.frameField (32 + 32 * i) := by simp [State.frameTable]
  have hb := getLsbD_frameField s (32 + 32 * i) (j := 31 - k) (by omega)
  rw [show 31 - (31 - k) = k by omega] at hb
  rw [hf, hb, frameBit_payload hs (by omega), getElem_oneFreq i k hi]
  rw [decide_eq_decide]; omega

theorem frameSize_payload {s : State} (hs : s.cin = payloadState.cin) : s.frameField 0 = 3 := by
  apply BitVec.eq_of_getLsbD_eq
  intro k hk
  have hb := getLsbD_frameField s 0 (j := 31 - k) (by omega)
  rw [show 31 - (31 - k) = k by omega] at hb
  rw [hb, frameBit_payload hs (by omega)]
  have : k = 0 ∨ k = 1 ∨ 2 ≤ k := by omega
  rcases this with rfl | rfl | h
  · decide
  · decide
  · have h3 : (3 : Word).getLsbD k = false := by
      rw [BitVec.getLsbD, show (3 : Word).toNat = 3 from rfl]
      exact Nat.testBit_lt_two_pow (Nat.lt_of_lt_of_le (by decide) (Nat.pow_le_pow_right (by decide) h))
    rw [h3, decide_eq_false_iff_not]; omega

theorem getElem_one (c : Fin 256) : oneFreq[c.val] = if c = 255 then 1 else 0 := by
  simp only [oneFreq, zeroFreq, Vector.getElem_set, Vector.getElem_replicate, Fin.ext_iff, eq_comm (a := 255)]
  rfl

theorem one_tree : buildTree oneFreq =
    { node := (leafArena oneFreq).set 256 (some (.internal 1 (some 255) none)), root := some 256, kind := .degen } := by
  rw [buildTree_single (f := oneFreq) (b := 255) (by rw [getElem_one]; decide) (fun c hc => by rw [getElem_one, if_neg hc]),
    getElem_one]
  rfl

theorem entry_setNode (t : NodeTable) (n : Option Node) (i : NodeIdx) :
    NodeTable.entry (Vector.set t 256 n (by decide)) i = if 256 = i.val then n else t.entry i := by
  simp only [NodeTable.entry, Vector.getElem_set]

theorem one_root : (buildTree oneFreq).node.entry 256 = some (.internal 1 (some 255) none) := by
  rw [one_tree, entry_setNode, if_pos (by decide)]

theorem one_leaf : (buildTree oneFreq).node.entry 255 = some (.leaf 0xFF 1) := by
  have h1 : oneFreq[((255 : NodeIdx).val)] = 1 := getElem_one 255
  rw [one_tree, entry_setNode, if_neg (by decide), leafArena_entry, dif_pos (by decide)]
  simp only [h1]
  decide

theorem witness_TbuildShapeCounts : ∃ (s t : State) (r i : NodeIdx) (path : List Bit), exec .tbuild s = .next t ∧
    t.root = some r ∧ i.val < 256 ∧ t.node.follow r path = some i := by
  refine ⟨{ State.reset with freq := oneFreq }, _, 256, 255, [false], exec_eq _ _, ?_, by decide, ?_⟩
  · simp only [bodyOf, finish_done, tbuildBody, complete_root, withTree_root, accept_freq, one_tree]
  · simp only [bodyOf, finish_done, tbuildBody, complete_node, withTree_node, accept_freq]
    rw [follow_cons, (child_of_internal one_root).1]; rfl

/-- The codes of the tree of that table. -/
def oneCodes : CodeTable := codesOf (buildTree oneFreq).node (buildTree oneFreq).root

theorem sole_code {t : NodeTable} {f g : Wide} (hr : t.entry 256 = some (.internal f (some 255) none))
    (hl : t.entry 255 = some (.leaf 0xFF g)) : (codesOf t (some 256)).entry 0xFF = some [false] := by
  have hw : codesOf t (some 256) = walkCodes t (510 + 1) 256 [] absentCodes := rfl
  have hleaf : ∀ path code, walkCodes t (509 + 1) 255 path code =
      Vector.set code (0xFF : Byte).toNat (some path) (by decide) := by
    intro path code; rw [walkCodes, hl]
  rw [hw, walkCodes_internal hr]
  simp only [Option.elim]
  rw [hleaf, entry_set, if_pos rfl]
  rfl

theorem oneCodes_ff : oneCodes.entry 0xFF = some [false] := by
  have hr : (buildTree oneFreq).root = some 256 := by rw [one_tree]
  rw [oneCodes, hr]
  exact sole_code one_root one_leaf

theorem witness_DecodeOfPackedPayload : ∃ (s u v g : State) (bs : List Byte), exec .fextract s = .next u ∧
    u.status.state = .done ∧ exec .tbuild u = .next v ∧ exec .cgen v = .next g ∧ bs ≠ [] ∧
    (∀ b ∈ bs, g.code.entry b ≠ none) ∧ u.size.toNat = bs.length ∧
    (∀ p, p < (g.code.codeOf bs).length →
      (g.code.codeOf bs)[p]? = some (extractBit (s.cin.read (8278 + p)))) ∧
    8278 + (g.code.codeOf bs).length ≤ s.cinLen.toNat := by
  have hx : bodyOf .fextract (accept payloadState) =
      .done (((accept payloadState).withTable zeroFreq 0).withTable oneFreq 3) := by
    have h3 := frameSize_payload (s := accept payloadState) rfl
    have hl : (accept payloadState).cinLen = 8281 := cinLen_payloadState
    rcases fextractBody_cases (accept payloadState) with ⟨h | h, _⟩ | ⟨_, h, _⟩ | ⟨_, _, h⟩
    · rw [hl] at h; exact absurd h (by decide)
    · rw [hl] at h; exact absurd h.1 (by decide)
    · rw [h3] at h; exact absurd h (by decide)
    · rw [h3, frameTable_payload (s := accept payloadState) rfl] at h; exact h
  have hcode : ∀ s : State, (finish (bodyOf .cgen (accept (finish (bodyOf .tbuild (accept
      (finish (.done (s.withTable oneFreq 3))))))))).code = oneCodes := by
    intro s
    simp only [bodyOf, finish_done, cgenBody, tbuildBody, oneCodes]
    simp
  have hof : oneCodes.codeOf [0xFF, 0xFF, 0xFF] = [false, false, false] := by
    simp only [CodeTable.codeOf, List.flatMap_cons, List.flatMap_nil, oneCodes_ff]
    rfl
  refine ⟨payloadState, _, _, _, [0xFF, 0xFF, 0xFF], exec_eq _ _, ?_, exec_eq _ _, exec_eq _ _, by simp, ?_, ?_, ?_, ?_⟩
  · rw [hx]; rfl
  · rw [hx, hcode]
    intro b hb
    simp only [List.mem_cons, List.not_mem_nil, or_false, or_self] at hb
    rw [hb, oneCodes_ff]; simp
  · rw [hx]; rfl
  · rw [hx, hcode, hof]
    intro p hp
    simp only [List.length_cons, List.length_nil] at hp
    rw [bit_payloadState (by omega)]
    have : p = 0 ∨ p = 1 ∨ p = 2 := by omega
    rcases this with rfl | rfl | rfl <;> rfl
  · rw [hx, hcode, hof, cinLen_payloadState]; decide

/-- Vector E1: ENCODE of S1 into a carrier of exactly the bytes it needs. -/
theorem witness_EncodeDecodeRoundTrip : ∃ s t : State, exec .encode s = .next t ∧ s.srcBytes ≠ [] ∧
    8278 + t.pbits.toNat = s.cinLen.toNat := by
  obtain ⟨t, ht, hp⟩ := gives_next test_encode_registers
  simp only [Bool.and_eq_true, beq_iff_eq] at hp
  refine ⟨_, t, ht, ?_, by rw [hp.1.1.1.2]; rfl⟩
  rw [show (carrier [] 8281 (file [0x41, 0x41, 0x42])).srcBytes = [0x41, 0x41, 0x42] from bytes_ofBytes _]
  simp

/-- A host that may act, with an address below, at and above both lengths to write at, and one address not written. -/
theorem witness_HostWriteEffects : ∃ (s : State) (below at' above other : Word), s.status.state ≠ .busy ∧
    below < s.srcLen ∧ at' = s.srcLen ∧ s.srcLen < above ∧ below < s.cinLen ∧ at' = s.cinLen ∧ s.cinLen < above ∧
    other ≠ below ∧ other ≠ at' ∧ other ≠ above :=
  ⟨{ State.reset with srcLen := 2, cinLen := 2 }, 1, 2, 3, 0, (by decide : (RunState.idle ≠ .busy)), by decide, rfl,
    by decide, by decide, rfl, by decide, by decide, by decide, by decide⟩

/-- Two memories of length 2 with byte 1 written and byte 2 staged. LOAD of one byte leaves both beyond it; a length
write of 2 keeps the first (its last address) and one of 3 takes in the second (the old length's address); byte 3, which a
length write of 4 declares, was never written. -/
theorem witness_HostLoadAndLengthWrites : ∃ (s : State) (bs : List Byte) (u v w : Word) (x y : Byte),
    s.status.state ≠ .busy ∧ bs.length < 2 ^ 32 ∧ bs.length ≤ 1 ∧ 1 < u.toNat ∧ 2 < v.toNat ∧ 3 < w.toNat ∧
    u = s.srcLen ∧ u = s.cinLen ∧ s.srcLast 1 = some x ∧ s.cinLast 1 = some x ∧ s.srcLast 2 = some y ∧
    s.cinLast 2 = some y ∧ s.srcLast 3 = none ∧ s.cinLast 3 = none ∧ (2 : Word) < v :=
  ⟨pokeSrc 2 8 (pokeCin 2 8 (pokeSrc 1 7 (pokeCin 1 7 { State.reset with srcLen := 2, cinLen := 2 }))), [1], 2, 3, 4, 7, 8,
    (by decide : (RunState.idle ≠ .busy)), by decide, by decide, by decide, by decide, by decide, by decide, by decide,
    by decide, by decide, by decide, by decide, by decide, by decide, by decide⟩

theorem witness_HostReadsAreIdempotent : ∃ (s t : State) (loc : ReadLoc), hostAct (.read loc) s = .next t :=
  ⟨State.reset, _, .size, rfl⟩

/-- A state with a tree that is not the reset state meets the invariant, and a step runs from it. -/
theorem witness_StepKeepsInvariant : ∃ s t : State, s.Inv ∧ s.root ≠ none ∧ s.cmd ≠ none ∧ step s = .next t := by
  refine ⟨{ pairState with cmd := some 3 }, _, ?_, by decide, by decide, rfl⟩
  exact
    { tree := pair_ok
      codes := absent_codes_ok
      pay := rfl
      notBusy := (by decide : (RunState.idle ≠ .busy))
      errField := ⟨fun _ => (by decide : (RunState.idle ≠ .error)), fun _ => rfl⟩
      memories := ⟨wf_emptyMemory, wf_emptyMemory, wf_emptyMemory, wf_emptyMemory⟩
      inputs := ⟨below_emptyMemory _, below_emptyMemory _⟩
      staged := ⟨.nil, by simp [pairState, State.reset], .nil, by simp [pairState, State.reset]⟩
      outputs := ⟨rfl, rfl⟩ }

theorem step_load {bs : List Byte} (h : bs.length ≤ Config.maxBytes) :
    step { State.reset with host := [.loadSrc bs] } = .next (loadSrc bs State.reset) := by
  show hostAct (.loadSrc bs) State.reset = _
  have hw : HostAction.wf (.loadSrc bs) = true := by simpa [HostAction.wf] using h
  rw [hostAct, if_neg (by rintro ⟨h, _⟩; exact absurd h (by decide)), if_neg (by simp [hw])]
  rfl

/-- A load within the capacity, one beyond it, and a command whose walk stays within DST. -/
theorem witness_CapacityIsAPrecondition :
    (∃ s t, stepWithin small s = .next t ∧ s.host ≠ []) ∧
    (∃ s t, step s = .next t ∧ small.src < t.srcLen.toNat) ∧
    (∃ s t, exec .bunpack s = .next t ∧ t.size ≠ 0 ∧ t.size.toNat ≤ small.dst ∧ t.within small = true) :=
  ⟨⟨{ State.reset with host := [.loadSrc [1, 2]] }, loadSrc [1, 2] State.reset,
      limit_eq_next.2 ⟨step_load (by decide +kernel), by decide +kernel, by decide +kernel⟩, by simp⟩,
   ⟨{ State.reset with host := [.loadSrc [1, 2, 3]] }, loadSrc [1, 2, 3] State.reset, step_load (by decide +kernel), by decide +kernel⟩,
   ⟨carrier [(8278, 1), (8279, 0)] 8280 { pairState with size := 2 }, _, exec_eq _ _, by decide +kernel,
    by decide +kernel, by decide +kernel⟩⟩

end Sys2Proof.Tests
end

/-! Proofs about the tree after reset and after TBUILD (10_state.md R32, R43): what it is for an arena to be a forest,
that making a new parent keeps it one, the invariant of the merge loop, and the three forms of the result. -/

namespace Sys2Proof.Machine

/-! ### The nodes of an arena -/

theorem nodeEntry_set (t : NodeTable) (slot i : NodeIdx) (x : Option Node) :
    NodeTable.entry (Vector.set t slot.val x) i = if i = slot then x else t.entry i := by
  simp only [NodeTable.entry, Vector.getElem_set, Fin.ext_iff, eq_comm (a := slot.val)]

/-- Only an internal node has a child. -/
theorem child_eq_some {t : NodeTable} {i j : NodeIdx} {b : Bit} (h : t.child i b = some j) :
    ∃ f l r, t.entry i = some (.internal f l r) ∧ (if b then r else l) = some j := by
  rcases hi : t.entry i with _ | ⟨sym, f⟩ | ⟨f, l, r⟩
  · simp [NodeTable.child, hi] at h
  · simp [child_of_leaf hi] at h
  · obtain ⟨hl, hr⟩ := child_of_internal hi
    refine ⟨f, l, r, rfl, ?_⟩
    cases b
    · simpa [hl] using h
    · simpa [hr] using h

/-- A valid node that is nobody's child: a root of the forest an arena holds. -/
def NodeTable.Top (t : NodeTable) (i : NodeIdx) : Prop := t.entry i ≠ none ∧ ∀ p b, t.child p b ≠ some i

theorem NodeTable.exists_parent {t : NodeTable} {i : NodeIdx} (h : t.entry i ≠ none) (hi : ¬ t.Top i) :
    ∃ p b, t.child p b = some i := by
  by_contra hn
  exact hi ⟨h, fun p b hp => hn ⟨p, b, hp⟩⟩

/-- R31 and R32 (a), (c) for an arena under construction, where more than one node may have no parent. -/
structure NodeTable.Forest (t : NodeTable) : Prop where
  leafLayout : ∀ i sym f, t.entry i = some (.leaf sym f) → sym.toNat = i.val
  internalLayout : ∀ i f l r, t.entry i = some (.internal f l r) → 256 ≤ i.val
  childBelow : ∀ i b j, t.child i b = some j → j.val < i.val ∧ t.entry j ≠ none
  uniqueParent : ∀ i p b p' b', t.child p b = some i → t.child p' b' = some i → p' = p ∧ b' = b
  freqSum : ∀ i f l r, t.entry i = some (.internal f l r) → f.toNat = t.freqAt l + t.freqAt r

/-- A node at index 256 or above is internal (R31). -/
theorem NodeTable.Forest.internal_of_ge {t : NodeTable} (hf : t.Forest) {i : NodeIdx} (h : t.entry i ≠ none)
    (hi : 256 ≤ i.val) : ∃ f l r, t.entry i = some (.internal f l r) := by
  rcases he : t.entry i with _ | ⟨sym, f⟩ | ⟨f, l, r⟩
  · exact absurd he h
  · have := hf.leafLayout i sym f he
    have := sym.isLt
    omega
  · exact ⟨f, l, r, rfl⟩

/-- A node at an index below 256 is a leaf (R31). -/
theorem NodeTable.Forest.leaf_of_lt {t : NodeTable} (hf : t.Forest) {i : NodeIdx} (h : t.entry i ≠ none)
    (hi : i.val < 256) : ∃ sym f, t.entry i = some (.leaf sym f) := by
  rcases he : t.entry i with _ | ⟨sym, f⟩ | ⟨f, l, r⟩
  · exact absurd he h
  · exact ⟨sym, f, rfl⟩
  · have := hf.internalLayout i f l r he
    omega

/-- When all nodes but `r` have a parent, every node is reachable from `r`: its parent's index is above its own, so
the parents lead up to `r` (R32 (d)). -/
theorem NodeTable.Forest.reachable {t : NodeTable} (hf : t.Forest) {r : NodeIdx} (htop : ∀ i, t.Top i → i = r)
    (i : NodeIdx) (h : t.entry i ≠ none) : ∃ path, t.follow r path = some i := by
  by_cases hi : t.Top i
  · exact ⟨[], by rw [htop i hi]; rfl⟩
  · obtain ⟨p, b, hp⟩ := NodeTable.exists_parent h hi
    obtain ⟨f, l, r', hpe, -⟩ := child_eq_some hp
    have hlt := (hf.childBelow p b i hp).1
    obtain ⟨path, hpath⟩ := hf.reachable htop p (by simp [hpe])
    refine ⟨path ++ [b], ?_⟩
    rw [follow_append, hpath, Option.bind_some, follow_cons, hp]
    rfl
termination_by 511 - i.val

/-! ### From a forest to the invariants of R32 -/

/-- The empty tree meets the invariants (R30, R32 (d)). -/
theorem Tree.ok_of_empty {t : Tree} (hroot : t.root = none) (hkind : t.kind = .empty)
    (hnode : ∀ i, t.node.entry i = none) : t.Ok := by
  have hchild : ∀ i b, t.node.child i b = none := fun i b => by simp [NodeTable.child, hnode]
  constructor <;> simp [hroot, hkind, hnode, hchild]

/-- A forest whose one root is ROOT meets the invariants, when exactly the degenerate root lacks a right child. -/
theorem NodeTable.Forest.ok {t : Tree} {r : NodeIdx} (hf : t.node.Forest) (hroot : t.root = some r)
    (hkind : t.kind ≠ .empty) (hr : 256 ≤ r.val) (htop : ∀ i, t.node.Top i ↔ i = r)
    (htwo : ∀ i f l r', t.node.entry i = some (.internal f l r') → l ≠ none ∧ (r' = none ↔ t.kind = .degen ∧ r = i))
    (hleaf : t.kind = .degen → ∃ l, t.node.child r false = some l ∧ l.val < 256) : t.Ok := by
  obtain ⟨hvalid, hnochild⟩ := (htop r).2 rfl
  obtain ⟨f, l, r', hre⟩ := hf.internal_of_ge hvalid hr
  obtain ⟨-, hright⟩ := child_of_internal hre
  constructor
  case leafLayout => exact hf.leafLayout
  case internalLayout => exact hf.internalLayout
  case childBelow => exact hf.childBelow
  case freqSum => exact hf.freqSum
  case twoChildren => simpa [hroot] using htwo
  case degenLeaf =>
    intro hd r₁ h₁
    obtain rfl : r = r₁ := by simpa [hroot] using h₁
    obtain ⟨j, hj, hlt⟩ := hleaf hd
    obtain ⟨sym, g, he⟩ := hf.leaf_of_lt (hf.childBelow _ _ _ hj).2 hlt
    exact ⟨j, sym, g, hj, he⟩
  case oneParent =>
    intro i hi hne
    have hnot : ¬ t.node.Top i := fun h => hne (by rw [hroot, (htop i).1 h])
    obtain ⟨p, b, hp⟩ := NodeTable.exists_parent hi hnot
    exact ⟨p, b, hp, fun p' b' hp' => hf.uniqueParent i p b p' b' hp hp'⟩
  case rootTop =>
    intro r₁ h₁
    obtain rfl : r = r₁ := by simpa [hroot] using h₁
    exact ⟨⟨f, l, r', hre⟩, hnochild⟩
  case emptyKind => simp [hroot, hkind]
  case degenKind => simpa [hroot, hright] using (htwo r f l r' hre).2.symm
  case noNodes => simp [hroot]
  case reachable =>
    intro r₁ i h₁ hi
    obtain rfl : r = r₁ := by simpa [hroot] using h₁
    exact hf.reachable (fun j => (htop j).1) i hi

/-! ### A new parent -/

/-- `t'` is `t` with an internal node in the free entry `slot`. -/
structure NodeTable.NewParent (t t' : NodeTable) (slot : NodeIdx) (f : Wide) (l r : Option NodeIdx) : Prop where
  free : t.entry slot = none
  entry : ∀ i, t'.entry i = if i = slot then some (.internal f l r) else t.entry i

section
variable {t t' : NodeTable} {slot : NodeIdx} {f : Wide} {l r : Option NodeIdx} (h : t.NewParent t' slot f l r)
include h

theorem NodeTable.NewParent.child (i : NodeIdx) (b : Bit) :
    t'.child i b = if i = slot then (if b then r else l) else t.child i b := by
  by_cases hi : i = slot <;> simp [NodeTable.child, h.entry, hi, Node.left, Node.right]

theorem NodeTable.NewParent.freqAt_slot : t'.freqAt (some slot) = f.toNat := by
  simp [NodeTable.freqAt, h.entry, Node.freq]

theorem NodeTable.NewParent.freqAt_of_ne {i : Option NodeIdx} (hi : i ≠ some slot) : t'.freqAt i = t.freqAt i := by
  cases i with
  | none => rfl
  | some j =>
    have hj : j ≠ slot := by simpa using hi
    simp [NodeTable.freqAt, h.entry, hj]

/-- Every node valid before is valid still. -/
theorem NodeTable.NewParent.entry_ne_none {i : NodeIdx} (hi : t.entry i ≠ none) : t'.entry i ≠ none := by
  rw [h.entry]
  split
  · simp
  · exact hi

/-- The new parent is a root of the forest, and its children are roots no more. -/
theorem NodeTable.NewParent.top_iff (hf : t.Forest) (hl : l ≠ some slot) (hr : r ≠ some slot) (i : NodeIdx) :
    t'.Top i ↔ i = slot ∨ (t.Top i ∧ l ≠ some i ∧ r ≠ some i) := by
  have hslot : ∀ b, t.child slot b = none := fun b => by simp [NodeTable.child, h.free]
  by_cases hi : i = slot
  · subst hi
    have hno : ∀ p b, t.child p b ≠ some i := fun p b hp => (hf.childBelow p b i hp).2 h.free
    simp only [true_or, iff_true]
    refine ⟨by simp [h.entry], fun p b => ?_⟩
    rw [h.child]
    split
    · cases b <;> simp [hl, hr]
    · exact hno p b
  · simp only [NodeTable.Top, h.entry, h.child, hi, if_false, false_or]
    constructor
    · rintro ⟨hv, hc⟩
      refine ⟨⟨hv, fun p b hp => ?_⟩, by simpa using hc slot false, by simpa using hc slot true⟩
      have hps : p ≠ slot := by rintro rfl; simp [hslot] at hp
      exact hc p b (by simpa [hps] using hp)
    · rintro ⟨⟨hv, hc⟩, hli, hri⟩
      refine ⟨hv, fun p b => ?_⟩
      split
      · cases b <;> simp [hli, hri]
      · exact hc p b

/-- An arena stays a forest when two of its roots, or one, get a new parent above them of their total frequency. -/
theorem NodeTable.NewParent.forest (hf : t.Forest) (hslot : 256 ≤ slot.val) (hlr : l ≠ r)
    (hl : ∀ j, l = some j → j.val < slot.val ∧ t.Top j) (hr : ∀ j, r = some j → j.val < slot.val ∧ t.Top j)
    (hfreq : f.toNat = t.freqAt l + t.freqAt r) : t'.Forest := by
  have hside : ∀ (b : Bit) j, (if b then r else l) = some j → j.val < slot.val ∧ t.Top j := by
    intro b j hj
    cases b
    · exact hl j hj
    · exact hr j hj
  have hne : ∀ {c : Option NodeIdx}, (∀ j, c = some j → t.entry j ≠ none) → c ≠ some slot :=
    fun hc hs => hc slot hs h.free
  have hls : l ≠ some slot := hne fun j hj => (hl j hj).2.1
  have hrs : r ≠ some slot := hne fun j hj => (hr j hj).2.1
  constructor
  case leafLayout =>
    intro i sym g hi
    rw [h.entry] at hi
    split at hi
    · simp at hi
    · exact hf.leafLayout i sym g hi
  case internalLayout =>
    intro i g a c hi
    rw [h.entry] at hi
    split at hi
    · next he => rw [he]; exact hslot
    · exact hf.internalLayout i g a c hi
  case childBelow =>
    intro i b j hj
    rw [h.child] at hj
    split at hj
    · next he =>
      obtain ⟨hlt, htop⟩ := hside b j hj
      exact ⟨he ▸ hlt, h.entry_ne_none htop.1⟩
    · obtain ⟨hlt, hv⟩ := hf.childBelow i b j hj
      exact ⟨hlt, h.entry_ne_none hv⟩
  case uniqueParent =>
    intro i p b p' b' hp hp'
    rw [h.child] at hp hp'
    split at hp <;> split at hp'
    · next he he' =>
      refine ⟨he'.trans he.symm, ?_⟩
      cases b <;> cases b' <;> simp_all
    · exact absurd hp' ((hside b i hp).2.2 p' b')
    · exact absurd hp ((hside b' i hp').2.2 p b)
    · exact hf.uniqueParent i p b p' b' hp hp'
  case freqSum =>
    intro i g a c hi
    rw [h.entry] at hi
    split at hi
    · simp only [Option.some.injEq, Node.internal.injEq] at hi
      obtain ⟨rfl, rfl, rfl⟩ := hi
      rw [h.freqAt_of_ne hls, h.freqAt_of_ne hrs]
      exact hfreq
    · obtain ⟨ha, hc⟩ := child_of_internal hi
      have has : a ≠ some slot := hne fun j hj => (hf.childBelow i false j (ha.trans hj)).2
      have hcs : c ≠ some slot := hne fun j hj => (hf.childBelow i true j (hc.trans hj)).2
      rw [h.freqAt_of_ne has, h.freqAt_of_ne hcs]
      exact hf.freqSum i g a c hi

end

/-! ### The sum of the table -/

/-- 256 counters of 32 bits: their sum fits the 40 bits of a node's frequency (R31). -/
theorem total_lt (f : FreqTable) : f.total < 2 ^ 40 := by
  have hle : f.total ≤ (f.toList.map BitVec.toNat).length • (2 ^ 32 - 1) := by
    refine List.sum_le_card_nsmul _ _ fun x hx => ?_
    obtain ⟨w, -, rfl⟩ := List.mem_map.mp hx
    have := w.isLt
    omega
  simp only [List.length_map, Vector.length_toList, smul_eq_mul] at hle
  omega

/-- The sum of the frequencies in a priority structure. -/
def queueTotal (q : List Key) : Nat := (q.map fun k => k.f.toNat).sum

@[simp] theorem queueTotal_nil : queueTotal [] = 0 := rfl

@[simp] theorem queueTotal_cons (k : Key) (q : List Key) : queueTotal (k :: q) = k.f.toNat + queueTotal q := rfl

theorem queueTotal_perm {q q' : List Key} (h : q.Perm q') : queueTotal q = queueTotal q' := (h.map _).sum_eq

/-- The priority structure starts with the sum of the table (R104): a byte value left out has frequency 0. -/
theorem queueTotal_leafQueue (f : FreqTable) : queueTotal (leafQueue f) = f.total := by
  have htab : f.toList = (List.finRange 256).map fun b : Fin 256 => f[b.val] := by
    apply List.ext_getElem <;> simp
  rw [FreqTable.total, htab, leafQueue]
  induction List.finRange 256 with
  | nil => rfl
  | cons b bs ih =>
    by_cases hb : f[b.val] = 0
    · rw [List.filterMap_cons_none (by rw [if_pos hb])]
      simpa [hb] using ih
    · have hw : (leafFreq f b).toNat = (f[b.val]).toNat := by
        have := (f[b.val]).isLt
        simp only [leafFreq, BitVec.toNat_setWidth]
        omega
      rw [List.filterMap_cons_some (by rw [if_neg hb])]
      simpa [hw] using ih

theorem length_leafQueue_le (f : FreqTable) : (leafQueue f).length ≤ 256 := by
  simpa [leafQueue] using List.length_filterMap_le (l := List.finRange 256) _

/-- No node is placed twice. -/
theorem nodup_leafQueue_index (f : FreqTable) : ((leafQueue f).map Key.i).Nodup := by
  refine (nodup_leafQueue f).map_on fun k hk k' hk' hi => ?_
  obtain ⟨_, -, hf⟩ := (mem_leafQueue f k).1 hk
  obtain ⟨_, -, hf'⟩ := (mem_leafQueue f k').1 hk'
  cases k; cases k'
  simp_all

/-! ### The leaves (R104) -/

theorem leafArena_of_mem {f : FreqTable} {k : Key} (hk : k ∈ leafQueue f) :
    k.i.val < 256 ∧ (leafArena f).entry k.i = some (.leaf (BitVec.ofNat 8 k.i.val) k.f) := by
  obtain ⟨hlt, h0, hf⟩ := (mem_leafQueue f k).1 hk
  exact ⟨hlt, by rw [leafArena_entry, dif_pos hlt, if_neg h0, hf]⟩

/-- Every node of the leaf arena is in the priority structure. -/
theorem leafQueue_of_valid {f : FreqTable} {i : NodeIdx} (hi : (leafArena f).entry i ≠ none) :
    ∃ k ∈ leafQueue f, k.i = i := by
  by_cases hlt : i.val < 256
  · by_cases h0 : f[i.val] = 0
    · simp [leafArena_entry, hlt, h0] at hi
    · exact ⟨⟨(f[i.val]).setWidth 40, i⟩, (mem_leafQueue f _).2 ⟨hlt, h0, rfl⟩, rfl⟩
  · simp [leafArena_entry, hlt] at hi

theorem leafArena_ne_internal (f : FreqTable) (i : NodeIdx) (g : Wide) (l r : Option NodeIdx) :
    (leafArena f).entry i ≠ some (.internal g l r) := by
  intro hi
  obtain ⟨k, hk, rfl⟩ := leafQueue_of_valid (f := f) (i := i) (by simp [hi])
  simp [(leafArena_of_mem hk).2] at hi

@[simp] theorem leafArena_child (f : FreqTable) (i : NodeIdx) (b : Bit) : (leafArena f).child i b = none := by
  refine Option.eq_none_iff_forall_ne_some.2 fun j hj => ?_
  obtain ⟨g, l, r, he, -⟩ := child_eq_some hj
  exact leafArena_ne_internal f i g l r he

theorem leafArena_forest (f : FreqTable) : (leafArena f).Forest := by
  constructor
  case leafLayout =>
    intro i sym g hi
    obtain ⟨k, hk, rfl⟩ := leafQueue_of_valid (f := f) (i := i) (by simp [hi])
    obtain ⟨hlt, he⟩ := leafArena_of_mem hk
    simp only [hi, Option.some.injEq, Node.leaf.injEq] at he
    rw [he.1, BitVec.toNat_ofNat]
    omega
  case internalLayout => exact fun i g l r hi => absurd hi (leafArena_ne_internal f i g l r)
  case childBelow => simp
  case uniqueParent => simp
  case freqSum => exact fun i g l r hi => absurd hi (leafArena_ne_internal f i g l r)

/-- No leaf has a parent yet. -/
theorem leafArena_top_iff (f : FreqTable) (i : NodeIdx) : (leafArena f).Top i ↔ i ∈ (leafQueue f).map Key.i := by
  rw [List.mem_map]
  constructor
  · rintro ⟨hi, -⟩
    exact leafQueue_of_valid hi
  · rintro ⟨k, hk, rfl⟩
    exact ⟨by simp [(leafArena_of_mem hk).2], by simp⟩

/-! ### The invariant of the merge loop -/

/-- ExtractMin takes an element out of the structure and keeps the others (R107). -/
theorem extractMin_perm {q q' : List Key} {k : Key} (h : extractMin q = some (k, q')) : q.Perm (k :: q') := by
  obtain ⟨hk, rfl, -⟩ := extractMin_some h
  exact List.perm_cons_erase hk

/-- The state of the merge loop just before the node of index `n` is created (R108), for a table `f`: the nodes made
so far are a forest below `n`, and the priority structure holds its roots, each with its frequency. -/
structure Merge.Ok (f : FreqTable) (n : Nat) (m : Merge) : Prop where
  forest : m.node.Forest
  valid : ∀ i, 256 ≤ i.val → (m.node.entry i ≠ none ↔ i.val < n)
  twoChildren : ∀ i g l r, m.node.entry i = some (.internal g l r) → l ≠ none ∧ r ≠ none
  nodup : (m.queue.map Key.i).Nodup
  queue : ∀ i, i ∈ m.queue.map Key.i ↔ m.node.Top i
  freq : ∀ k ∈ m.queue, m.node.freqAt (some k.i) = k.f.toNat
  total : queueTotal m.queue = f.total
  length : m.queue.length + n = 256 + (leafQueue f).length

/-- Before the first iteration: the leaves alone (R104). -/
theorem merge_ok_init (f : FreqTable) : Merge.Ok f 256 { node := leafArena f, queue := leafQueue f } := by
  constructor
  case forest => exact leafArena_forest f
  case valid =>
    intro i hi
    rw [leafArena_entry, dif_neg (by omega)]
    simpa using hi
  case twoChildren => exact fun i g l r hi => absurd hi (leafArena_ne_internal f i g l r)
  case nodup => exact nodup_leafQueue_index f
  case queue => exact fun i => (leafArena_top_iff f i).symm
  case freq =>
    intro k hk
    simp [NodeTable.freqAt, (leafArena_of_mem hk).2, Node.freq]
  case total => exact queueTotal_leafQueue f
  case length => exact Nat.add_comm _ _

/-- The invariant does not depend on the order in which the structure is held. -/
theorem Merge.Ok.of_perm {f : FreqTable} {n : Nat} {t : NodeTable} {q q' : List Key} (hm : Merge.Ok f n ⟨t, q⟩)
    (h : q.Perm q') : Merge.Ok f n ⟨t, q'⟩ where
  forest := hm.forest
  valid := hm.valid
  twoChildren := hm.twoChildren
  nodup := (h.map _).nodup_iff.1 hm.nodup
  queue i := (h.map _).mem_iff.symm.trans (hm.queue i)
  freq k hk := hm.freq k (h.mem_iff.2 hk)
  total := (queueTotal_perm h).symm.trans hm.total
  length := h.length_eq ▸ hm.length

/-- What the structure holds lies below the free index, and is a root of the forest. -/
theorem Merge.Ok.queue_below {f : FreqTable} {n : Nat} {m : Merge} (hm : m.Ok f n) (hn : 256 ≤ n) {k : Key}
    (hk : k ∈ m.queue) : k.i.val < n ∧ m.node.Top k.i := by
  have htop := (hm.queue k.i).1 (List.mem_map_of_mem hk)
  refine ⟨?_, htop⟩
  by_cases h256 : 256 ≤ k.i.val
  · exact (hm.valid k.i h256).1 htop.1
  · omega

/-- One iteration gives two elements of the structure a new parent, which takes their place (R108, R109). -/
theorem mergeStep_newParent {slot : NodeIdx} {m m' : Merge} (hfree : m.node.entry slot = none)
    (h : mergeStep slot m = some m') :
    ∃ a c q, m.queue.Perm (a :: c :: q) ∧ m'.queue = { f := a.f + c.f, i := slot } :: q ∧
      m.node.NewParent m'.node slot (a.f + c.f) (some a.i) (some c.i) := by
  obtain ⟨a, c, q1, q, h1, h2, hq, hentry⟩ := mergeStep_some h
  exact ⟨a, c, q, (extractMin_perm h1).trans ((extractMin_perm h2).cons a), hq, hfree, hentry⟩

/-- One iteration keeps the invariant (R108, R109). -/
theorem mergeStep_keeps_ok {f : FreqTable} {slot : NodeIdx} {m m' : Merge} (hm₀ : m.Ok f slot.val)
    (hslot : 256 ≤ slot.val) (h : mergeStep slot m = some m') : m'.Ok f (slot.val + 1) := by
  have hfree : m.node.entry slot = none := by
    by_contra hn
    exact absurd ((hm₀.valid slot hslot).1 hn) (Nat.lt_irrefl _)
  obtain ⟨a, c, q, hperm, hq', hnew⟩ := mergeStep_newParent hfree h
  have hm : Merge.Ok f slot.val ⟨m.node, a :: c :: q⟩ := hm₀.of_perm hperm
  have ha := hm.queue_below hslot (k := a) (by simp)
  have hc := hm.queue_below hslot (k := c) (by simp)
  have hne : ∀ k ∈ a :: c :: q, k.i ≠ slot := fun k hk =>
    Fin.ne_of_val_ne (Nat.ne_of_lt (hm.queue_below hslot hk).1)
  have htotal := hm.total
  have hsum : (a.f + c.f).toNat = a.f.toNat + c.f.toNat := by
    have := total_lt f
    simp only [queueTotal_cons] at htotal
    rw [BitVec.toNat_add]
    omega
  have hnodup := hm.nodup
  simp only [List.map_cons, List.nodup_cons, List.mem_cons, not_or] at hnodup
  obtain ⟨⟨hac, haq⟩, hcq, hqnodup⟩ := hnodup
  constructor
  case forest =>
    refine hnew.forest hm.forest hslot (by simpa using hac) ?_ ?_ ?_
    · rintro _ ⟨⟩; exact ha
    · rintro _ ⟨⟩; exact hc
    · rw [hsum, hm.freq a (by simp), hm.freq c (by simp)]
  case valid =>
    intro i hi
    rw [hnew.entry]
    by_cases he : i = slot
    · simp [he]
    · have := Fin.val_ne_of_ne he
      rw [if_neg he, hm.valid i hi]
      omega
  case twoChildren =>
    intro i g l r hi
    rw [hnew.entry] at hi
    split at hi
    · simp only [Option.some.injEq, Node.internal.injEq] at hi
      obtain ⟨-, rfl, rfl⟩ := hi
      simp
    · exact hm.twoChildren i g l r hi
  case nodup =>
    rw [hq', List.map_cons, List.nodup_cons]
    refine ⟨fun hmem => ?_, hqnodup⟩
    obtain ⟨k, hk, hki⟩ := List.mem_map.1 hmem
    exact hne k (by simp [hk]) hki
  case queue =>
    intro i
    rw [hnew.top_iff hm.forest (by simpa using hne a (by simp)) (by simpa using hne c (by simp)), ← hm.queue, hq']
    simp only [List.map_cons, List.mem_cons, ne_eq, Option.some.injEq]
    constructor
    · rintro (rfl | hi)
      · exact .inl rfl
      · exact .inr ⟨.inr (.inr hi), fun e => haq (e ▸ hi), fun e => hcq (e ▸ hi)⟩
    · rintro (rfl | ⟨rfl | rfl | hi, hia, hic⟩)
      · exact .inl rfl
      · exact absurd rfl hia
      · exact absurd rfl hic
      · exact .inr hi
  case freq =>
    intro k hk
    rw [hq'] at hk
    rcases List.mem_cons.1 hk with rfl | hk
    · exact hnew.freqAt_slot
    · have hkq : k ∈ a :: c :: q := by simp [hk]
      rw [hnew.freqAt_of_ne (by simpa using hne k hkq)]
      exact hm.freq k hkq
  case total =>
    rw [hq', ← htotal]
    simp only [queueTotal_cons, hsum]
    omega
  case length =>
    have hlen := hm.length
    rw [hq']
    simp only [List.length_cons] at hlen ⊢
    omega

/-- When one element is left, it is the node made last: no node above it could be its parent (R110). -/
theorem Merge.Ok.root_index {f : FreqTable} {n : Nat} {m : Merge} {k : Key} (hm : m.Ok f n) (hk : m.queue = [k])
    (hlo : 256 < n) (hhi : n ≤ 511) : k.i.val + 1 = n := by
  obtain ⟨last, hlast⟩ : ∃ last : NodeIdx, last.val + 1 = n := ⟨⟨n - 1, by omega⟩, by simp only; omega⟩
  have htop : m.node.Top last := by
    refine ⟨(hm.valid last (by omega)).2 (by omega), fun p b hp => ?_⟩
    obtain ⟨g, l, r, he, -⟩ := child_eq_some hp
    have hlt := (hm.forest.childBelow p b last hp).1
    have hpn := (hm.valid p (hm.forest.internalLayout p g l r he)).1 (by simp [he])
    omega
  have hmem := (hm.queue last).2 htop
  simp only [hk, List.map_cons, List.map_nil, List.mem_singleton] at hmem
  rw [← hmem, hlast]

/-- The loop over the free indices from `n` on keeps what one iteration keeps, and ends when fewer than two elements
are left or no index is free. -/
theorem mergeLoop_keeps {P : Nat → Merge → Prop}
    (hstep : ∀ (slot : NodeIdx) m m', 256 ≤ slot.val → P slot.val m → mergeStep slot m = some m' →
      P (slot.val + 1) m')
    (slots : List NodeIdx) (n : Nat) (m : Merge) (hn : 256 ≤ n)
    (hslots : slots.map Fin.val = List.range' n (511 - n)) (hm : P n m) :
    ∃ n', P n' (mergeLoop slots m) ∧ ((mergeLoop slots m).queue.length < 2 ∨ 511 ≤ n') := by
  induction slots generalizing n m with
  | nil =>
    have hlen := congrArg List.length hslots
    rw [List.map_nil, List.length_nil, List.length_range'] at hlen
    exact ⟨n, hm, .inr (by omega)⟩
  | cons slot rest ih =>
    obtain ⟨d, hd⟩ : ∃ d, 511 - n = d + 1 := by
      have hlen := congrArg List.length hslots
      rw [List.length_map, List.length_cons, List.length_range'] at hlen
      exact ⟨rest.length, hlen.symm⟩
    rw [hd, List.range'_succ, List.map_cons, List.cons.injEq] at hslots
    obtain ⟨rfl, hrest⟩ := hslots
    cases hs : mergeStep slot m with
    | none =>
      have hloop : mergeLoop (slot :: rest) m = m := by simp [mergeLoop, hs]
      rw [hloop]
      exact ⟨slot.val, hm, .inl ((mergeStep_none_iff slot m).1 hs)⟩
    | some m' =>
      have hloop : mergeLoop (slot :: rest) m = mergeLoop rest m' := by simp [mergeLoop, hs]
      rw [hloop]
      exact ih (slot.val + 1) m' (by omega) (by rw [hrest]; congr 1; omega) (hstep slot m m' hn hm hs)

theorem internalSlots_val : internalSlots.map Fin.val = List.range' 256 255 := by
  apply List.ext_getElem <;> simp [internalSlots]

/-- The merge loop over all the leaves. -/
def mergeLeaves (f : FreqTable) : Merge := mergeLoop internalSlots { node := leafArena f, queue := leafQueue f }

/-- The merge loop ends with one element in the structure, the root, after one merge less than there are leaves
(R108, R110). -/
theorem mergeLeaves_ends {f : FreqTable} (h : 2 ≤ (leafQueue f).length) :
    ∃ k, (mergeLeaves f).queue = [k] ∧ (mergeLeaves f).Ok f (255 + (leafQueue f).length) := by
  obtain ⟨n, ⟨hok, hne⟩, hend⟩ := mergeLoop_keeps (P := fun n m => m.Ok f n ∧ m.queue ≠ [])
    (fun slot m m' h256 hm hs => ⟨mergeStep_keeps_ok hm.1 h256 hs, by
      obtain ⟨a, c, q1, q2, -, -, hq, -⟩ := mergeStep_some hs
      simp [hq]⟩)
    internalSlots 256 { node := leafArena f, queue := leafQueue f } (Nat.le_refl _) internalSlots_val
    ⟨merge_ok_init f, List.ne_nil_of_length_pos (by simp only; omega)⟩
  rw [← mergeLeaves] at hok hne hend
  have hpos := List.length_pos_of_ne_nil hne
  have hlen := hok.length
  have hmax := length_leafQueue_le f
  have hone : (mergeLeaves f).queue.length = 1 := by omega
  obtain ⟨k, hk⟩ := List.length_eq_one_iff.1 hone
  exact ⟨k, hk, by rwa [show 255 + (leafQueue f).length = n by omega]⟩

/-! ### The three forms of the result -/

/-- A tree of R32 whose root has the sum of `f` as its frequency. -/
def Tree.OkFor (t : Tree) (f : FreqTable) : Prop := t.Ok ∧ ∀ r, t.root = some r → t.node.freqAt (some r) = f.total

/-- No symbol: the empty tree (R105). -/
theorem emptyTree_okFor {f : FreqTable} (h : leafQueue f = []) :
    Tree.OkFor { node := leafArena f, root := none, kind := .empty } f := by
  refine ⟨Tree.ok_of_empty rfl rfl fun i => ?_, by simp⟩
  by_contra hi
  obtain ⟨k, hk, -⟩ := leafQueue_of_valid hi
  simp [h] at hk

/-- One symbol: a root above the sole leaf (R106). -/
theorem degenTree_okFor {f : FreqTable} {k : Key} (h : leafQueue f = [k]) :
    Tree.OkFor
      { node := (leafArena f).set 256 (some (.internal k.f (some k.i) none)), root := some 256, kind := .degen } f := by
  have hm := merge_ok_init f
  have hfree : (leafArena f).entry 256 = none := by simp [leafArena_entry]
  have hnew : (leafArena f).NewParent ((leafArena f).set 256 (some (.internal k.f (some k.i) none))) 256 k.f
      (some k.i) none := ⟨hfree, fun i => nodeEntry_set (leafArena f) 256 i _⟩
  have htop : ∀ i, (leafArena f).Top i ↔ i = k.i := fun i => by
    rw [leafArena_top_iff, h]; simp
  have hlt : k.i.val < 256 := (leafArena_of_mem (f := f) (by simp [h])).1
  have hki : k.i ≠ 256 := fun e => by simp [e] at hlt
  have hforest := hnew.forest hm.forest (Nat.le_refl _) (by simp)
    (by rintro _ ⟨⟩; exact ⟨hlt, (htop _).2 rfl⟩) (by simp)
    (by rw [hm.freq k (by simp [h])]; rfl)
  refine ⟨hforest.ok (r := 256) rfl (by simp) (Nat.le_refl _) (fun i => ?_) (fun i g l r hi => ?_) (fun _ => ?_), ?_⟩
  · rw [hnew.top_iff hm.forest (by simpa using hki) (by simp), htop]
    exact ⟨fun hi => hi.elim id fun hk => absurd (congrArg some hk.1.symm) hk.2.1, .inl⟩
  · rw [hnew.entry] at hi
    split at hi
    · next he =>
      simp only [Option.some.injEq, Node.internal.injEq] at hi
      obtain ⟨-, rfl, rfl⟩ := hi
      simp [he]
    · next he =>
      obtain ⟨hl, hr⟩ := hm.twoChildren i g l r hi
      simp [hl, hr, Ne.symm he]
  · exact ⟨k.i, by rw [hnew.child]; simp, hlt⟩
  · rintro _ ⟨⟩
    rw [hnew.freqAt_slot, ← hm.total]
    simp [h]

/-- Two symbols or more: the last node merged is the root (R108, R110). -/
theorem fullTree_okFor {f : FreqTable} (h : 2 ≤ (leafQueue f).length) :
    Tree.OkFor
      { node := (mergeLeaves f).node, root := (mergeLeaves f).queue.head?.map Key.i, kind := .full } f := by
  obtain ⟨k, hk, hm⟩ := mergeLeaves_ends h
  generalize mergeLeaves f = m at hk hm
  have hmax := length_leafQueue_le f
  have htop : ∀ i, m.node.Top i ↔ i = k.i := fun i => by
    rw [← hm.queue i]; simp [hk]
  have hroot : 256 ≤ k.i.val := by
    have := hm.root_index hk (by omega) (by omega)
    omega
  refine ⟨hm.forest.ok (r := k.i) (by simp [hk]) (by simp) hroot htop (fun i g l r hi => ?_) (by simp), ?_⟩
  · simpa using hm.twoChildren i g l r hi
  · intro r hr
    obtain rfl : k.i = r := by simpa [hk] using hr
    rw [hm.freq k (by simp [hk]), ← hm.total]
    simp [hk]

/-- The tree of any table meets the invariants, and its root has the sum of the table (R32). -/
theorem buildTree_okFor (f : FreqTable) : (buildTree f).OkFor f := by
  rcases buildTree_cases f with ⟨hq, ht⟩ | ⟨k, hq, ht⟩ | ⟨hq, ht⟩
  · exact ht ▸ emptyTree_okFor hq
  · exact ht ▸ degenTree_okFor hq
  · exact ht ▸ fullTree_okFor hq

/-! ### Reset (R43) -/

theorem total_zeroFreq : zeroFreq.total = 0 := by
  simp only [FreqTable.total, zeroFreq, Vector.toList_replicate, List.map_replicate, List.sum_replicate]
  rfl

theorem reset_tree_ok : State.reset.tree.Ok :=
  Tree.ok_of_empty rfl rfl fun i => by simp [State.tree, State.reset, NodeTable.entry]

/-- A table without a code meets R33 and R34. -/
theorem CodeTable.ok_of_absent {c : CodeTable} (h : ∀ b, c.entry b = none) : c.Ok :=
  ⟨by simp [h], by simp [h]⟩

/-- Reset is allowed in every state, BUSY too (R230). -/
theorem hostAct_reset (s : State) : hostAct .reset s = .next (resetBlock s) := by
  simp [hostAct, allowedWhileBusy, HostAction.wf, actOn]

/-! ### The obligations -/

/-- Settles O11: the reset action is never refused, and its state is that of R43. -/
theorem resetLeavesEmptyBlock : Obligations.ResetLeavesEmptyBlock := by
  intro s
  have hcode : (resetBlock s).code.Ok := CodeTable.ok_of_absent entry_absentCodes
  have htotal : (resetBlock s).freq.total = (resetBlock s).size.toNat := by
    rw [show (resetBlock s).freq = zeroFreq from rfl, total_zeroFreq]
    rfl
  exact ⟨resetBlock s, hostAct_reset s, rfl, by simp [resetBlock, State.reset, zeroFreq], rfl, rfl, rfl, rfl, rfl, rfl,
    rfl, rfl, rfl, by simp [resetBlock, State.reset], by simp [resetBlock, State.reset], rfl, rfl, rfl, rfl, rfl, rfl,
    reset_tree_ok, hcode, htotal⟩

/-- Settles O21, by the invariant of the merge loop. -/
theorem tbuildTreeInvariants : Obligations.TbuildTreeInvariants :=
  ⟨reset_tree_ok, fun s => ⟨_, exec_eq .tbuild s, buildTree_okFor s.freq⟩⟩

end Sys2Proof.Machine

/-! Proofs about the upper bits of the input carrier (20_memory.md R58): the pseudocode of FEXTRACT, of BUNPACK and of
DECODE reads bit 0 of the carrier's bytes below CIN_LEN and nothing else of CIN, so it commutes with putting another
memory with the same bits in CIN's place. -/

namespace Sys2Proof.Machine

/-! ### Another carrier memory in the place of CIN -/

/-- The state with the carrier memory `m` in CIN; CIN_LEN stays. -/
def State.withCin (s : State) (m : Memory) : State := { s with cin := m }

/-- The end of a command's pseudocode with the carrier memory `m` in CIN. -/
def BodyEnd.withCin (r : BodyEnd) (m : Memory) : BodyEnd :=
  match r with
  | .done s => .done (s.withCin m)
  | .raised e s => .raised e (s.withCin m)

/-- `m` agrees with CIN in bit 0 of every byte below CIN_LEN. -/
def State.SameCarrierBits (s : State) (m : Memory) : Prop :=
  ∀ a, a < s.cinLen.toNat → extractBit (m.read a) = extractBit (s.cin.read a)

/-- Which memories have the bits of CIN is a matter of CIN and CIN_LEN alone. -/
theorem State.SameCarrierBits.of_cin {s t : State} {m : Memory} (h : s.SameCarrierBits m) (hcin : t.cin = s.cin)
    (hlen : t.cinLen = s.cinLen) : t.SameCarrierBits m := by
  unfold State.SameCarrierBits
  rw [hcin, hlen]
  exact h

/-- Ending a command reads nothing of CIN (R36, R210). -/
theorem finish_withCin (r : BodyEnd) (m : Memory) : finish (r.withCin m) = (finish r).withCin m := by
  cases r with
  | done s => rfl
  | raised e s => cases e <;> rfl

/-- A command commutes with the change of carrier memory when its pseudocode does. -/
theorem exec_withCin {i : Instr} {s t : State} {m : Memory}
    (hbody : bodyOf i ((accept s).withCin m) = (bodyOf i (accept s)).withCin m) (h : exec i s = .next t) :
    exec i (s.withCin m) = .next (t.withCin m) := by
  rw [exec_next_iff] at h ⊢
  rw [h, ← finish_withCin, ← hbody]
  rfl

/-! ### What is read of the carrier -/

/-- `byte AND 1` is the extracted bit as a number (R58). -/
theorem and_one_eq_extractBit (c : Byte) : c &&& 1 = if extractBit c then 1 else 0 := by
  rw [extractBit, show (1 : Byte) = 1#8 from rfl, BitVec.and_one_eq_setWidth_ofBool_getLsbD]
  cases c.getLsbD 0 <;> rfl

/-- FEXTRACT's pseudocode as one expression over the state it starts in (R169). -/
theorem fextractBody_eq (s : State) : fextractBody s =
    if s.cinLen.toNat < 86 then .raised .corruptHeader (s.withTable zeroFreq 0)
    else if s.frameField 0 = 0 then .done ((s.withTable zeroFreq 0).setEmpty (s.frameField 0))
    else if s.cinLen.toNat < 8278 then .raised .corruptHeader (s.withTable zeroFreq 0)
    else .done ((s.withTable zeroFreq 0).withTable s.frameTable (s.frameField 0)) := rfl

/-- BUNPACK's pseudocode as one expression over the state it starts in (R140). -/
theorem bunpackBody_eq (s : State) : bunpackBody s =
    if s.size = 0 then .done (((s.setEmpty s.size).withDst [] 0).withRdbits 0)
    else s.root.elim (.raised .invalidCode (((s.setEmpty s.size).withDst [] 0).withRdbits 0)) fun root =>
      endWalk (((s.setEmpty s.size).withDst [] 0).withRdbits 0)
        (walkLoop s.tree root s.payloadBit s.payloadCapacity 0 root s.size.toNat []) := by
  rcases bunpackBody_cases s with ⟨hz, hb⟩ | ⟨hz, hr, hb⟩ | ⟨root, hz, hr, hb⟩
  · rw [hb, if_pos hz]
  · rw [hb, if_neg hz, hr, Option.elim_none]
  · rw [hb, if_neg hz, hr, Option.elim_some]

/-- FEXTRACT writes neither CIN nor CIN_LEN (R61). -/
theorem fextractBody_done_cin {s t : State} (h : fextractBody s = .done t) : t.cin = s.cin ∧ t.cinLen = s.cinLen := by
  rcases fextractBody_cases s with ⟨-, hs⟩ | ⟨-, -, hs⟩ | ⟨-, -, hs⟩
  · exact absurd (hs.symm.trans h) (by simp)
  · rw [← BodyEnd.done.inj (hs.symm.trans h)]
    simp
  · rw [← BodyEnd.done.inj (hs.symm.trans h)]
    simp

/-- The end of the walker's loop writes nothing that depends on CIN. -/
theorem endWalk_withCin (s : State) (m : Memory) (w : WalkEnd) :
    endWalk (s.withCin m) w = (endWalk s w).withCin m := by
  cases w <;> rfl

section
variable {s : State} {m : Memory} (h : s.SameCarrierBits m)
include h

theorem frameBit_withCin {k : Nat} (hk : 54 + k < s.cinLen.toNat) : (s.withCin m).frameBit k = s.frameBit k := h _ hk

theorem payloadBit_withCin {p : Nat} (hp : 8278 + p < s.cinLen.toNat) :
    (s.withCin m).payloadBit p = s.payloadBit p := h _ hp

theorem frameField_withCin {k0 : Nat} (hk : 86 + k0 ≤ s.cinLen.toNat) :
    (s.withCin m).frameField k0 = s.frameField k0 := by
  unfold State.frameField
  congr 1
  refine List.map_congr_left fun j hj => frameBit_withCin h ?_
  have := List.mem_range.1 hj
  omega

theorem frameTable_withCin (hlen : 8278 ≤ s.cinLen.toNat) : (s.withCin m).frameTable = s.frameTable := by
  unfold State.frameTable
  congr 1
  funext i
  refine frameField_withCin h ?_
  simp only [Config.sizeBits_eq, Config.freqBits_eq]
  omega

/-! ### The pseudocode of the three commands -/

/-- FEXTRACT reads the size field and the table only where its two tests have found them whole (R169, R173). -/
theorem fextractBody_withCin : fextractBody (s.withCin m) = (fextractBody s).withCin m := by
  have hlen : (s.withCin m).cinLen = s.cinLen := rfl
  rw [fextractBody_eq, fextractBody_eq, hlen]
  by_cases h86 : s.cinLen.toNat < 86
  · rw [if_pos h86, if_pos h86]
    rfl
  · rw [if_neg h86, if_neg h86, frameField_withCin h (by omega)]
    by_cases hz : s.frameField 0 = 0
    · rw [if_pos hz, if_pos hz]
      rfl
    · rw [if_neg hz, if_neg hz]
      by_cases h8278 : s.cinLen.toNat < 8278
      · rw [if_pos h8278, if_pos h8278]
        rfl
      · rw [if_neg h8278, if_neg h8278, frameTable_withCin h (by omega)]
        rfl

/-- The walker's loop reads no bit at or beyond CIN_LEN (R148). -/
theorem walkLoop_withCin (root : NodeIdx) (need : Nat) :
    walkLoop s.tree root (s.withCin m).payloadBit s.payloadCapacity 0 root need [] =
      walkLoop s.tree root s.payloadBit s.payloadCapacity 0 root need [] := by
  refine walkLoop_congr (fun p _ hp => payloadBit_withCin h ?_) root need []
  simp only [State.payloadCapacity, Config.payBase_eq] at hp
  omega

/-- BUNPACK reads of CIN what the walker's loop reads (R140). -/
theorem bunpackBody_withCin : bunpackBody (s.withCin m) = (bunpackBody s).withCin m := by
  have hsize : (s.withCin m).size = s.size := rfl
  have hroot : (s.withCin m).root = s.root := rfl
  rw [bunpackBody_eq, bunpackBody_eq, hsize, hroot]
  by_cases hz : s.size = 0
  · rw [if_pos hz, if_pos hz]
    rfl
  · rw [if_neg hz, if_neg hz]
    cases s.root with
    | none => rfl
    | some root =>
      rw [Option.elim_some, Option.elim_some, ← endWalk_withCin]
      exact congrArg _ (walkLoop_withCin h root s.size.toNat)

/-- DECODE is FEXTRACT, and then BUNPACK on a tree that TBUILD makes without the carrier (R184). -/
theorem decodeBody_withCin : decodeBody (s.withCin m) = (decodeBody s).withCin m := by
  have hx : fextractBody (((s.withCin m).withDst [] 0).withRdbits 0) =
      (fextractBody ((s.withDst [] 0).withRdbits 0)).withCin m :=
    fextractBody_withCin (s := (s.withDst [] 0).withRdbits 0) h
  unfold decodeBody
  rw [hx]
  cases ht : fextractBody ((s.withDst [] 0).withRdbits 0) with
  | raised e t => rfl
  | done t =>
    obtain ⟨hcin, hlen⟩ := fextractBody_done_cin ht
    have hsame : (tbuildBody t).SameCarrierBits m := h.of_cin hcin hlen
    have hsize : (t.withCin m).size = t.size := rfl
    simp only [BodyEnd.withCin, andThen_done, hsize]
    by_cases hz : t.size = 0
    · rw [if_pos hz, if_pos hz]
    · rw [if_neg hz, if_neg hz]
      exact bunpackBody_withCin hsame

end

/-! ### The obligation -/

/-- Settles O45: each of the three commands commutes with the change of carrier memory, since its pseudocode does. -/
theorem upperCarrierBitsDoNotMatter : Obligations.UpperCarrierBitsDoNotMatter := by
  refine ⟨fun s a => (and_one_eq_extractBit (s.cin.read a)).symm, fun i s t m hi hsame ht => ?_⟩
  have h : (accept s).SameCarrierBits m := hsame
  refine exec_withCin ?_ ht
  rcases hi with rfl | rfl | rfl
  · exact fextractBody_withCin h
  · exact bunpackBody_withCin h
  · exact decodeBody_withCin h

end Sys2Proof.Machine

/-! Proofs about which command bytes are reserved (30_encoding.md R74) and what a reserved byte does (60_exceptions.md
R207). -/

namespace Sys2Proof

/-- RSV is the upper half of the byte, so it is zero exactly below `0x10` (R70). -/
theorem splitWord_rsv_eq_zero_iff (c : Byte) : (splitWord c).rsv = 0 ↔ c.toNat < 16 := by
  have hrsv : (splitWord c).rsv.toNat = c.toNat / 16 := by
    have := c.isLt
    rw [splitWord, BitVec.extractLsb'_toNat, Nat.shiftRight_eq_div_pow]
    omega
  rw [BitVec.toNat_eq, hrsv]
  simp [Nat.div_eq_zero_iff]

/-- OP is the lower half of the byte (R70). -/
@[simp] theorem toNat_splitWord_op (c : Byte) : (splitWord c).op.toNat = c.toNat % 16 := by
  simp [splitWord]

/-- The opcode map has rows 1 to 9 and no other (R72). -/
theorem decodeOp_eq_none_iff : ∀ op : BitVec 4, decodeOp op = none ↔ op.toNat = 0 ∨ 9 < op.toNat := by decide

/-- The reserved bytes: RSV is not zero, or OP selects no row of the opcode map (R74). -/
theorem exists_decode_eq_error_iff (c : Byte) : (∃ e, decode c = .error e) ↔ c.toNat = 0 ∨ 9 < c.toNat := by
  have hop := decodeOp_eq_none_iff (splitWord c).op
  rw [toNat_splitWord_op] at hop
  unfold decode
  by_cases hrsv : (splitWord c).rsv = 0
  · have hlt := (splitWord_rsv_eq_zero_iff c).1 hrsv
    rw [Nat.mod_eq_of_lt hlt] at hop
    rw [if_pos hrsv, ← hop]
    cases decodeOp (splitWord c).op <;> simp
  · have hge := mt (splitWord_rsv_eq_zero_iff c).2 hrsv
    rw [if_neg hrsv]
    exact iff_of_true ⟨_, rfl⟩ (by omega)

end Sys2Proof

namespace Sys2Proof.Machine

/-- A byte the decoder refuses is answered by the illegal command, whatever the reason (R74). -/
theorem issue_of_decode_error {c : Byte} {e : ReservedWord} (h : decode c = .error e) (s : State) :
    issue c s = .next (illegalCommand s) := by
  rw [issue, h]

/-- The illegal command writes the three parts of STATUS and nothing else (R207). -/
theorem illegalCommand_eq (s : State) :
    illegalCommand s = { s with status := { state := .error, err := some .illegalCommand, empty := false } } := rfl

/-- Settles O5: the decoder refuses exactly the reserved bytes, and a refused byte gives the illegal command. -/
theorem reservedByteIsIllegalCommand : Obligations.ReservedByteIsIllegalCommand := by
  refine ⟨exists_decode_eq_error_iff, rfl, fun s c hc => ?_⟩
  obtain ⟨e, he⟩ := (exists_decode_eq_error_iff c).2 hc
  rw [issue_of_decode_error he, illegalCommand_eq]

end Sys2Proof.Machine

/-! Proofs about the value of a 32-bit field (00_scope.md R9, 30_encoding.md R81): the shift-and-or of R81 is a sum of
weighted bits, and a carrier can hold any field. -/

namespace Sys2Proof.Machine

/-! ### The value as a sum of weights -/

/-- The sum of the weights of the set elements of a sequence, where the last element weighs 1. -/
def weightSum (bs : List Bit) : Nat :=
  ((List.range bs.length).map fun j => if bs.getD j false then 2 ^ (bs.length - 1 - j) else 0).sum

@[simp] theorem weightSum_nil : weightSum [] = 0 := rfl

@[simp] theorem weightSum_cons (b : Bit) (bs : List Bit) :
    weightSum (b :: bs) = (if b then 2 ^ bs.length else 0) + weightSum bs := by
  rw [weightSum, List.length_cons, List.range_succ_eq_map, List.map_cons, List.sum_cons, List.map_map]
  congr 1
  refine congrArg List.sum (List.map_congr_left fun j _ => ?_)
  rw [Function.comp_apply, List.getD_cons_succ, show bs.length + 1 - 1 - (j + 1) = bs.length - 1 - j by omega]

/-- One shift-and-or doubles the value and takes the new bit in, as long as bit 31 is not set. -/
theorem toNat_shiftIn {v : Word} (b : Bit) (hv : v.toNat < 2 ^ 31) :
    ((v <<< 1) ||| (if b then 1 else 0)).toNat = 2 * v.toNat + b.toNat := by
  have hbit : (if b then 1 else 0 : Word).toNat = b.toNat := by cases b <;> rfl
  have hshift : (v <<< 1).toNat = v.toNat <<< 1 := by
    rw [BitVec.toNat_shiftLeft, Nat.mod_eq_of_lt]
    rw [Nat.shiftLeft_eq]
    omega
  rw [BitVec.toNat_or, hbit, hshift, ← Nat.shiftLeft_add_eq_or_of_lt (Bool.toNat_lt b), Nat.shiftLeft_eq]
  omega

/-- The shift-and-or of R81 adds the weights to the shifted start value, as long as nothing is shifted out. -/
theorem toNat_foldField (bs : List Bit) (v : Word) (hv : (v.toNat + 1) * 2 ^ bs.length ≤ 2 ^ 32) :
    (bs.foldl (fun (v : Word) (b : Bit) => (v <<< 1) ||| (if b then 1 else 0)) v).toNat =
      v.toNat * 2 ^ bs.length + weightSum bs := by
  induction bs generalizing v with
  | nil => simp
  | cons b bs ih =>
    rw [List.length_cons, Nat.pow_succ] at hv
    have hpos : 0 < 2 ^ bs.length := Nat.two_pow_pos _
    have hfree : v.toNat < 2 ^ 31 := by nlinarith
    have hb : b.toNat ≤ 1 := Bool.toNat_le b
    rw [List.foldl_cons, ih _ (by rw [toNat_shiftIn b hfree]; nlinarith), toNat_shiftIn b hfree, weightSum_cons,
      List.length_cons, Nat.pow_succ]
    cases b <;> simp <;> ring

/-- Element `j` of 32 bits has the weight `2^(31 − j)` (R81). -/
theorem toNat_val32 {bs : List Bit} (h : bs.length = 32) :
    (val32 bs).toNat = ((List.range 32).map fun j => if bs.getD j false then 2 ^ (31 - j) else 0).sum := by
  rw [val32, toNat_foldField bs 0 (by rw [h]; decide), weightSum, h]
  simp

/-! ### The field of a carrier -/

/-- The value of a field of the carrier is the sum of its bits' weights (R81). -/
theorem toNat_frameField (s : State) (k0 : Nat) : (s.frameField k0).toNat =
    ((List.range 32).map fun j => if s.frameBit (k0 + j) then 2 ^ (31 - j) else 0).sum := by
  rw [State.frameField, toNat_val32 (by simp)]
  refine congrArg List.sum (List.map_congr_left fun j hj => ?_)
  have hlt : j < 32 := List.mem_range.1 hj
  simp [hlt]

/-- A carrier that holds `v` in the field at frame bit `k0`: its other bytes are 0. -/
def fieldCarrier (v : Word) (k0 : Nat) : List Byte := List.replicate (54 + k0) 0 ++ (bits32 v).map (embedBit 0)

theorem frameBit_fieldCarrier (s : State) (v : Word) (k0 : Nat) {j : Nat} (hj : j < 32) :
    (s.withCin (Memory.ofBytes (fieldCarrier v k0))).frameBit (k0 + j) = v.getLsbD (31 - j) := by
  have hread : (Memory.ofBytes (fieldCarrier v k0)).read (54 + (k0 + j)) = embedBit 0 (v.getLsbD (31 - j)) := by
    rw [read_ofBytes (by simp [fieldCarrier]; omega)]
    simp [fieldCarrier, ← Nat.add_assoc, getElem_bits32]
  rw [State.frameBit, State.carrierBit, Config.hdrLen_eq, State.withCin, hread, extractBit_embedBit]

theorem frameField_fieldCarrier (s : State) (v : Word) (k0 : Nat) :
    (s.withCin (Memory.ofBytes (fieldCarrier v k0))).frameField k0 = v := by
  have hbits : ((List.range 32).map fun j => (s.withCin (Memory.ofBytes (fieldCarrier v k0))).frameBit (k0 + j)) =
      bits32 v :=
    List.map_congr_left fun j hj => frameBit_fieldCarrier s v k0 (List.mem_range.1 hj)
  rw [State.frameField, hbits, val32_bits32]

/-- Settles O32: the shift-and-or is the inverse of `bits32` and the weighted sum, of any carrier's bits too. -/
theorem fieldBitOrder : Obligations.FieldBitOrder := by
  refine ⟨fun v => ⟨length_bits32 v, fun j hj => ?_, val32_bits32 v⟩, fun x hx => ⟨bits32_val32 hx, toNat_val32 hx⟩,
    fun s k0 => ?_, fun v k0 => ⟨_, frameField_fieldCarrier State.reset v k0⟩⟩
  · have hlt : j < (bits32 v).length := by rwa [length_bits32]
    rw [List.getElem?_eq_getElem hlt, getElem_bits32]
  · rw [toNat_frameField]
    refine congrArg List.sum (List.map_congr_left fun j _ => ?_)
    rw [State.frameBit, State.carrierBit, Config.hdrLen_eq, Nat.add_assoc]

end Sys2Proof.Machine

/-! Proofs about the frequency counter (40_tree_builder.md R101): a counter below 2^32 is the number of occurrences, and
the counters add up to the length of the file. -/

namespace Sys2Proof.Machine

/-- The entries of a table in the order of the byte values. -/
theorem freqTable_toList (f : FreqTable) : f.toList = (List.finRange 256).map fun b : Fin 256 => f[b.val] := by
  apply List.ext_getElem <;> simp

theorem total_eq_sum (f : FreqTable) : f.total = ∑ b : Fin 256, (f[b.val]).toNat := by
  rw [FreqTable.total, freqTable_toList, List.map_map, Fin.sum_univ_def]
  rfl

/-- No counter wraps when the sequence is shorter than 2^32 (R101). -/
theorem toNat_countBytes {bs : List Byte} (h : bs.length < 2 ^ 32) (c : Byte) :
    ((countBytes bs)[c.toNat]).toNat = bs.count c := by
  have hle : bs.count c ≤ bs.length := List.count_le_length
  have hentry : (countBytes bs)[c.toNat] = BitVec.ofNat 32 (bs.count c) := by
    simp [countBytes, getElem_foldl_countByte, zeroFreq]
  rw [hentry, BitVec.toNat_ofNat]
  exact Nat.mod_eq_of_lt (by omega)

/-- Every byte of a sequence is counted once, under its own value. -/
theorem sum_count_eq_length (bs : List Byte) : ∑ b : Fin 256, bs.count (BitVec.ofFin b) = bs.length := by
  have hmap : ∀ b : Fin 256, bs.count (BitVec.ofFin b) =
      Multiset.count b (bs.map BitVec.toFin : Multiset (Fin 256)) := by
    intro b
    rw [Multiset.coe_count]
    exact (List.count_map_of_injective bs BitVec.toFin (fun _ _ => BitVec.eq_of_toFin_eq) (BitVec.ofFin b)).symm
  rw [Finset.sum_congr rfl fun b _ => hmap b, Multiset.sum_count_eq_card fun b _ => Finset.mem_univ b]
  simp

theorem total_countBytes {bs : List Byte} (h : bs.length < 2 ^ 32) : (countBytes bs).total = bs.length := by
  rw [total_eq_sum, ← sum_count_eq_length]
  exact Finset.sum_congr rfl fun b _ => toNat_countBytes h (BitVec.ofFin b)

/-- FCOUNT's end state, field by field (R101). -/
theorem exec_fcount_eq (s : State) : exec .fcount s = .next { s with
    freq := countBytes s.srcBytes, size := s.srcLen,
    status := { state := .done, err := none, empty := s.srcLen == 0 } } := rfl

/-- Settles O13: the length register bounds the number of bytes, so no counter wraps. -/
theorem fcountCountsBytes : Obligations.FcountCountsBytes := by
  refine ⟨rfl, fun s => ⟨_, exec_fcount_eq s, rfl, ?_⟩⟩
  have hlen : s.srcBytes.length = s.srcLen.toNat := length_bytes _ _
  have hlt : s.srcBytes.length < 2 ^ 32 := hlen ▸ s.srcLen.isLt
  exact ⟨toNat_countBytes hlt, rfl, (total_countBytes hlt).trans hlen,
    ⟨rfl, rfl, rfl, rfl, rfl, rfl, rfl, rfl, rfl, rfl⟩, ⟨rfl, rfl, rfl⟩, rfl,
    ⟨rfl, rfl⟩, ⟨rfl, rfl⟩, ⟨rfl, rfl⟩, rfl⟩

end Sys2Proof.Machine

/-! Proofs about ExtractMin and the order of its keys (40_tree_builder.md R107). -/

namespace Sys2Proof.Machine

/-- ExtractMin fails on the empty structure only. -/
theorem extractMin_eq_none_iff (q : List Key) : extractMin q = none ↔ q = [] := by
  cases q <;> simp [extractMin]

/-- Two keys of distinct indices are never tied. -/
theorem Key.before_iff_not_before {a b : Key} (h : a.i ≠ b.i) : a.before b = true ↔ b.before a = false := by
  have hi := Fin.val_ne_of_ne h
  rw [← Bool.not_eq_true, Key.before_iff, Key.before_iff]
  simp only [BitVec.lt_def, BitVec.toNat_eq, Fin.lt_def]
  omega

/-- At equal frequency a leaf, whose index is below 256, precedes an internal node. -/
theorem Key.leaf_before_internal {a b : Key} (hf : a.f = b.f) (ha : a.i.val < 256) (hb : 256 ≤ b.i.val) :
    a.before b = true :=
  (Key.before_iff a b).2 (.inr ⟨hf, Nat.lt_of_lt_of_le ha hb⟩)

/-- Settles O17, by what ExtractMin takes out and what it keeps. -/
theorem extractMinTakesSmallestKey : Obligations.ExtractMinTakesSmallestKey := by
  refine ⟨fun q q' k h => ⟨extractMin_perm h, ?_⟩, extractMin_eq_none_iff, Key.before_iff,
    fun a b => Key.before_iff_not_before, fun a b => Key.leaf_before_internal⟩
  obtain ⟨-, -, hmin⟩ := extractMin_some h
  exact hmin

end Sys2Proof.Machine

/-! Proofs about the tree TBUILD makes (40_tree_builder.md R104 to R110, R112): its leaves, the forms of the result by
the number of symbols, and the two nodes each merge joins. -/

namespace Sys2Proof.Machine

/-- TBUILD's end state, field by field (R103). -/
theorem exec_tbuild_eq (s : State) : exec .tbuild s = .next { s with
    node := (buildTree s.freq).node, root := (buildTree s.freq).root, tkind := (buildTree s.freq).kind,
    status := { state := .done, err := none, empty := false } } := rfl

/-! ### The number of symbols -/

/-- The priority structure starts with one element per symbol (R104). -/
theorem length_leafQueue (f : FreqTable) : (leafQueue f).length = f.symbols := by
  rw [FreqTable.symbols, freqTable_toList, leafQueue]
  induction List.finRange 256 with
  | nil => rfl
  | cons b bs ih =>
    by_cases hb : f[b.val] = 0
    · rw [List.filterMap_cons_none (by rw [if_pos hb]), List.map_cons, List.filter_cons_of_neg (by simpa using hb), ih]
    · rw [List.filterMap_cons_some (by rw [if_neg hb]), List.map_cons, List.filter_cons_of_pos (by simpa using hb),
        List.length_cons, List.length_cons, ih]

theorem buildTree_kind_eq_degen_iff (f : FreqTable) : (buildTree f).kind = .degen ↔ f.symbols = 1 := by
  rw [← length_leafQueue]
  rcases buildTree_cases f with ⟨hq, ht⟩ | ⟨k, hq, ht⟩ | ⟨hq, ht⟩
  · simp [hq, ht]
  · simp [hq, ht]
  · rw [ht]
    exact iff_of_false (by simp) (by omega)

theorem buildTree_of_no_symbol {f : FreqTable} (h : f.symbols = 0) :
    buildTree f = { node := leafArena f, root := none, kind := .empty } := by
  rw [← length_leafQueue, List.length_eq_zero_iff] at h
  rw [buildTree, h]

theorem buildTree_of_two_symbols {f : FreqTable} (h : 2 ≤ f.symbols) : buildTree f =
    { node := (mergeLeaves f).node, root := (mergeLeaves f).queue.head?.map Key.i, kind := .full } := by
  rw [← length_leafQueue] at h
  rcases buildTree_cases f with ⟨hq, -⟩ | ⟨k, hq, -⟩ | ⟨-, ht⟩
  · simp [hq] at h
  · simp [hq] at h
  · exact ht

/-! ### The leaves (R104) -/

/-- One iteration changes no entry below the node it makes. -/
theorem mergeStep_entry_of_lt {slot i : NodeIdx} {m m' : Merge} (h : mergeStep slot m = some m')
    (hi : i.val < slot.val) : m'.node.entry i = m.node.entry i := by
  obtain ⟨a, c, q1, q2, -, -, -, hentry⟩ := mergeStep_some h
  rw [hentry, if_neg (Fin.ne_of_val_ne (Nat.ne_of_lt hi))]

theorem mergeLeaves_entry_of_lt (f : FreqTable) {i : NodeIdx} (hi : i.val < 256) :
    (mergeLeaves f).node.entry i = (leafArena f).entry i := by
  obtain ⟨-, h, -⟩ := mergeLoop_keeps (P := fun _ m => m.node.entry i = (leafArena f).entry i)
    (fun slot m m' hslot hm hs => (mergeStep_entry_of_lt hs (Nat.lt_of_lt_of_le hi hslot)).trans hm)
    internalSlots 256 { node := leafArena f, queue := leafQueue f } (Nat.le_refl _) internalSlots_val rfl
  exact h

/-- Below 256 the arena holds the leaves as they were placed (R104). -/
theorem buildTree_entry_of_lt (f : FreqTable) {i : NodeIdx} (hi : i.val < 256) :
    (buildTree f).node.entry i = (leafArena f).entry i := by
  rcases buildTree_cases f with ⟨-, ht⟩ | ⟨k, -, ht⟩ | ⟨-, ht⟩
  · rw [ht]
  · rw [ht]
    exact (nodeEntry_set (leafArena f) 256 i _).trans (if_neg fun e => by simp [e] at hi)
  · rw [ht]
    exact mergeLeaves_entry_of_lt f hi

theorem buildTree_leaf (f : FreqTable) (b : Byte) : (buildTree f).node[b.toNat] =
    if f[b.toNat] = 0 then none else some (.leaf b ((f[b.toNat]).setWidth 40)) := by
  refine (buildTree_entry_of_lt f (i := ⟨b.toNat, by omega⟩) b.isLt).trans ?_
  rw [leafArena_entry, dif_pos b.isLt]
  simp

/-- The elements of the priority structure, by byte value (R104). -/
theorem mem_leafQueue_iff_byte (f : FreqTable) (k : Key) : k ∈ leafQueue f ↔
    ∃ b : Byte, f[b.toNat] ≠ 0 ∧ k.i.val = b.toNat ∧ k.f = (f[b.toNat]).setWidth 40 := by
  rw [mem_leafQueue]
  constructor
  · rintro ⟨hlt, h0, hf⟩
    exact ⟨BitVec.ofFin ⟨k.i.val, hlt⟩, h0, rfl, hf⟩
  · rintro ⟨b, h0, hi, hf⟩
    simp only [← hi] at h0 hf
    exact ⟨hi ▸ b.isLt, h0, hf⟩

/-- A byte value of frequency 0 gets no code: the walk records a code at a leaf of that byte only. -/
theorem codesOf_buildTree_eq_none {f : FreqTable} {b : Byte} (hb : f[b.toNat] = 0) :
    (codesOf (buildTree f).node (buildTree f).root).entry b = none := by
  cases hr : (buildTree f).root with
  | none => exact entry_absentCodes b
  | some r =>
    rcases walkCodes_entry (buildTree f).node Config.nnode r [] absentCodes b with h | ⟨p, j, g, -, hj, -⟩
    · exact h.trans (entry_absentCodes b)
    · have hjb := (buildTree_okFor f).1.leafLayout j b g hj
      have hleaf := buildTree_leaf f b
      rw [if_pos hb] at hleaf
      simp [NodeTable.entry, ← hjb, hleaf] at hj

/-- Settles O14: the merges leave the leaves as they were placed. -/
theorem tbuildLeaves : Obligations.TbuildLeaves := by
  refine fun s => ⟨_, exec_tbuild_eq s, rfl, buildTree_leaf s.freq, mem_leafQueue_iff_byte s.freq,
    fun g b hg hb => ?_, ⟨rfl, rfl, rfl, rfl, rfl, rfl, rfl, rfl, rfl, rfl⟩, ⟨rfl, rfl⟩, rfl,
    ⟨rfl, rfl⟩, ⟨rfl, rfl⟩, ⟨rfl, rfl⟩, rfl⟩
  rw [exec_next_iff.1 hg]
  exact codesOf_buildTree_eq_none hb

/-! ### No symbol and one symbol (R105, R106) -/

theorem symbols_eq_zero {f : FreqTable} (h : ∀ b : Fin 256, f[b.val] = 0) : f.symbols = 0 := by
  rw [← length_leafQueue, List.length_eq_zero_iff, List.eq_nil_iff_forall_not_mem]
  intro k hk
  obtain ⟨hlt, h0, -⟩ := (mem_leafQueue f k).1 hk
  exact h0 (h ⟨k.i.val, hlt⟩)

/-- Settles O15: without a leaf there is no root, and without a root no node. -/
theorem tbuildEmptyTable : Obligations.TbuildEmptyTable := by
  intro s h
  have ht := buildTree_of_no_symbol (symbols_eq_zero h)
  have hroot : (buildTree s.freq).root = none := by rw [ht]
  have hkind : (buildTree s.freq).kind = .empty := by rw [ht]
  exact ⟨_, exec_tbuild_eq s, rfl, hroot, hkind, (buildTree_okFor s.freq).1.noNodes hroot⟩

/-- An internal node that lacks a child is the root of a one-symbol table and has a left child (R106). -/
theorem buildTree_one_child {f : FreqTable} {i : NodeIdx} {g : Wide} {l r : Option NodeIdx}
    (hi : (buildTree f).node.entry i = some (.internal g l r)) (hlr : l = none ∨ r = none) :
    (buildTree f).root = some i ∧ l ≠ none ∧ r = none ∧ f.symbols = 1 := by
  obtain ⟨hl, hr⟩ := (buildTree_okFor f).1.twoChildren i g l r hi
  have hrn := hlr.resolve_left hl
  obtain ⟨hkind, hroot⟩ := hr.1 hrn
  exact ⟨hroot, hl, hrn, (buildTree_kind_eq_degen_iff f).1 hkind⟩

/-- Settles O16: the tree of a one-symbol table is known entry by entry, and the invariant of R32 (b) shuts out other
nodes with one child. -/
theorem tbuildDegenerateTable : Obligations.TbuildDegenerateTable := by
  refine ⟨fun s b hb hz => ?_, fun s => ⟨_, exec_tbuild_eq s, fun i f l r => buildTree_one_child⟩⟩
  have ht := buildTree_single (f := s.freq) (b := ⟨b.toNat, b.isLt⟩) hb fun c hc =>
    hz (BitVec.ofFin c) fun e => hc (by rw [← e]; rfl)
  have hentry : ∀ i, (buildTree s.freq).node.entry i =
      if i = 256 then some (.internal ((s.freq[b.toNat]).setWidth 40) (some ⟨b.toNat, by omega⟩) none)
      else (leafArena s.freq).entry i := by
    rw [ht]
    exact fun i => nodeEntry_set (leafArena s.freq) 256 i _
  refine ⟨_, ⟨b.toNat, by omega⟩, 256, exec_tbuild_eq s, rfl, rfl, rfl, by rw [ht], by rw [ht], ?_, ?_, ?_⟩
  · exact (buildTree_leaf s.freq b).trans (if_neg hb)
  · exact (hentry 256).trans (if_pos rfl)
  · intro i hleaf hroot
    refine (hentry i).trans ((if_neg hroot).trans ?_)
    by_contra hv
    obtain ⟨k, hk, rfl⟩ := leafQueue_of_valid hv
    obtain ⟨c, hc, hkc, -⟩ := (mem_leafQueue_iff_byte s.freq k).1 hk
    have hcb : c = b := by
      by_contra hn
      exact hc (hz c hn)
    exact hleaf (Fin.ext (hcb ▸ hkc))

/-! ### The root (R110) -/

theorem buildTree_root_of_one_symbol {f : FreqTable} (h : f.symbols = 1) : (buildTree f).root = some 256 := by
  rw [← length_leafQueue] at h
  obtain ⟨k, hk⟩ := List.length_eq_one_iff.1 h
  rw [buildTree, hk]

/-- The root is the node made by the last merge. -/
theorem buildTree_root_of_two_symbols {f : FreqTable} (h : 2 ≤ f.symbols) :
    ∃ r, (buildTree f).root = some r ∧ r.val = 256 + f.symbols - 2 := by
  rw [buildTree_of_two_symbols h]
  rw [← length_leafQueue] at h ⊢
  obtain ⟨k, hk, hm⟩ := mergeLeaves_ends h
  have hmax := length_leafQueue_le f
  have hindex := hm.root_index hk (by omega) (by omega)
  exact ⟨k.i, by rw [hk]; rfl, by omega⟩

/-- Settles O19, by the invariant of the merge loop. -/
theorem tbuildRootIsTotal : Obligations.TbuildRootIsTotal :=
  fun s => ⟨_, exec_tbuild_eq s, (buildTree_okFor s.freq).2, fun h => by rw [buildTree_of_no_symbol h],
    fun h => ⟨256, buildTree_root_of_one_symbol h, rfl⟩, buildTree_root_of_two_symbols⟩

/-! ### The two nodes a merge joins (R107 to R109) -/

/-- The node of index `n` joins the two least of the nodes open at its creation, the least on the left. -/
def NodeTable.JoinsTwoLeast (t : NodeTable) (n : NodeIdx) : Prop :=
  ∃ (f : Wide) (a c : NodeIdx), t.entry n = some (.internal f (some a) (some c)) ∧
    f.toNat = t.freqAt (some a) + t.freqAt (some c) ∧
    OpenAt t n.val a ∧ OpenAt t n.val c ∧ NodeBefore t a c ∧
    ∀ x, OpenAt t n.val x → x ≠ a → x ≠ c → NodeBefore t c x

section
variable {t t' : NodeTable}

theorem freqAt_congr {i : NodeIdx} (h : t'.entry i = t.entry i) : t'.freqAt (some i) = t.freqAt (some i) := by
  simp only [NodeTable.freqAt, h]

theorem child_congr {i : NodeIdx} (h : t'.entry i = t.entry i) (b : Bit) : t'.child i b = t.child i b := by
  simp only [NodeTable.child, h]

/-- Which nodes are open at the creation of node `n` is a matter of the entries below `n`. -/
theorem openAt_congr {n : Nat} (h : ∀ i : NodeIdx, i.val < n → t'.entry i = t.entry i) (i : NodeIdx) :
    OpenAt t' n i ↔ OpenAt t n i := by
  unfold OpenAt
  refine and_congr_right fun hi => ?_
  rw [h i hi]
  refine and_congr_right fun _ => forall_congr' fun p => forall_congr' fun b => ?_
  refine imp_congr_right fun hp => ?_
  rw [child_congr (h p hp)]

theorem nodeBefore_congr {i j : NodeIdx} (hi : t'.entry i = t.entry i) (hj : t'.entry j = t.entry j) :
    NodeBefore t' i j ↔ NodeBefore t i j := by
  unfold NodeBefore
  rw [freqAt_congr hi, freqAt_congr hj]

/-- What node `n` joins is a matter of the entries up to `n`: no later merge changes it. -/
theorem NodeTable.JoinsTwoLeast.congr {n : NodeIdx} (hn : t.JoinsTwoLeast n)
    (h : ∀ i : NodeIdx, i.val ≤ n.val → t'.entry i = t.entry i) : t'.JoinsTwoLeast n := by
  obtain ⟨f, a, c, he, hf, ha, hc, hac, hleast⟩ := hn
  have hbelow : ∀ i : NodeIdx, i.val < n.val → t'.entry i = t.entry i := fun i hi => h i (Nat.le_of_lt hi)
  have hopen := openAt_congr hbelow
  have hea := hbelow a ha.1
  have hec := hbelow c hc.1
  refine ⟨f, a, c, (h n (Nat.le_refl _)).trans he, ?_, (hopen a).2 ha, (hopen c).2 hc,
    (nodeBefore_congr hea hec).2 hac, fun x hx hxa hxc => ?_⟩
  · rw [freqAt_congr hea, freqAt_congr hec, hf]
  · have hx' := (hopen x).1 hx
    exact (nodeBefore_congr hec (hbelow x hx'.1)).2 (hleast x hx' hxa hxc)

end

/-- The nodes open at the creation of node `n` are those in the priority structure (R108). -/
theorem Merge.Ok.openAt_iff {f : FreqTable} {n : Nat} {m : Merge} (hm : m.Ok f n) (hn : 256 ≤ n) (i : NodeIdx) :
    OpenAt m.node n i ↔ ∃ k ∈ m.queue, k.i = i := by
  rw [← List.mem_map, hm.queue]
  constructor
  · rintro ⟨-, hv, hopen⟩
    refine ⟨hv, fun p b hp => hopen p b ?_ hp⟩
    obtain ⟨g, l, r, he, -⟩ := child_eq_some hp
    exact (hm.valid p (hm.forest.internalLayout p g l r he)).1 (by simp [he])
  · intro htop
    obtain ⟨k, hk, rfl⟩ := List.mem_map.1 ((hm.queue i).2 htop)
    exact ⟨(hm.queue_below hn hk).1, htop.1, fun p b _ => htop.2 p b⟩

/-- The order of the nodes in the priority structure is the order of their keys (R107). -/
theorem Merge.Ok.nodeBefore {f : FreqTable} {n : Nat} {m : Merge} (hm : m.Ok f n) {a b : Key} (ha : a ∈ m.queue)
    (hb : b ∈ m.queue) (h : a.Le b) (hne : a.i ≠ b.i) : NodeBefore m.node a.i b.i := by
  have hi := Fin.val_ne_of_ne hne
  rw [NodeBefore, hm.freq a ha, hm.freq b hb]
  simp only [Key.Le, BitVec.lt_def, BitVec.toNat_eq, Fin.le_def] at h
  omega

/-- One iteration joins the two least open nodes (R107 to R109). -/
theorem mergeStep_joinsTwoLeast {f : FreqTable} {slot : NodeIdx} {m m' : Merge} (hm : m.Ok f slot.val)
    (hslot : 256 ≤ slot.val) (h : mergeStep slot m = some m') : m'.node.JoinsTwoLeast slot := by
  obtain ⟨a, c, q1, q2, h1, h2, -, hentry⟩ := mergeStep_some h
  obtain ⟨ha, -, hamin⟩ := extractMin_some h1
  obtain ⟨hc1, -, hcmin⟩ := extractMin_some h2
  have hperm := extractMin_perm h1
  have hc : c ∈ m.queue := hperm.mem_iff.2 (by simp [hc1])
  have hac : a.i ≠ c.i := by
    have hnodup := (hperm.map Key.i).nodup_iff.1 hm.nodup
    rw [List.map_cons, List.nodup_cons] at hnodup
    exact fun e => hnodup.1 (e ▸ List.mem_map_of_mem hc1)
  have hbelow : ∀ i : NodeIdx, i.val < slot.val → m'.node.entry i = m.node.entry i :=
    fun i => mergeStep_entry_of_lt h
  have hopen := fun i => (openAt_congr hbelow i).trans (hm.openAt_iff hslot i)
  have hbefore : ∀ k ∈ m.queue, ∀ k' ∈ m.queue, k.Le k' → k.i ≠ k'.i → NodeBefore m'.node k.i k'.i :=
    fun k hk k' hk' hle hne => (nodeBefore_congr (hbelow _ (hm.queue_below hslot hk).1)
      (hbelow _ (hm.queue_below hslot hk').1)).2 (hm.nodeBefore hk hk' hle hne)
  have hself : m'.node.entry slot = some (.internal (a.f + c.f) (some a.i) (some c.i)) := by rw [hentry, if_pos rfl]
  refine ⟨_, a.i, c.i, hself, (mergeStep_keeps_ok hm hslot h).forest.freqSum slot _ _ _ hself,
    (hopen a.i).2 ⟨a, ha, rfl⟩, (hopen c.i).2 ⟨c, hc, rfl⟩, hbefore a ha c hc (hamin c hc) hac,
    fun x hx hxa hxc => ?_⟩
  obtain ⟨k, hk, rfl⟩ := (hopen x).1 hx
  have hk1 : k ∈ q1 := (List.mem_cons.1 (hperm.mem_iff.1 hk)).resolve_left fun e => hxa (congrArg Key.i e)
  exact hbefore c hc k hk (hcmin k hk1) hxc.symm

/-- The invariant of the merge loop, with what each node made so far joins. -/
def Merge.Joined (f : FreqTable) (n : Nat) (m : Merge) : Prop :=
  m.Ok f n ∧ ∀ i : NodeIdx, 256 ≤ i.val → i.val < n → m.node.JoinsTwoLeast i

/-- One iteration makes a node that joins the two least, and changes nothing of the nodes made before. -/
theorem mergeStep_keeps_joined {f : FreqTable} {slot : NodeIdx} {m m' : Merge} (hm : m.Joined f slot.val)
    (hslot : 256 ≤ slot.val) (h : mergeStep slot m = some m') : m'.Joined f (slot.val + 1) := by
  obtain ⟨hok, hall⟩ := hm
  refine ⟨mergeStep_keeps_ok hok hslot h, fun i hi hin => ?_⟩
  rcases Nat.lt_succ_iff_lt_or_eq.1 hin with hlt | heq
  · exact (hall i hi hlt).congr fun x hx => mergeStep_entry_of_lt h (Nat.lt_of_le_of_lt hx hlt)
  · exact Fin.ext heq ▸ mergeStep_joinsTwoLeast hok hslot h

/-- Every internal node of the finished arena joins the two nodes that were least at its creation. -/
theorem mergeLeaves_joinsTwoLeast {f : FreqTable} (h : 2 ≤ (leafQueue f).length) {j : NodeIdx} (hj : 256 ≤ j.val)
    (hlt : j.val < 255 + (leafQueue f).length) : (mergeLeaves f).node.JoinsTwoLeast j := by
  obtain ⟨n, ⟨hm, hall⟩, -⟩ := mergeLoop_keeps (P := fun n m => m.Joined f n)
    (fun slot m m' hslot hm hs => mergeStep_keeps_joined hm hslot hs)
    internalSlots 256 { node := leafArena f, queue := leafQueue f } (Nat.le_refl _) internalSlots_val
    ⟨merge_ok_init f, fun i hi hin => by omega⟩
  rw [← mergeLeaves] at hm hall
  obtain ⟨k, hk, -⟩ := mergeLeaves_ends h
  have hlen := hm.length
  rw [hk, List.length_singleton] at hlen
  exact hall j hj (by omega)

/-- Settles O18: the invariant of the merge loop says which nodes exist, and each merge joins the two least. -/
theorem tbuildMergesTwoLeast : Obligations.TbuildMergesTwoLeast := by
  intro s h
  have hq : 2 ≤ (leafQueue s.freq).length := by rwa [length_leafQueue]
  have ht := buildTree_of_two_symbols h
  refine ⟨_, exec_tbuild_eq s, rfl, by rw [ht], fun n hn => ?_⟩
  simp only [ht, ← length_leafQueue]
  obtain ⟨k, -, hm⟩ := mergeLeaves_ends hq
  refine ⟨fun hlt => mergeLeaves_joinsTwoLeast hq hn hlt, fun hge => ?_⟩
  by_contra hv
  have := (hm.valid n hn).1 hv
  omega

/-! ### Determinism (R112) -/

/-- Settles O22: TBUILD makes the tree of FREQ, and CGEN the codes of that tree. -/
theorem tbuildDeterministic : Obligations.TbuildDeterministic := by
  intro s s' t t' hfreq ht ht'
  obtain rfl := exec_next_iff.1 ht
  obtain rfl := exec_next_iff.1 ht'
  have htree : buildTree s.freq = buildTree s'.freq := by rw [hfreq]
  refine ⟨congrArg Tree.node htree, congrArg Tree.root htree, congrArg Tree.kind htree, fun g g' hg hg' => ?_⟩
  rw [exec_next_iff.1 hg, exec_next_iff.1 hg']
  exact congrArg (fun T : Tree => codesOf T.node T.root) htree

end Sys2Proof.Machine

/-! Proofs about the Code Table Generator (41_code_table.md R121 to R125): in a forest one path at most leads from a
node to a leaf, so the walk records exactly these paths; and a sum over the codes is the sum over the two subtrees. -/

namespace Sys2Proof.Machine

/-- CGEN's end state, field by field (R120). -/
theorem exec_cgen_eq (s : State) : exec .cgen s = .next { s with
    code := codesOf s.node s.root, status := { state := .done, err := none, empty := false } } := rfl

/-! ### Paths to leaves -/

/-- The path `p` leads from node `i` to a leaf of byte `b`. -/
def NodeTable.LeafPath (t : NodeTable) (i : NodeIdx) (p : List Bit) (b : Byte) : Prop :=
  ∃ j f, t.follow i p = some j ∧ t.entry j = some (.leaf b f)

theorem leafPath_cons {t : NodeTable} {i : NodeIdx} {d : Bit} {p : List Bit} {b : Byte} :
    t.LeafPath i (d :: p) b ↔ ∃ j, t.child i d = some j ∧ t.LeafPath j p b := by
  unfold NodeTable.LeafPath
  rw [follow_cons]
  cases t.child i d <;> simp

theorem leafPath_of_leaf {t : NodeTable} {i : NodeIdx} {sym : Byte} {f : Wide} (hi : t.entry i = some (.leaf sym f))
    {p : List Bit} {b : Byte} : t.LeafPath i p b ↔ p = [] ∧ b = sym := by
  cases p with
  | nil => simp [NodeTable.LeafPath, hi, eq_comm]
  | cons d p => simp [leafPath_cons, child_of_leaf hi]

theorem NodeTable.LeafPath.ne_nil {t : NodeTable} {i : NodeIdx} {g : Wide} {l r : Option NodeIdx}
    (hi : t.entry i = some (.internal g l r)) {p : List Bit} {b : Byte} (h : t.LeafPath i p b) : p ≠ [] := by
  rintro rfl
  simp [NodeTable.LeafPath, hi] at h

/-- No leaf lies below another, so a path to a leaf that goes on through a leaf ends there (R124 (b)). -/
theorem NodeTable.LeafPath.eq_of_append {t : NodeTable} {i : NodeIdx} {p q : List Bit} {b c : Byte}
    (hp : t.LeafPath i p b) (hpq : t.LeafPath i (p ++ q) c) : c = b := by
  obtain ⟨j, f, hj, hleaf⟩ := hp
  obtain ⟨k, g, hk, hk'⟩ := hpq
  rw [follow_append, hj, Option.bind_some] at hk
  exact ((leafPath_of_leaf hleaf).1 ⟨k, g, hk, hk'⟩).2

theorem follow_concat {t : NodeTable} {i j : NodeIdx} {p : List Bit} {d : Bit} :
    t.follow i (p ++ [d]) = some j ↔ ∃ k, t.follow i p = some k ∧ t.child k d = some j := by
  rw [follow_append, Option.bind_eq_some_iff]
  simp [follow_cons]

section
variable {t : NodeTable} (hf : t.Forest)
include hf

/-- A path ends at or below the node it starts from; each branch leaves an internal node, at index 256 or above. -/
theorem NodeTable.Forest.length_follow {i j : NodeIdx} {p : List Bit} (h : t.follow i p = some j) :
    j.val ≤ i.val ∧ p.length ≤ i.val - 255 := by
  induction p generalizing i with
  | nil => simp [Option.some.inj h]
  | cons d p ih =>
    rw [follow_cons, Option.bind_eq_some_iff] at h
    obtain ⟨k, hk, hp⟩ := h
    obtain ⟨f, l, r, hi, -⟩ := child_eq_some hk
    have hge := hf.internalLayout i f l r hi
    have hlt := (hf.childBelow i d k hk).1
    have hrest := ih hp
    rw [List.length_cons]
    omega

/-- No path leads back to where it starts. -/
theorem NodeTable.Forest.follow_concat_ne {i k : NodeIdx} {p : List Bit} {d : Bit} (hp : t.follow i p = some k) :
    t.child k d ≠ some i := by
  intro hk
  have hle := (hf.length_follow hp).1
  have hlt := (hf.childBelow k d i hk).1
  omega

/-- The last branch of a path to `j` is the one from the parent of `j`, so two paths to `j` agree from their ends. -/
theorem NodeTable.Forest.follow_inj {i j : NodeIdx} {p q : List Bit} (hp : t.follow i p = some j)
    (hq : t.follow i q = some j) : p = q := by
  induction p using List.reverseRecOn generalizing j q with
  | nil =>
    obtain rfl := Option.some.inj hp
    rcases List.eq_nil_or_concat' q with rfl | ⟨q, d, rfl⟩
    · rfl
    · obtain ⟨k, hk, hd⟩ := follow_concat.1 hq
      exact absurd hd (hf.follow_concat_ne hk)
  | append_singleton p d ih =>
    obtain ⟨k, hk, hd⟩ := follow_concat.1 hp
    rcases List.eq_nil_or_concat' q with rfl | ⟨q, e, rfl⟩
    · obtain rfl := Option.some.inj hq
      exact absurd hd (hf.follow_concat_ne hk)
    · obtain ⟨k', hk', he⟩ := follow_concat.1 hq
      obtain ⟨rfl, rfl⟩ := hf.uniqueParent j k d k' e hd he
      rw [ih hk hk']

/-- A leaf of byte `b` is at index `b`, so one path at most leads to a leaf of `b`. -/
theorem NodeTable.Forest.leafPath_inj {i : NodeIdx} {p q : List Bit} {b : Byte} (hp : t.LeafPath i p b)
    (hq : t.LeafPath i q b) : p = q := by
  obtain ⟨j, f, hj, hjb⟩ := hp
  obtain ⟨k, g, hk, hkb⟩ := hq
  obtain rfl : j = k := Fin.ext ((hf.leafLayout j b f hjb).symm.trans (hf.leafLayout k b g hkb))
  exact hf.follow_inj hj hk

/-! ### The walk records the paths (R121) -/

/-- The walk reaches every leaf below its node, and nothing it does later overwrites what it records there. -/
theorem NodeTable.Forest.walkCodes_of_leafPath {i : NodeIdx} {p : List Bit} {b : Byte} (h : t.LeafPath i p b)
    {depth : Nat} (hd : i.val < depth) (path : List Bit) (code : CodeTable) :
    (walkCodes t depth i path code).entry b = some (path ++ p) := by
  induction p generalizing i depth path code with
  | nil =>
    obtain ⟨j, f, hj, hleaf⟩ := h
    obtain rfl := Option.some.inj hj
    obtain ⟨n, rfl⟩ := Nat.exists_eq_add_one_of_ne_zero (Nat.ne_zero_of_lt hd)
    have hw : walkCodes t (n + 1) i path code = code.set b.toNat (some path) := by simp [walkCodes, hleaf]
    rw [hw, entry_set, if_pos rfl, List.append_nil]
  | cons d p ih =>
    obtain ⟨k, hk, hp⟩ := leafPath_cons.1 h
    obtain ⟨g, l, r, hi, hside⟩ := child_eq_some hk
    obtain ⟨-, hr⟩ := child_of_internal hi
    obtain ⟨n, rfl⟩ := Nat.exists_eq_add_one_of_ne_zero (Nat.ne_zero_of_lt hd)
    have hlt := (hf.childBelow i d k hk).1
    have hchild : ∀ code', (walkCodes t n k (path ++ [d]) code').entry b = some (path ++ d :: p) := by
      intro code'
      rw [ih hp (by omega), List.append_assoc, List.singleton_append]
    rw [walkCodes_internal hi]
    cases d with
    | true =>
      obtain rfl : r = some k := hside
      exact hchild _
    | false =>
      obtain rfl : l = some k := hside
      cases r with
      | none => exact hchild code
      | some m =>
        rcases walkCodes_entry t n m (path ++ [true]) (walkCodes t n k (path ++ [false]) code) b with
          hkeep | ⟨q, j, f, hq, hj, -⟩
        · exact hkeep.trans (hchild code)
        · have hright : t.LeafPath i (true :: q) b := leafPath_cons.2 ⟨m, hr, j, f, hq, hj⟩
          exact absurd (hf.leafPath_inj h hright) (by simp)

/-- The code of a byte is the path to its leaf (R121). -/
theorem NodeTable.Forest.codesOf_entry_iff {i : NodeIdx} {b : Byte} {x : List Bit} :
    (codesOf t (some i)).entry b = some x ↔ t.LeafPath i x b := by
  constructor
  · intro h
    rcases walkCodes_entry t Config.nnode i [] absentCodes b with hkeep | ⟨p, j, f, hp, hj, hw⟩
    · have hnone : (codesOf t (some i)).entry b = none := hkeep.trans (entry_absentCodes b)
      simp [hnone] at h
    · obtain rfl : p = x := Option.some.inj (hw.symm.trans h)
      exact ⟨j, f, hp, hj⟩
  · intro h
    exact hf.walkCodes_of_leafPath h i.isLt [] absentCodes

end

/-! ### Sums over the codes -/

/-- The sum of a weight over the present codes. -/
def CodeTable.weight (c : CodeTable) (w : List Bit → Nat) : Nat := (c.toList.map fun x => (x.map w).getD 0).sum

theorem CodeTable.weight_eq_sum (c : CodeTable) (w : List Bit → Nat) :
    c.weight w = ∑ b : Fin 256, ((c.entry (BitVec.ofFin b)).map w).getD 0 := by
  have hlist : c.toList = (List.finRange 256).map fun b : Fin 256 => c.entry (BitVec.ofFin b) := by
    apply List.ext_getElem <;> simp [CodeTable.entry]
  rw [weight, hlist, List.map_map, Fin.sum_univ_def]
  rfl

/-- The weight of a table with one code. -/
theorem CodeTable.weight_single {c : CodeTable} {a : Byte} {y : List Bit}
    (h : ∀ b x, c.entry b = some x ↔ x = y ∧ b = a) (w : List Bit → Nat) : c.weight w = w y := by
  rw [weight_eq_sum, Finset.sum_eq_single a.toFin]
  · rw [show c.entry (BitVec.ofFin a.toFin) = some y from (h a y).2 ⟨rfl, rfl⟩]
    rfl
  · intro b _ hb
    have hnone : c.entry (BitVec.ofFin b) = none := Option.eq_none_iff_forall_ne_some.2 fun x hx =>
      hb (congrArg BitVec.toFin ((h _ x).1 hx).2)
    rw [hnone]
    rfl
  · simp

/-- When the present codes are those of two tables with no byte in common, each behind a bit of its own, the weight is
the sum of the two tables' weights. -/
theorem CodeTable.weight_join {c cl cr : CodeTable}
    (h : ∀ b x, c.entry b = some x ↔
      (∃ y, x = false :: y ∧ cl.entry b = some y) ∨ ∃ y, x = true :: y ∧ cr.entry b = some y)
    (w : List Bit → Nat) :
    c.weight w = cl.weight (fun x => w (false :: x)) + cr.weight fun x => w (true :: x) := by
  simp only [weight_eq_sum, ← Finset.sum_add_distrib]
  refine Finset.sum_congr rfl fun b _ => ?_
  have hb := h (BitVec.ofFin b)
  cases hl : cl.entry (BitVec.ofFin b) with
  | some y =>
    have hc := (hb (false :: y)).2 (.inl ⟨y, rfl, hl⟩)
    cases hr : cr.entry (BitVec.ofFin b) with
    | some z => simpa using hc.symm.trans ((hb (true :: z)).2 (.inr ⟨z, rfl, hr⟩))
    | none => simp [hc]
  | none =>
    cases hr : cr.entry (BitVec.ofFin b) with
    | some z => simp [(hb (true :: z)).2 (.inr ⟨z, rfl, hr⟩)]
    | none =>
      have hc : c.entry (BitVec.ofFin b) = none :=
        Option.eq_none_iff_forall_ne_some.2 fun x hx => by simpa [hl, hr] using (hb x).1 hx
      simp [hc]

/-- The number of present codes is the number of valid leaves, when codes are present exactly for these. -/
theorem CodeTable.weight_one_eq_leaves {c : CodeTable} {t : NodeTable}
    (h : ∀ b : Byte, c.entry b ≠ none ↔ t[b.toNat]'(by omega) ≠ none) : c.weight (fun _ => 1) = t.leaves := by
  rw [weight_eq_sum, NodeTable.leaves, Fin.sum_univ_def]
  induction List.finRange 256 with
  | nil => rfl
  | cons b bs ih =>
    have hb : c.entry (BitVec.ofFin b) ≠ none ↔ t[b.val]'(by omega) ≠ none := h (BitVec.ofFin b)
    rw [List.map_cons, List.sum_cons, ih, List.filter_cons]
    cases hc : c.entry (BitVec.ofFin b) with
    | none =>
      have ht : t[b.val] = none := by simpa [hc] using hb
      simp [ht]
    | some x =>
      have ht : t[b.val].isSome := by simpa [hc, Option.isSome_iff_ne_none] using hb
      simp [ht, Nat.add_comm]

section
variable {t : NodeTable} (hf : t.Forest) {i : NodeIdx} (w : List Bit → Nat)
include hf

/-- The only code below a leaf is the empty one. -/
theorem NodeTable.Forest.weight_of_leaf {sym : Byte} {f : Wide} (hi : t.entry i = some (.leaf sym f)) :
    (codesOf t (some i)).weight w = w [] :=
  CodeTable.weight_single (fun _ _ => hf.codesOf_entry_iff.trans (leafPath_of_leaf hi)) w

/-- The codes below a node with two children are the codes below the children, each behind its branch bit. -/
theorem NodeTable.Forest.weight_of_children {l r : NodeIdx} (hl : t.child i false = some l)
    (hr : t.child i true = some r) : (codesOf t (some i)).weight w =
      (codesOf t (some l)).weight (fun x => w (false :: x)) + (codesOf t (some r)).weight fun x => w (true :: x) := by
  refine CodeTable.weight_join (fun b x => ?_) w
  simp only [hf.codesOf_entry_iff]
  obtain ⟨f, l', r', hi, -⟩ := child_eq_some hl
  rcases x with _ | ⟨_ | _, x⟩
  · exact iff_of_false (fun h => h.ne_nil hi rfl) (by simp)
  · simp [leafPath_cons, hl]
  · simp [leafPath_cons, hr]

end

/-! ### The codes of a tree that meets the invariants of R32 -/

section
variable {t : Tree} (ht : t.Ok)
include ht

theorem Tree.Ok.forest : t.node.Forest where
  leafLayout := ht.leafLayout
  internalLayout := ht.internalLayout
  childBelow := ht.childBelow
  freqSum := ht.freqSum
  uniqueParent := by
    intro i p b p' b' hp hp'
    have hroot : t.root ≠ some i := fun hr => (ht.rootTop i hr).2 p b hp
    obtain ⟨q, d, -, hall⟩ := ht.oneParent i (ht.childBelow p b i hp).2 hroot
    obtain ⟨rfl, rfl⟩ := hall p b hp
    exact hall p' b' hp'

theorem Tree.Ok.root_valid {r : NodeIdx} (hr : t.root = some r) : t.node.entry r ≠ none := by
  obtain ⟨⟨f, l, r', he⟩, -⟩ := ht.rootTop r hr
  simp [he]

theorem Tree.Ok.exists_root (hk : t.kind ≠ .empty) : ∃ r, t.root = some r :=
  Option.ne_none_iff_exists'.1 fun hn => hk (ht.emptyKind.2 hn)

/-- The code of a byte is the path from ROOT to its leaf (R121); the empty tree has neither (R123). -/
theorem Tree.Ok.codesOf_entry_iff {b : Byte} {x : List Bit} :
    (codesOf t.node t.root).entry b = some x ↔ ∃ r, t.root = some r ∧ t.node.LeafPath r x b := by
  cases hr : t.root with
  | none => simp [codesOf]
  | some r => simpa using ht.forest.codesOf_entry_iff

/-- A byte has a code exactly when it has a leaf (R124 (a)). -/
theorem Tree.Ok.codesOf_present_iff (b : Byte) :
    (codesOf t.node t.root).entry b ≠ none ↔ t.node[b.toNat]'(by omega) ≠ none := by
  rw [Option.ne_none_iff_exists']
  constructor
  · rintro ⟨x, hx⟩
    obtain ⟨r, -, j, f, -, hj⟩ := ht.codesOf_entry_iff.1 hx
    have hidx := ht.leafLayout j b f hj
    simp only [hidx]
    exact fun hn => by simp [NodeTable.entry, hn] at hj
  · intro hv
    obtain ⟨sym, f, hi⟩ := ht.forest.leaf_of_lt (i := ⟨b.toNat, by omega⟩) hv b.isLt
    obtain rfl : sym = b := BitVec.eq_of_toNat_eq (ht.leafLayout _ sym f hi)
    obtain ⟨r, hr⟩ := Option.ne_none_iff_exists'.1 fun hr => hv (ht.noNodes hr ⟨sym.toNat, by omega⟩)
    obtain ⟨x, hx⟩ := ht.reachable r ⟨sym.toNat, by omega⟩ hr hv
    exact ⟨x, ht.codesOf_entry_iff.2 ⟨r, hr, _, f, hx, hi⟩⟩

/-- In a tree that is not degenerate what holds of the leaves, and of a node when it holds of its two children, holds
of every valid node (R32 (b), (c)). -/
theorem Tree.Ok.full_induction (hk : t.kind ≠ .degen) {P : NodeIdx → Prop}
    (leaf : ∀ i sym f, t.node.entry i = some (.leaf sym f) → P i)
    (node : ∀ i l r, t.node.child i false = some l → t.node.child i true = some r → P l → P r → P i)
    (i : NodeIdx) (hi : t.node.entry i ≠ none) : P i := by
  rcases he : t.node.entry i with _ | ⟨sym, f⟩ | ⟨f, l, r⟩
  · exact absurd he hi
  · exact leaf i sym f he
  · obtain ⟨hl, hr⟩ := child_of_internal he
    obtain ⟨hl', hr'⟩ := ht.twoChildren i f l r he
    obtain ⟨j, rfl⟩ := Option.ne_none_iff_exists'.1 hl'
    obtain ⟨k, rfl⟩ := Option.ne_none_iff_exists'.1 fun hn => hk (hr'.1 hn).1
    obtain ⟨hjlt, hj⟩ := ht.childBelow i false j hl
    obtain ⟨hklt, hk'⟩ := ht.childBelow i true k hr
    exact node i j k hl hr (Tree.Ok.full_induction hk leaf node j hj) (Tree.Ok.full_induction hk leaf node k hk')
termination_by i.val

/-- The Kraft sum below a node, with numerators over `2 ^ k`, is 1 (R124 (d)). -/
theorem Tree.Ok.kraft_sum (hk : t.kind ≠ .degen) {i : NodeIdx} (hi : t.node.entry i ≠ none) :
    ∀ k, i.val ≤ k + 255 → (codesOf t.node (some i)).weight (fun x => 2 ^ (k - x.length)) = 2 ^ k := by
  refine ht.full_induction hk (P := fun i => ∀ k, i.val ≤ k + 255 →
    (codesOf t.node (some i)).weight (fun x => 2 ^ (k - x.length)) = 2 ^ k) ?_ ?_ i hi
  · intro i sym f he k _
    exact ht.forest.weight_of_leaf _ he
  · intro i l r hl hr ihl ihr k hki
    obtain ⟨f, l', r', he, -⟩ := child_eq_some hl
    have hge := ht.internalLayout i f l' r' he
    have hllt := (ht.childBelow i false l hl).1
    have hrlt := (ht.childBelow i true r hr).1
    obtain ⟨n, rfl⟩ : ∃ n, k = n + 1 := ⟨k - 1, by omega⟩
    rw [ht.forest.weight_of_children _ hl hr]
    simp only [List.length_cons, Nat.add_sub_add_right]
    rw [ihl n (by omega), ihr n (by omega), ← Nat.two_mul, Nat.pow_succ']

/-- A path is shorter than the number of codes below its start: each branch leaves a subtree, and so a leaf, behind
(R125). -/
theorem Tree.Ok.length_follow_lt_weight_one (hk : t.kind ≠ .degen) {i : NodeIdx} (hi : t.node.entry i ≠ none) :
    ∀ p j, t.node.follow i p = some j → p.length < (codesOf t.node (some i)).weight fun _ => 1 := by
  refine ht.full_induction hk (P := fun i => ∀ p j, t.node.follow i p = some j →
    p.length < (codesOf t.node (some i)).weight fun _ => 1) ?_ ?_ i hi
  · intro i sym f he p j hp
    rw [ht.forest.weight_of_leaf _ he]
    cases p with
    | nil => simp
    | cons d p => simp [follow_cons, child_of_leaf he] at hp
  · intro i l r hl hr ihl ihr p j hp
    rw [ht.forest.weight_of_children _ hl hr]
    have hlpos := ihl [] l rfl
    have hrpos := ihr [] r rfl
    rcases p with _ | ⟨_ | _, p⟩
    · exact Nat.add_pos_left hlpos _
    · have := ihl p j (by simpa [follow_cons, hl] using hp)
      rw [List.length_cons]
      omega
    · have := ihr p j (by simpa [follow_cons, hr] using hp)
      rw [List.length_cons]
      omega

/-- The degenerate tree gives its sole leaf the code 0 and no other byte a code (R122). -/
theorem Tree.Ok.codesOf_degen {r : NodeIdx} (hk : t.kind = .degen) (hr : t.root = some r) :
    ∃ sym, soleSymbol t.node r = some sym ∧
      ∀ b x, (codesOf t.node t.root).entry b = some x ↔ x = [false] ∧ b = sym := by
  obtain ⟨l, sym, f, hl, hleaf⟩ := ht.degenLeaf hk r hr
  have hright : t.node.child r true = none := by
    obtain ⟨r', hr', h⟩ := ht.degenKind.1 hk
    rwa [Option.some.inj (hr.symm.trans hr')]
  obtain ⟨g, l', r', he, -⟩ := child_eq_some hl
  refine ⟨sym, by simp [soleSymbol, hl, hleaf], fun b x => ?_⟩
  rw [hr, ht.forest.codesOf_entry_iff]
  rcases x with _ | ⟨_ | _, x⟩
  · exact iff_of_false (fun h => h.ne_nil he rfl) (by simp)
  · simp [leafPath_cons, hl, leafPath_of_leaf hleaf]
  · simp [leafPath_cons, hright]

/-- No code is empty, and none is longer than 255: the tree has 255 internal nodes at most (R125). -/
theorem Tree.Ok.length_code {b : Byte} {x : List Bit} (h : (codesOf t.node t.root).entry b = some x) :
    x ≠ [] ∧ x.length ≤ 255 := by
  obtain ⟨r, hr, hx⟩ := ht.codesOf_entry_iff.1 h
  obtain ⟨⟨f, l, r', he⟩, -⟩ := ht.rootTop r hr
  refine ⟨hx.ne_nil he, ?_⟩
  obtain ⟨j, g, hj, -⟩ := hx
  have hlen := (ht.forest.length_follow hj).2
  omega

/-- A code is shorter than the number of leaves, but in the degenerate tree (R125). -/
theorem Tree.Ok.length_code_lt_leaves (hk : t.kind ≠ .degen) {b : Byte} {x : List Bit}
    (h : (codesOf t.node t.root).entry b = some x) : x.length < t.node.leaves := by
  obtain ⟨r, hr, j, f, hj, -⟩ := ht.codesOf_entry_iff.1 h
  rw [← CodeTable.weight_one_eq_leaves ht.codesOf_present_iff, hr]
  exact ht.length_follow_lt_weight_one hk (ht.root_valid hr) x j hj

end

/-! ### The obligations -/

/-- Settles O26: the walk is not begun. -/
theorem cgenEmptyTree : Obligations.CgenEmptyTree := by
  refine ⟨fun s hroot => ⟨_, exec_cgen_eq s, rfl, fun b => ?_⟩, entry_absentCodes⟩
  rw [hroot]
  exact entry_absentCodes b

/-- Settles O23: in a forest the walk records the one path to each leaf. -/
theorem cgenCodesArePaths : Obligations.CgenCodesArePaths := by
  intro s hs
  refine ⟨_, exec_cgen_eq s, rfl, fun b x => ?_, fun b x hx => (hs.length_code hx).2,
    ⟨rfl, rfl, rfl, rfl, rfl, rfl, rfl, rfl, rfl, rfl⟩, ⟨rfl, rfl⟩, ⟨rfl, rfl, rfl⟩, ⟨rfl, rfl⟩, ⟨rfl, rfl⟩,
    ⟨rfl, rfl⟩, rfl⟩
  refine hs.codesOf_entry_iff.trans ⟨?_, ?_⟩
  · rintro ⟨r, hr, i, f, hpath, hleaf⟩
    exact ⟨r, i, f, hr, hpath, hleaf⟩
  · rintro ⟨r, i, f, hr, hpath, hleaf⟩
    exact ⟨r, hr, i, f, hpath, hleaf⟩

/-- Settles O24: codes are paths to leaves, and the Kraft sum adds up over the subtrees. -/
theorem cgenPrefixCode : Obligations.CgenPrefixCode := by
  intro s hs
  refine ⟨_, exec_cgen_eq s, hs.codesOf_present_iff, ?_,
    fun b x hx => (hs.length_code hx).1, fun hfull => ?_, fun hdegen => ?_⟩
  · rintro b b' x _ hne hx hx' ⟨y, rfl⟩
    obtain ⟨r, hr, hpath⟩ := hs.codesOf_entry_iff.1 hx
    obtain ⟨r', hr', hpath'⟩ := hs.codesOf_entry_iff.1 hx'
    obtain rfl := Option.some.inj (hr.symm.trans hr')
    exact hne (hpath.eq_of_append hpath').symm
  · have hkind : s.tree.kind = .full := hfull
    obtain ⟨r, hr⟩ := hs.exists_root (by simp [hkind])
    have hsum := hs.kraft_sum (by simp [hkind]) (hs.root_valid hr) 255 (by omega)
    rwa [← hr] at hsum
  · have hkind : s.tree.kind = .degen := hdegen
    obtain ⟨r, hr⟩ := hs.exists_root (by simp [hkind])
    obtain ⟨sym, -, hcodes⟩ := hs.codesOf_degen hdegen hr
    exact CodeTable.weight_single hcodes _

/-- Settles O25: a code is a path, which is shorter than the number of leaves unless the tree is degenerate. -/
theorem cgenCodeLengthBounds : Obligations.CgenCodeLengthBounds := by
  intro s hs
  refine ⟨_, exec_cgen_eq s, fun b x hx => ?_⟩
  have hpos := List.length_pos_iff.2 (hs.length_code hx).1
  refine ⟨hpos, (hs.length_code hx).2, ?_⟩
  by_cases hk : s.tkind = .degen
  · obtain ⟨r, hr, -⟩ := hs.codesOf_entry_iff.1 hx
    obtain ⟨sym, -, hcodes⟩ := hs.codesOf_degen hk hr
    obtain ⟨rfl, -⟩ := (hcodes b x).1 hx
    exact ⟨fun hm => Nat.le_sub_of_add_le hm, fun _ => rfl⟩
  · have hlt : x.length < s.node.leaves := hs.length_code_lt_leaves hk hx
    omega

/-- Settles O27: the only path to a leaf goes left once. -/
theorem cgenDegenerateTree : Obligations.CgenDegenerateTree := by
  intro s r hs hk hr
  obtain ⟨sym, hsole, hcodes⟩ := hs.codesOf_degen hk hr
  refine ⟨_, exec_cgen_eq s, sym, hsole, (hcodes sym _).2 ⟨rfl, rfl⟩, fun c hc => ?_⟩
  exact Option.eq_none_iff_forall_ne_some.2 fun x hx => hc ((hcodes c x).1 hx).2

end Sys2Proof.Machine

/-! Proofs about the Bit Packer (42_bit_packer.md R132 to R135): BPACK's two end states, and PBITS as the number of
payload bits, which a register of 40 bits holds when no code is longer than 255. -/

namespace Sys2Proof.Machine

/-- BPACK's end state when every byte of SRC has a code (R132). -/
theorem exec_bpack_of_coded {s : State} (h : ∀ b ∈ s.srcBytes, s.code.entry b ≠ none) : exec .bpack s = .next { s with
    pay := s.code.codeOf s.srcBytes, pbits := BitVec.ofNat 40 (s.code.codeOf s.srcBytes).length,
    status := { state := .done, err := none, empty := false } } := by
  rcases bpackBody_cases (accept s) with ⟨-, hbody⟩ | ⟨⟨b, hb, hnone⟩, -⟩
  · rw [exec_eq, bodyOf, hbody]
    rfl
  · exact absurd hnone (h b hb)

/-- BPACK's end state when a byte of SRC has no code (R134). -/
theorem exec_bpack_of_missing {s : State} (h : ∃ b ∈ s.srcBytes, s.code.entry b = none) :
    exec .bpack s = .next { s with
      pay := [], pbits := 0, status := { state := .error, err := some .missingCode, empty := false } } := by
  obtain ⟨b, hb, hnone⟩ := h
  rcases bpackBody_cases (accept s) with ⟨hcoded, -⟩ | ⟨-, hbody⟩
  · exact absurd hnone (hcoded b hb)
  · rw [exec_eq, bodyOf, hbody]
    rfl

theorem CodeTable.length_codeOf (c : CodeTable) (bs : List Byte) :
    (c.codeOf bs).length = (bs.map fun b => ((c.entry b).getD []).length).sum := by
  rw [CodeTable.codeOf, List.length_flatMap]

/-- The packing pass gives at most 255 bits per byte of the file (R136). -/
theorem length_codeOf_srcBytes_le {s : State} (h : ∀ b x, s.code.entry b = some x → x.length ≤ 255) :
    (s.code.codeOf s.srcBytes).length ≤ 255 * s.srcLen.toNat := by
  have hlen : s.srcBytes.length = s.srcLen.toNat := length_bytes _ _
  exact hlen ▸ length_packPass_le h s.srcBytes

/-- Settles O28: 255 bits for each of fewer than 2^32 bytes do not wrap PBITS. -/
theorem bpackPacksCodes : Obligations.BpackPacksCodes := by
  intro s hle hcoded
  have hbound := length_codeOf_srcBytes_le hle
  have hpbits : (BitVec.ofNat 40 (s.code.codeOf s.srcBytes).length).toNat = (s.code.codeOf s.srcBytes).length := by
    have hsrc := s.srcLen.isLt
    rw [BitVec.toNat_ofNat]
    exact Nat.mod_eq_of_lt (by omega)
  exact ⟨_, exec_bpack_of_coded hcoded, rfl, rfl, hpbits.trans (CodeTable.length_codeOf _ _), hpbits,
    hpbits.trans_le hbound, ⟨rfl, rfl, rfl, rfl, rfl, rfl, rfl, rfl, rfl, rfl⟩, ⟨rfl, rfl⟩, ⟨rfl, rfl, rfl⟩, rfl,
    ⟨rfl, rfl⟩, ⟨rfl, rfl⟩, rfl⟩

/-- Settles O29: MissingCode is raised before the packing pass begins. -/
theorem bpackMissingCode : Obligations.BpackMissingCode := fun _ h =>
  ⟨_, exec_bpack_of_missing h, rfl, rfl, rfl, rfl, ⟨rfl, rfl, rfl, rfl, rfl, rfl, rfl, rfl, rfl, rfl⟩, ⟨rfl, rfl⟩,
    ⟨rfl, rfl, rfl⟩, rfl, ⟨rfl, rfl⟩, ⟨rfl, rfl⟩, rfl⟩

/-- Settles O30: every byte of the empty file has a code, whatever CODE holds. -/
theorem bpackEmptyFile : Obligations.BpackEmptyFile := by
  intro s hzero
  have hsrc : s.srcBytes = [] := List.eq_nil_of_length_eq_zero (by simp [State.srcBytes, hzero])
  have hcode : s.code.codeOf s.srcBytes = [] := by rw [hsrc]; rfl
  refine ⟨_, exec_bpack_of_coded (by simp [hsrc]), rfl, hcode, ?_⟩
  simp [hcode]

end Sys2Proof.Machine

/-! Proofs about BUNPACK (43_bit_unpacker.md R143 to R153): the walker reads the carrier code by code, whether it is
followed forward, from the codes in the carrier to the bytes it emits, or back, from its end to the codes it has read. -/

namespace Sys2Proof.Machine

/-! ### BUNPACK's end states -/

/-- The walk BUNPACK makes from the root `r` (R140). -/
def State.walk (s : State) (r : NodeIdx) : WalkEnd :=
  walkLoop s.tree r s.payloadBit s.payloadCapacity 0 r s.size.toNat []

/-- BUNPACK's end state when it has emitted `bs` and read `p` payload bits (R147). -/
def State.unpacked (s : State) (bs : List Byte) (p : Nat) : State :=
  { s with
    dst := Memory.ofBytes bs, dstLen := s.size, rdbits := BitVec.ofNat 32 p,
    status := { state := .done, err := none, empty := s.size == 0 } }

/-- BUNPACK's end state when it has raised `e` after `p` payload bits (R150). -/
def State.unpackFailed (s : State) (e : ErrorKind) (p : Nat) : State :=
  { s with
    dst := Memory.ofBytes [], dstLen := 0, rdbits := BitVec.ofNat 32 p,
    status := { state := .error, err := some e, empty := s.size == 0 } }

/-- BUNPACK's end state after a walk (R140). -/
def State.afterWalk (s : State) : WalkEnd → State
  | .finished bs p => s.unpacked bs p
  | .incomplete _ p => s.unpackFailed .incompleteStream p
  | .invalid _ p => s.unpackFailed .invalidCode p

section
variable {s : State}

theorem exec_bunpack_of_size_zero (hz : s.size = 0) : exec .bunpack s = .next (s.unpacked [] 0) := by
  have hbody : bunpackBody (accept s) = _ := (bunpackBody_eq (accept s)).trans (if_pos hz)
  rw [exec_eq, bodyOf, hbody]
  simp [complete, State.unpacked, State.withDst, State.withRdbits, State.withStatus, hz]

theorem exec_bunpack_of_no_root (hz : s.size ≠ 0) (hr : s.root = none) :
    exec .bunpack s = .next (s.unpackFailed .invalidCode 0) := by
  have hbody : bunpackBody (accept s) = _ := (bunpackBody_eq (accept s)).trans (if_neg hz)
  rw [exec_eq, bodyOf, hbody, accept_root, hr, Option.elim_none]
  simp [raiseError, emptyOutputs, State.unpackFailed, State.withDst, State.withRdbits, State.withStatus]

theorem exec_bunpack_of_root {r : NodeIdx} (hz : s.size ≠ 0) (hr : s.root = some r) :
    exec .bunpack s = .next (s.afterWalk (s.walk r)) := by
  have hbody : bunpackBody (accept s) = _ := (bunpackBody_eq (accept s)).trans (if_neg hz)
  rw [exec_eq, bodyOf, hbody, accept_root, hr, Option.elim_some, accept_tree, accept_size,
    payloadBit_congr (accept_cin s), payloadCapacity_congr (accept_cinLen s), ← State.walk]
  cases s.walk r <;>
    simp [endWalk, complete, raiseError, emptyOutputs, State.afterWalk, State.unpacked, State.unpackFailed,
      State.withDst, State.withRdbits, State.withStatus]

theorem exec_bunpack_of_finished {r : NodeIdx} (hz : s.size ≠ 0) (hr : s.root = some r) {bs : List Byte} {p : Nat}
    (hw : s.walk r = .finished bs p) : exec .bunpack s = .next (s.unpacked bs p) := by
  rw [exec_bunpack_of_root hz hr, hw, State.afterWalk]

theorem exec_bunpack_of_incomplete {r : NodeIdx} (hz : s.size ≠ 0) (hr : s.root = some r) {bs : List Byte} {p : Nat}
    (hw : s.walk r = .incomplete bs p) : exec .bunpack s = .next (s.unpackFailed .incompleteStream p) := by
  rw [exec_bunpack_of_root hz hr, hw, State.afterWalk]

@[simp] theorem unpackFailed_state (s : State) (e : ErrorKind) (p : Nat) :
    (s.unpackFailed e p).status.state = .error := rfl

theorem unpacked_done (hz : s.size ≠ 0) (bs : List Byte) (p : Nat) : (s.unpacked bs p).Done false := by
  rw [State.Done, State.unpacked, beq_eq_false_iff_ne.2 hz]

theorem unpackFailed_failed (hz : s.size ≠ 0) (e : ErrorKind) (p : Nat) : (s.unpackFailed e p).Failed e false := by
  rw [State.Failed, State.unpackFailed, beq_eq_false_iff_ne.2 hz]

/-- What a command that writes DST, DST_LEN, RDBITS and STATUS leaves unchanged, as BUNPACK's statements name it. -/
def KeepsAllButOutput (s t : State) : Prop :=
  KeepsInputs s t ∧ KeepsTable s t ∧ KeepsTree s t ∧ KeepsCode s t ∧ KeepsPay s t ∧ KeepsCout s t

theorem unpacked_frame (s : State) (bs : List Byte) (p : Nat) : KeepsAllButOutput s (s.unpacked bs p) :=
  ⟨⟨rfl, rfl, rfl, rfl, rfl, rfl, rfl, rfl, rfl, rfl⟩, ⟨rfl, rfl⟩, ⟨rfl, rfl, rfl⟩, rfl, ⟨rfl, rfl⟩, ⟨rfl, rfl⟩⟩

theorem unpackFailed_frame (s : State) (e : ErrorKind) (p : Nat) : KeepsAllButOutput s (s.unpackFailed e p) :=
  ⟨⟨rfl, rfl, rfl, rfl, rfl, rfl, rfl, rfl, rfl, rfl⟩, ⟨rfl, rfl⟩, ⟨rfl, rfl, rfl⟩, rfl, ⟨rfl, rfl⟩, ⟨rfl, rfl⟩⟩

/-- DST holds what was emitted, when that is as long as SIZE says. -/
theorem unpacked_dstBytes {bs : List Byte} (h : bs.length = s.size.toNat) (p : Nat) :
    (s.unpacked bs p).dstBytes = bs := by
  change (Memory.ofBytes bs).bytes s.size.toNat = bs
  rw [← h, bytes_ofBytes]

theorem unpacked_rdbits (bs : List Byte) {p : Nat} (h : p ≤ s.payloadCapacity) :
    (s.unpacked bs p).rdbits.toNat = p := by
  have := payloadCapacity_lt s
  exact Nat.mod_eq_of_lt (by omega)

theorem unpackFailed_rdbits (e : ErrorKind) {p : Nat} (h : p ≤ s.payloadCapacity) :
    (s.unpackFailed e p).rdbits.toNat = p :=
  unpacked_rdbits [] h

end

/-! ### One step of the walker -/

theorem leafPath_nil {t : NodeTable} {i : NodeIdx} {b : Byte} :
    t.LeafPath i [] b ↔ ∃ f, t.entry i = some (.leaf b f) := by
  simp [NodeTable.LeafPath]

/-- An internal node stands at index `i`. -/
def NodeTable.Internal (t : NodeTable) (i : NodeIdx) : Prop := ∃ f l r, t.entry i = some (.internal f l r)

section
variable {t : Tree} {root cur nxt : NodeIdx} {b : Bit} {x : Byte}

theorem walkBit_eq_branch_iff (hk : t.kind ≠ .degen) :
    walkBit t root cur b = some (nxt, none) ↔ t.node.child cur b = some nxt ∧ t.node.Internal nxt := by
  rw [walkBit, if_neg hk]
  cases hc : t.node.child cur b with
  | none => simp
  | some j =>
    by_cases hn : j = nxt
    · subst hn
      rcases hj : t.node.entry j with _ | ⟨sym, f⟩ | ⟨f, l, r⟩ <;> simp [NodeTable.Internal, hj]
    · rcases hj : t.node.entry j with _ | ⟨sym, f⟩ | ⟨f, l, r⟩ <;> simp [hj, hn]

theorem walkBit_eq_emit_iff (hk : t.kind ≠ .degen) :
    walkBit t root cur b = some (nxt, some x) ↔ nxt = root ∧ t.node.LeafPath cur [b] x := by
  rw [walkBit, if_neg hk]
  simp only [leafPath_cons, leafPath_nil]
  cases hc : t.node.child cur b with
  | none => simp
  | some j => rcases hj : t.node.entry j with _ | ⟨sym, f⟩ | ⟨f, l, r⟩ <;> simp [hj, eq_comm]

/-- In the degenerate tree a step emits the sole symbol, whatever the bit (R146). -/
theorem walkBit_of_sole (hk : t.kind = .degen) (hx : soleSymbol t.node root = some x) :
    walkBit t root cur b = some (root, some x) := by
  rw [walkBit, if_pos hk, hx]

end

/-! ### The walker's loop, step by step -/

section
variable {t : Tree} {root cur nxt : NodeIdx} {bit : Nat → Bit} {p : Nat}

@[simp] theorem walkLoop_need_zero (t : Tree) (root cur : NodeIdx) (bit : Nat → Bit) (left p : Nat) (dst : List Byte) :
    walkLoop t root bit left p cur 0 dst = .finished dst p := by
  cases left <;> rfl

theorem walkLoop_of_branch (h : walkBit t root cur (bit p) = some (nxt, none)) (left need : Nat) (dst : List Byte) :
    walkLoop t root bit (left + 1) p cur (need + 1) dst = walkLoop t root bit left (p + 1) nxt (need + 1) dst := by
  rw [walkLoop, h]

theorem walkLoop_of_emit {x : Byte} (h : walkBit t root cur (bit p) = some (nxt, some x)) (left need : Nat)
    (dst : List Byte) :
    walkLoop t root bit (left + 1) p cur (need + 1) dst = walkLoop t root bit left (p + 1) nxt need (dst ++ [x]) := by
  rw [walkLoop, h]

/-- A walk that owes a byte and finishes has a bit to read, and finishes from the node this bit leads to. -/
theorem walkLoop_succ_finished {left need q : Nat} {dst out : List Byte}
    (h : walkLoop t root bit left p cur (need + 1) dst = .finished out q) : ∃ left', left = left' + 1 ∧
      ((∃ nxt, walkBit t root cur (bit p) = some (nxt, none) ∧
          walkLoop t root bit left' (p + 1) nxt (need + 1) dst = .finished out q) ∨
        ∃ nxt x, walkBit t root cur (bit p) = some (nxt, some x) ∧
          walkLoop t root bit left' (p + 1) nxt need (dst ++ [x]) = .finished out q) := by
  cases left with
  | zero => simp [walkLoop] at h
  | succ left =>
    refine ⟨left, rfl, ?_⟩
    rcases hw : walkBit t root cur (bit p) with _ | ⟨nxt, _ | x⟩
    · simp [walkLoop, hw] at h
    · exact .inl ⟨nxt, rfl, walkLoop_of_branch hw left need dst ▸ h⟩
    · exact .inr ⟨nxt, x, rfl, walkLoop_of_emit hw left need dst ▸ h⟩

end

theorem le_of_walkLoop_finished {t : Tree} {root cur : NodeIdx} {bit : Nat → Bit} {left p need q : Nat}
    {dst out : List Byte} (h : walkLoop t root bit left p cur need dst = .finished out q) : p ≤ q := by
  rcases walkLoop_cases t root bit left p cur need dst with
    ⟨out', q', h', -, hq, -⟩ | ⟨out', h', -⟩ | ⟨out', q', h', -⟩
  · rw [h, WalkEnd.finished.injEq] at h'
    omega
  · simp [h] at h'
  · simp [h] at h'

/-- A walk that finishes looks at no bit after the last it has read, nor at whether there is one (R147). -/
theorem walkLoop_finished_congr {t : Tree} {root cur : NodeIdx} {bit bit' : Nat → Bit} {left left' p need q : Nat}
    {dst out : List Byte} (h : walkLoop t root bit left p cur need dst = .finished out q)
    (hbit : ∀ k, p ≤ k → k < q → bit' k = bit k) (hleft : q ≤ p + left') :
    walkLoop t root bit' left' p cur need dst = .finished out q := by
  induction left generalizing left' p cur need dst with
  | zero =>
    cases need with
    | zero => simpa using h
    | succ need => simp [walkLoop] at h
  | succ left ih =>
    cases need with
    | zero => simpa using h
    | succ need =>
      have hfirst := hbit p (Nat.le_refl _)
      obtain ⟨left₀, hl, ⟨nxt, hw, hrest⟩ | ⟨nxt, x, hw, hrest⟩⟩ := walkLoop_succ_finished h
      all_goals
        obtain rfl := Nat.succ.inj hl
        have hq := le_of_walkLoop_finished hrest
        obtain ⟨n, rfl⟩ : ∃ n, left' = n + 1 := ⟨left' - 1, by omega⟩
        have hgoes := ih hrest (fun k hk => hbit k (by omega)) (left' := n) (by omega)
        rw [← hfirst (by omega)] at hw
      · rw [walkLoop_of_branch hw, hgoes]
      · rw [walkLoop_of_emit hw, hgoes]

/-! ### The walker and the codes -/

/-- The codes CGEN makes of a tree (R120). -/
abbrev Tree.codes (t : Tree) : CodeTable := codesOf t.node t.root

/-- From position `p` on, the bits begin with `xs`. -/
def Spells (bit : Nat → Bit) (p : Nat) (xs : List Bit) : Prop := ∀ i, i < xs.length → xs[i]? = some (bit (p + i))

section
variable {bit : Nat → Bit} {p : Nat}

@[simp] theorem spells_nil : Spells bit p [] := fun i hi => absurd hi (Nat.not_lt_zero i)

theorem spells_cons {x : Bit} {xs : List Bit} : Spells bit p (x :: xs) ↔ x = bit p ∧ Spells bit (p + 1) xs := by
  constructor
  · intro h
    refine ⟨by simpa using h 0 (by simp), fun i hi => ?_⟩
    have := h (i + 1) (by simpa using hi)
    rwa [List.getElem?_cons_succ, show p + (i + 1) = p + 1 + i by omega] at this
  · rintro ⟨rfl, h⟩ i hi
    cases i with
    | zero => rfl
    | succ i =>
      rw [List.getElem?_cons_succ, h i (by simpa using hi), show p + 1 + i = p + (i + 1) by omega]

theorem spells_append {xs ys : List Bit} :
    Spells bit p (xs ++ ys) ↔ Spells bit p xs ∧ Spells bit (p + xs.length) ys := by
  induction xs generalizing p with
  | nil => simp
  | cons x xs ih =>
    rw [List.cons_append, spells_cons, ih, spells_cons, and_assoc, List.length_cons,
      show p + 1 + xs.length = p + (xs.length + 1) by omega]

end

section
variable {t : Tree} {root cur : NodeIdx} {bit : Nat → Bit} {p : Nat}

theorem NodeTable.LeafPath.internal {t : NodeTable} {i : NodeIdx} {d : Bit} {xs : List Bit} {b : Byte}
    (h : t.LeafPath i (d :: xs) b) : t.Internal i := by
  obtain ⟨j, hj, -⟩ := leafPath_cons.1 h
  obtain ⟨f, l, r, hi, -⟩ := child_eq_some hj
  exact ⟨f, l, r, hi⟩

/-- The walker follows the bits of a path to a leaf and emits the leaf's byte (R142). -/
theorem walkLoop_of_leafPath (hk : t.kind ≠ .degen) {d : Bit} {xs : List Bit} {b : Byte}
    (hpath : t.node.LeafPath cur (d :: xs) b) (hbits : Spells bit p (d :: xs)) (left need : Nat) (dst : List Byte) :
    walkLoop t root bit (left + (xs.length + 1)) p cur (need + 1) dst =
      walkLoop t root bit left (p + (xs.length + 1)) root need (dst ++ [b]) := by
  induction xs generalizing cur d p with
  | nil =>
    obtain ⟨rfl, -⟩ := spells_cons.1 hbits
    exact walkLoop_of_emit ((walkBit_eq_emit_iff hk).2 ⟨rfl, hpath⟩) left need dst
  | cons e xs ih =>
    obtain ⟨rfl, hrest⟩ := spells_cons.1 hbits
    obtain ⟨j, hj, hbelow⟩ := leafPath_cons.1 hpath
    have hstep : walkBit t root cur (bit p) = some (j, none) := (walkBit_eq_branch_iff hk).2 ⟨hj, hbelow.internal⟩
    rw [List.length_cons, ← Nat.add_assoc, walkLoop_of_branch hstep, ih hbelow hrest]
    congr 1
    omega

/-- A walk that owes a byte and finishes has first read a path to a leaf and emitted the leaf's byte. -/
theorem exists_leafPath_of_walkLoop_finished (hk : t.kind ≠ .degen) {left need q : Nat} {dst out : List Byte}
    (h : walkLoop t root bit left p cur (need + 1) dst = .finished out q) :
    ∃ xs b left', t.node.LeafPath cur xs b ∧ Spells bit p xs ∧
      walkLoop t root bit left' (p + xs.length) root need (dst ++ [b]) = .finished out q := by
  induction left generalizing cur p with
  | zero => simp [walkLoop] at h
  | succ left ih =>
    obtain ⟨left', hl, ⟨nxt, hw, hrest⟩ | ⟨nxt, b, hw, hrest⟩⟩ := walkLoop_succ_finished h
    · obtain rfl := Nat.succ.inj hl
      obtain ⟨hchild, -⟩ := (walkBit_eq_branch_iff hk).1 hw
      obtain ⟨xs, b, left', hpath, hbits, hend⟩ := ih hrest
      refine ⟨bit p :: xs, b, left', leafPath_cons.2 ⟨nxt, hchild, hpath⟩, spells_cons.2 ⟨rfl, hbits⟩, ?_⟩
      rwa [List.length_cons, show p + (xs.length + 1) = p + 1 + xs.length by omega]
    · obtain ⟨rfl, hpath⟩ := (walkBit_eq_emit_iff hk).1 hw
      exact ⟨[bit p], b, left', hpath, spells_cons.2 ⟨rfl, spells_nil⟩, hrest⟩

end

@[simp] theorem CodeTable.codeOf_nil (c : CodeTable) : c.codeOf [] = [] := rfl

theorem CodeTable.codeOf_cons {c : CodeTable} {b : Byte} {x : List Bit} (hx : c.entry b = some x) (bs : List Byte) :
    c.codeOf (b :: bs) = x ++ c.codeOf bs := by
  simp [CodeTable.codeOf, hx]

section
variable {t : Tree} (ht : t.Ok) {root : NodeIdx} (hroot : t.root = some root) {bit : Nat → Bit} {p : Nat}
include ht hroot

/-- From the root the walker reads a code and emits its byte; in the degenerate tree it reads any bit (R142, R146). -/
theorem Tree.Ok.walkLoop_of_code {b : Byte} {x : List Bit} (hx : t.codes.entry b = some x)
    (hbits : Spells bit p x) (left need : Nat) (dst : List Byte) :
    walkLoop t root bit (left + x.length) p root (need + 1) dst =
      walkLoop t root bit left (p + x.length) root need (dst ++ [b]) := by
  by_cases hk : t.kind = .degen
  · obtain ⟨sym, hsole, hcodes⟩ := ht.codesOf_degen hk hroot
    obtain ⟨rfl, rfl⟩ := (hcodes b x).1 hx
    exact walkLoop_of_emit (walkBit_of_sole hk hsole) left need dst
  · have hne := (ht.length_code hx).1
    obtain ⟨r, hr, hpath⟩ := ht.codesOf_entry_iff.1 hx
    obtain rfl := Option.some.inj (hroot.symm.trans hr)
    cases x with
    | nil => exact absurd rfl hne
    | cons d xs => exact walkLoop_of_leafPath hk hpath hbits left need dst

/-- From the root the walker reads the codes of a byte sequence and emits the sequence (R153). -/
theorem Tree.Ok.walkLoop_of_codeOf {bs : List Byte} (hcoded : ∀ b ∈ bs, t.codes.entry b ≠ none)
    (hbits : Spells bit p (t.codes.codeOf bs)) (left : Nat) (dst : List Byte) :
    walkLoop t root bit (left + (t.codes.codeOf bs).length) p root bs.length dst =
      .finished (dst ++ bs) (p + (t.codes.codeOf bs).length) := by
  induction bs generalizing p dst with
  | nil => simp
  | cons b bs ih =>
    obtain ⟨x, hx⟩ := Option.ne_none_iff_exists'.1 (hcoded b (by simp))
    rw [CodeTable.codeOf_cons hx] at hbits ⊢
    obtain ⟨hfirst, hrest⟩ := spells_append.1 hbits
    rw [List.length_append, List.length_cons, Nat.add_comm x.length, ← Nat.add_assoc,
      ht.walkLoop_of_code hroot hx hfirst, ih (fun c hc => hcoded c (by simp [hc])) hrest]
    simp [Nat.add_assoc, Nat.add_comm x.length]

/-- A walk from the root that owes a byte and finishes has first read a code and emitted its byte; in the degenerate
tree it has read one bit, whatever its value. -/
theorem Tree.Ok.exists_code_of_walkLoop_finished {left need q : Nat} {dst out : List Byte}
    (h : walkLoop t root bit left p root (need + 1) dst = .finished out q) :
    ∃ b x left', t.codes.entry b = some x ∧ (t.kind ≠ .degen → Spells bit p x) ∧
      walkLoop t root bit left' (p + x.length) root need (dst ++ [b]) = .finished out q := by
  by_cases hk : t.kind = .degen
  · obtain ⟨sym, hsole, hcodes⟩ := ht.codesOf_degen hk hroot
    have hstep : ∀ d, walkBit t root root d = some (root, some sym) := fun d => walkBit_of_sole hk hsole
    refine ⟨sym, [false], left - 1, (hcodes sym _).2 ⟨rfl, rfl⟩, fun hn => absurd hk hn, ?_⟩
    obtain ⟨left', rfl, ⟨nxt, hw, hrest⟩ | ⟨nxt, b, hw, hrest⟩⟩ := walkLoop_succ_finished h
    · simp [hstep] at hw
    · simp only [hstep, Option.some.injEq, Prod.mk.injEq] at hw
      obtain ⟨rfl, rfl⟩ := hw
      exact hrest
  · obtain ⟨x, b, left', hpath, hbits, hrest⟩ := exists_leafPath_of_walkLoop_finished hk h
    exact ⟨b, x, left', ht.codesOf_entry_iff.2 ⟨root, hroot, hpath⟩, fun _ => hbits, hrest⟩

/-- A walk from the root that finishes has read the codes of the bytes it has emitted; in the degenerate tree it has
read as many bits, whatever their values (R146, R147). -/
theorem Tree.Ok.exists_codeOf_of_walkLoop_finished {left need q : Nat} {dst out : List Byte}
    (h : walkLoop t root bit left p root need dst = .finished out q) :
    ∃ bs, out = dst ++ bs ∧ (∀ b ∈ bs, t.codes.entry b ≠ none) ∧
      q = p + (t.codes.codeOf bs).length ∧
      (t.kind ≠ .degen → Spells bit p (t.codes.codeOf bs)) := by
  induction need generalizing left p dst with
  | zero =>
    rw [walkLoop_need_zero, WalkEnd.finished.injEq] at h
    obtain ⟨rfl, rfl⟩ := h
    exact ⟨[], by simp⟩
  | succ need ih =>
    obtain ⟨b, x, left', hx, hbits, hrest⟩ := ht.exists_code_of_walkLoop_finished hroot h
    obtain ⟨bs, rfl, hcoded, rfl, hspells⟩ := ih hrest
    refine ⟨b :: bs, by simp, by simpa [hx] using hcoded, ?_, fun hk => ?_⟩
    · rw [CodeTable.codeOf_cons hx, List.length_append, Nat.add_assoc]
    · rw [CodeTable.codeOf_cons hx]
      exact spells_append.2 ⟨hbits hk, hspells hk⟩

end

/-! ### From the codes to the bytes (R153) -/

/-- The payload bits of the carrier, as the statements name them (R141). -/
theorem spells_payload_iff {s : State} {xs : List Bit} :
    Spells s.payloadBit 0 xs ↔ ∀ p, p < xs.length → xs[p]? = some (extractBit (s.cin.read (8278 + p))) := by
  simp [Spells, State.payloadBit, State.carrierBit]

theorem exec_cgen_code {s g : State} (hg : exec .cgen s = .next g) : g.code = s.tree.codes := by
  rw [exec_next_iff.1 hg]
  rfl

/-- BUNPACK's end state when the payload begins with the codes of SIZE bytes. -/
theorem exec_bunpack_of_codeOf {s : State} (hs : s.tree.Ok) {bs : List Byte}
    (hcoded : ∀ b ∈ bs, s.tree.codes.entry b ≠ none) (hsize : s.size.toNat = bs.length)
    (hbits : Spells s.payloadBit 0 (s.tree.codes.codeOf bs))
    (hlen : (s.tree.codes.codeOf bs).length ≤ s.payloadCapacity) :
    exec .bunpack s = .next (s.unpacked bs (s.tree.codes.codeOf bs).length) := by
  rcases bs with _ | ⟨b, bs⟩
  · exact exec_bunpack_of_size_zero (BitVec.eq_of_toNat_eq hsize)
  · obtain ⟨x, hx⟩ := Option.ne_none_iff_exists'.1 (hcoded b (by simp))
    obtain ⟨r, hr, -⟩ := hs.codesOf_entry_iff.1 hx
    have hz : s.size ≠ 0 := fun h => by simp [h] at hsize
    have hwalk := hs.walkLoop_of_codeOf hr hcoded hbits
      (s.payloadCapacity - (s.tree.codes.codeOf (b :: bs)).length) []
    rw [Nat.sub_add_cancel hlen, List.nil_append, Nat.zero_add, ← hsize] at hwalk
    exact exec_bunpack_of_finished hz hr hwalk

/-! ### From a finished walk to the codes (R147) -/

/-- BUNPACK ends DONE when no output is expected, and at the end of a walk that finishes. -/
theorem bunpack_done_cases {s t : State} (h : exec .bunpack s = .next t) (hdone : t.status.state = .done) :
    (s.size = 0 ∧ t = s.unpacked [] 0) ∨
    ∃ r bs p, s.size ≠ 0 ∧ s.root = some r ∧ s.walk r = .finished bs p ∧ t = s.unpacked bs p := by
  by_cases hz : s.size = 0
  · rw [exec_bunpack_of_size_zero hz] at h
    exact .inl ⟨hz, (Host.Outcome.next.inj h).symm⟩
  · cases hr : s.root with
    | none =>
      rw [exec_bunpack_of_no_root hz hr] at h
      obtain rfl := Host.Outcome.next.inj h
      simp at hdone
    | some r =>
      rw [exec_bunpack_of_root hz hr] at h
      cases hw : s.walk r <;> rw [hw] at h <;> obtain rfl := Host.Outcome.next.inj h
      case finished bs p => exact .inr ⟨r, bs, p, hz, rfl, hw, rfl⟩
      case incomplete bs p => simp [State.afterWalk] at hdone
      case invalid bs p => simp [State.afterWalk] at hdone

/-- A walk of BUNPACK that finishes has emitted SIZE bytes and read bits the carrier holds (R147, R148). -/
theorem walk_finished_bounds {s : State} {r : NodeIdx} {bs : List Byte} {p : Nat} (h : s.walk r = .finished bs p) :
    bs.length = s.size.toNat ∧ p ≤ s.payloadCapacity := by
  rw [State.walk] at h
  rcases walkLoop_cases s.tree r s.payloadBit s.payloadCapacity 0 r s.size.toNat [] with
    ⟨out, q, h', hlen, -, hq⟩ | ⟨out, h', -⟩ | ⟨out, q, h', -⟩
  · rw [h', List.nil_append, WalkEnd.finished.injEq] at h
    obtain ⟨rfl, rfl⟩ := h
    exact ⟨hlen, by omega⟩
  · simp [h'] at h
  · simp [h'] at h

/-- When BUNPACK ends DONE it has emitted SIZE coded bytes and read as many bits as their codes have; in a FULL tree
these are the bits it has read (R147). -/
theorem bunpack_done_codes {s t : State} (hs : s.tree.Ok) (h : exec .bunpack s = .next t)
    (hdone : t.status.state = .done) : ∃ bs p, t = s.unpacked bs p ∧ bs.length = s.size.toNat ∧
      p ≤ s.payloadCapacity ∧ (∀ b ∈ bs, s.tree.codes.entry b ≠ none) ∧
      p = (s.tree.codes.codeOf bs).length ∧
      (s.tkind ≠ .degen → Spells s.payloadBit 0 (s.tree.codes.codeOf bs)) := by
  rcases bunpack_done_cases h hdone with ⟨hz, rfl⟩ | ⟨r, bs, p, -, hr, hw, rfl⟩
  · exact ⟨[], 0, rfl, by simp [hz], Nat.zero_le _, by simp, by simp, by simp⟩
  · obtain ⟨hlen, hp⟩ := walk_finished_bounds hw
    obtain ⟨bs', hbs, hcoded, hq, hspells⟩ := hs.exists_codeOf_of_walkLoop_finished hr hw
    rw [List.nil_append] at hbs
    rw [Nat.zero_add] at hq
    subst hbs
    exact ⟨bs, p, rfl, hlen, hp, hcoded, hq, hspells⟩

/-- When BUNPACK ends DONE, another carrier that agrees on the payload bytes it has read gives the same end (R147). -/
theorem bunpack_done_withCarrier {s t : State} (h : exec .bunpack s = .next t) (hdone : t.status.state = .done)
    {m : Memory} {n : Word} (hn : 8278 + t.rdbits.toNat ≤ n.toNat)
    (hm : ∀ p, p < t.rdbits.toNat → m.read (8278 + p) = s.cin.read (8278 + p)) :
    exec .bunpack { s with cin := m, cinLen := n } = .next { t with cin := m, cinLen := n } := by
  rcases bunpack_done_cases h hdone with ⟨hz, rfl⟩ | ⟨r, bs, p, hz, hr, hw, rfl⟩
  · exact exec_bunpack_of_size_zero (s := { s with cin := m, cinLen := n }) hz
  · have hp : (s.unpacked bs p).rdbits.toNat = p := unpacked_rdbits bs (walk_finished_bounds hw).2
    rw [hp] at hn hm
    have hwalk : State.walk { s with cin := m, cinLen := n } r = .finished bs p := by
      refine walkLoop_finished_congr hw (fun k _ hk => congrArg extractBit (hm k hk)) ?_
      rw [State.payloadCapacity, Config.payBase_eq]
      simp only
      omega
    exact exec_bunpack_of_finished (s := { s with cin := m, cinLen := n }) hz hr hwalk

/-! ### The empty tree (R144) -/

theorem buildTree_root_eq_none_iff (f : FreqTable) :
    (buildTree f).root = none ↔ ∀ b : Fin 256, f[b.val] = 0 := by
  refine ⟨fun h b => ?_, fun h => by rw [buildTree_of_no_symbol (symbols_eq_zero h)]⟩
  have hleaf := buildTree_entry_of_lt f (i := ⟨b.val, by omega⟩) b.isLt
  rw [(buildTree_okFor f).1.noNodes h, leafArena_entry, dif_pos b.isLt] at hleaf
  by_contra hb
  rw [if_neg hb] at hleaf
  simp at hleaf

/-- In a tree that meets R32 every bit leads from an internal node to a node (R149). -/
theorem Tree.Ok.exists_walkBit {t : Tree} (ht : t.Ok) {root cur : NodeIdx} (hroot : t.root = some root)
    (hcur : t.node.Internal cur) (b : Bit) : ∃ nxt x, walkBit t root cur b = some (nxt, x) ∧ t.node.Internal nxt := by
  by_cases hk : t.kind = .degen
  · obtain ⟨sym, hsole, -⟩ := ht.codesOf_degen hk hroot
    exact ⟨root, some sym, walkBit_of_sole hk hsole, (ht.rootTop root hroot).1⟩
  · obtain ⟨f, l, r, he⟩ := hcur
    obtain ⟨hl, hr⟩ := ht.twoChildren cur f l r he
    obtain ⟨hleft, hright⟩ := child_of_internal he
    obtain ⟨j, hj⟩ : ∃ j, t.node.child cur b = some j := by
      refine Option.ne_none_iff_exists'.1 ?_
      cases b with
      | false => rwa [hleft]
      | true => exact hright ▸ fun hn => hk (hr.1 hn).1
    rcases hje : t.node.entry j with _ | ⟨sym, g⟩ | ⟨g, l', r'⟩
    · exact absurd hje (ht.childBelow cur b j hj).2
    · exact ⟨root, some sym, (walkBit_eq_emit_iff hk).2 ⟨rfl, leafPath_cons.2 ⟨j, hj, leafPath_nil.2 ⟨g, hje⟩⟩⟩,
        (ht.rootTop root hroot).1⟩
    · exact ⟨j, none, (walkBit_eq_branch_iff hk).2 ⟨hj, g, l', r', hje⟩, g, l', r', hje⟩

/-- In a tree that meets R32 no walk comes to a position without a node (R149). -/
theorem Tree.Ok.walkLoop_ne_invalid {t : Tree} (ht : t.Ok) {root cur : NodeIdx} (hroot : t.root = some root)
    (hcur : t.node.Internal cur) (bit : Nat → Bit) (left p need : Nat) (dst out : List Byte) (q : Nat) :
    walkLoop t root bit left p cur need dst ≠ .invalid out q := by
  induction left generalizing p cur need dst with
  | zero => cases need <;> simp [walkLoop]
  | succ left ih =>
    cases need with
    | zero => simp
    | succ need =>
      obtain ⟨nxt, _ | x, hw, hnxt⟩ := ht.exists_walkBit hroot hcur (bit p)
      · rw [walkLoop_of_branch hw]
        exact ih hnxt _ _ _
      · rw [walkLoop_of_emit hw]
        exact ih hnxt _ _ _

/-- BUNPACK's pseudocode raises InvalidCode exactly when output is expected of the empty tree (R144, R149). -/
theorem bunpackBody_invalidCode_iff {s : State} (hs : s.tree.Ok) (herr : s.status.err = none) :
    (finish (bunpackBody s)).status.err = some .invalidCode ↔ s.size ≠ 0 ∧ s.root = none := by
  rcases bunpackBody_cases s with ⟨hz, hb⟩ | ⟨hz, hr, hb⟩ | ⟨r, hz, hr, hb⟩
  · simp [hb, hz, herr]
  · rw [hb]
    exact iff_of_true rfl ⟨hz, hr⟩
  · rw [hb]
    cases hw : walkLoop s.tree r s.payloadBit s.payloadCapacity 0 r s.size.toNat [] with
    | finished bs p => simp [endWalk, herr, hr]
    | incomplete bs p => simp [endWalk, hr]
    | invalid bs p => exact absurd hw (hs.walkLoop_ne_invalid hr (hs.rootTop r hr).1 _ _ _ _ _ _ _)

/-- The state with DST empty and RDBITS 0, as DECODE's first line leaves it (R184). -/
def State.clearDst (s : State) : State := (s.withDst [] 0).withRdbits 0

/-- The end of a command's pseudocode with DST empty and RDBITS 0. -/
def BodyEnd.clearDst (r : BodyEnd) : BodyEnd :=
  match r with
  | .done t => .done t.clearDst
  | .raised e t => .raised e t.clearDst

/-- FEXTRACT neither reads nor writes DST and RDBITS (R169). -/
theorem fextractBody_clearDst (s : State) : fextractBody s.clearDst = (fextractBody s).clearDst := by
  have hlen : s.clearDst.cinLen = s.cinLen := rfl
  have hfield : s.clearDst.frameField 0 = s.frameField 0 := rfl
  have htable : s.clearDst.frameTable = s.frameTable := rfl
  rw [fextractBody_eq, fextractBody_eq, hlen, hfield, htable]
  split_ifs <;> rfl

/-- On a nonzero size, building a tree and walking it raises InvalidCode exactly when the table is all zero (R105,
R144). -/
theorem bunpackBody_tbuildBody_invalidCode_iff {t : State} (hz : t.size ≠ 0) (herr : t.status.err = none) :
    (finish (bunpackBody (tbuildBody t))).status.err = some .invalidCode ↔ ∀ b : Fin 256, t.freq[b.val] = 0 := by
  have htree : (tbuildBody t).tree.Ok := (buildTree_okFor t.freq).1
  have hroot : (tbuildBody t).root = (buildTree t.freq).root := rfl
  rw [bunpackBody_invalidCode_iff htree herr, hroot, buildTree_root_eq_none_iff]
  exact and_iff_right hz

/-- DECODE raises InvalidCode exactly when FEXTRACT reads a nonzero size and a table of zeros (R144). -/
theorem decode_invalidCode_iff (s : State) : (finish (decodeBody (accept s))).status.err = some .invalidCode ↔
    (finish (fextractBody (accept s))).status.state = .done ∧ (finish (fextractBody (accept s))).size ≠ 0 ∧
      ∀ b : Fin 256, (finish (fextractBody (accept s))).freq[b.val] = 0 := by
  have hbody : decodeBody (accept s) = (fextractBody (accept s).clearDst).andThen fun t =>
      if t.size = 0 then .done t else bunpackBody (tbuildBody t) := rfl
  rw [hbody, fextractBody_clearDst]
  rcases fextractBody_cases (accept s) with ⟨-, hx⟩ | ⟨-, -, hx⟩ | ⟨-, hz, hx⟩ <;> rw [hx, BodyEnd.clearDst]
  · simp
  · simp [State.clearDst]
  · rw [andThen_done]
    split
    · next h => exact absurd h hz
    · next h =>
      rw [bunpackBody_tbuildBody_invalidCode_iff h rfl]
      exact ⟨fun hzero => ⟨rfl, hz, hzero⟩, fun ⟨_, _, hzero⟩ => hzero⟩

/-! ### The degenerate tree (R146) -/

/-- Each of `k` bits emits the sole symbol. -/
theorem walkLoop_of_sole {t : Tree} {root : NodeIdx} {sym : Byte} (hk : t.kind = .degen)
    (hsole : soleSymbol t.node root = some sym) (bit : Nat → Bit) (k left p need : Nat) (dst : List Byte) :
    walkLoop t root bit (left + k) p root (need + k) dst =
      walkLoop t root bit left (p + k) root need (dst ++ List.replicate k sym) := by
  induction k generalizing p dst with
  | zero => simp
  | succ k ih =>
    rw [← Nat.add_assoc, ← Nat.add_assoc, walkLoop_of_emit (walkBit_of_sole hk hsole), ih, List.append_assoc,
      Nat.add_right_comm, Nat.add_assoc p k 1]
    rfl

section
variable {s : State} {r : NodeIdx} {sym : Byte} (hk : s.tkind = .degen) (hsole : soleSymbol s.node r = some sym)
include hk hsole

theorem walk_of_sole_finished (h : s.size.toNat ≤ s.payloadCapacity) :
    s.walk r = .finished (List.replicate s.size.toNat sym) s.size.toNat := by
  have hrun := walkLoop_of_sole (t := s.tree) hk hsole s.payloadBit s.size.toNat
    (s.payloadCapacity - s.size.toNat) 0 0 []
  rw [Nat.sub_add_cancel h, Nat.zero_add, walkLoop_need_zero, List.nil_append] at hrun
  exact hrun

theorem walk_of_sole_incomplete (h : s.payloadCapacity < s.size.toNat) :
    s.walk r = .incomplete (List.replicate s.payloadCapacity sym) s.payloadCapacity := by
  obtain ⟨need, hneed⟩ : ∃ need, s.size.toNat = need + 1 + s.payloadCapacity :=
    ⟨s.size.toNat - s.payloadCapacity - 1, by omega⟩
  have hrun := walkLoop_of_sole (t := s.tree) hk hsole s.payloadBit s.payloadCapacity 0 0 (need + 1) []
  rw [Nat.zero_add, walkLoop, List.nil_append] at hrun
  rw [State.walk, hneed]
  exact hrun

end

/-! ### The obligations -/

/-- Settles O39: BUNPACK ends before it looks at the tree or the carrier. -/
theorem bunpackSizeZero : Obligations.BunpackSizeZero := by
  intro s hz
  refine ⟨_, exec_bunpack_of_size_zero hz, ?_, hz, unpacked_dstBytes (by simp [hz]) 0, rfl, rfl, unpacked_frame s _ _⟩
  simp [State.Done, State.unpacked, hz]

/-- Settles O40: the error is raised before the walk, and on a tree TBUILD has made no walk raises it. -/
theorem bunpackEmptyTree : Obligations.BunpackEmptyTree := by
  refine ⟨fun s hz hr => ⟨_, exec_bunpack_of_no_root hz hr, unpackFailed_failed hz _ _, rfl, rfl, rfl, rfl, rfl,
    unpackFailed_frame s _ _⟩, fun s u hu => ⟨_, exec_eq .decode s, ?_⟩⟩
  rw [exec_next_iff.1 hu]
  exact decode_invalidCode_iff s

/-- Settles O41: every bit emits the sole symbol, so the walk is as long as SIZE or as the carrier. -/
theorem bunpackDegenerateTree : Obligations.BunpackDegenerateTree := by
  intro s r l f g b hz hk hr hroot hleaf
  have hsole : soleSymbol s.node r = some b := by
    simp [soleSymbol, (child_of_internal hroot).1, hleaf]
  have hcap : s.payloadCapacity = s.cinLen.toNat - 8278 := by rw [State.payloadCapacity, Config.payBase_eq]
  have hpos : 0 < s.size.toNat := Nat.pos_of_ne_zero fun h => hz (BitVec.eq_of_toNat_eq h)
  rcases Nat.lt_or_ge s.payloadCapacity s.size.toNat with hlt | hge
  · refine ⟨_, exec_bunpack_of_incomplete hz hr (walk_of_sole_incomplete hk hsole hlt), fun h => ?_, fun _ =>
      ⟨unpackFailed_failed hz _ _, rfl, rfl, ?_⟩, unpackFailed_frame s _ _⟩
    · omega
    · rw [unpackFailed_rdbits _ (Nat.le_refl _), hcap]
  · refine ⟨_, exec_bunpack_of_finished hz hr (walk_of_sole_finished hk hsole hge), fun _ =>
      ⟨unpacked_done hz _ _, rfl, unpacked_dstBytes (by simp) _, ?_⟩, fun h => ?_, unpacked_frame s _ _⟩
    · exact BitVec.eq_of_toNat_eq (unpacked_rdbits _ hge)
    · omega

/-- Settles O43: a finished walk has read the codes of what it has emitted, and looks no further. -/
theorem bunpackStopsAtLastByte : Obligations.BunpackStopsAtLastByte := by
  intro s t hs ht hdone
  refine ⟨fun g hg => ?_, fun m n hn hm => bunpack_done_withCarrier ht hdone hn hm⟩
  obtain ⟨bs, p, rfl, hlen, hp, hcoded, hq, hspells⟩ := bunpack_done_codes hs ht hdone
  rw [exec_cgen_code hg, unpacked_dstBytes hlen, unpacked_rdbits bs hp]
  refine ⟨rfl, hlen, hcoded, hq, fun k hkp hfull => ?_⟩
  exact spells_payload_iff.1 (hspells (by simp [hfull])) k (hq ▸ hkp)

/-- Settles O44: the walker reads the codes one after the other and emits their bytes. -/
theorem bunpackInvertsCodes : Obligations.BunpackInvertsCodes := by
  intro s g bs hs hg
  rw [exec_cgen_code hg]
  intro hcoded hsize hbits hlen
  have hcap : (s.tree.codes.codeOf bs).length ≤ s.payloadCapacity := by
    rw [State.payloadCapacity, Config.payBase_eq]
    omega
  exact ⟨_, exec_bunpack_of_codeOf hs hcoded hsize (spells_payload_iff.2 hbits) hcap, rfl,
    unpacked_dstBytes hsize.symm _, unpacked_rdbits bs hcap⟩

end Sys2Proof.Machine

/-! Proofs about the framing layer (44_framing.md R161 to R177): the end states of FEMBED and FEXTRACT, the output
carrier byte by byte, and FEXTRACT on that carrier: its frame bits are those FEMBED wrote, so its fields are the registers'. -/

namespace Sys2Proof.Machine

/-! ### FEMBED's end states -/

/-- FEMBED's end state when the carrier is large enough (R166). -/
def State.embedded (s : State) : State :=
  { s with
    cout := Memory.ofBytes (embedFrame s.cinBytes s.frame), coutLen := s.cinLen,
    status := { state := .done, err := none, empty := s.size == 0 } }

/-- FEMBED's end state when the carrier is too small (R167). -/
def State.embedFailed (s : State) : State :=
  { s with
    cout := Memory.ofBytes [], coutLen := 0,
    status := { state := .error, err := some .insufficientCapacity, empty := s.size == 0 } }

theorem exec_fembed_of_fits {s : State} (h : 8278 + s.pbits.toNat ≤ s.cinLen.toNat) :
    exec .fembed s = .next s.embedded := by
  rcases fembedBody_cases (accept s) with ⟨hshort, -⟩ | ⟨-, hbody⟩
  · exact absurd hshort (Nat.not_lt.2 h)
  · rw [exec_eq, bodyOf, hbody]
    rfl

theorem exec_fembed_of_short {s : State} (h : s.cinLen.toNat < 8278 + s.pbits.toNat) :
    exec .fembed s = .next s.embedFailed := by
  rcases fembedBody_cases (accept s) with ⟨-, hbody⟩ | ⟨hfits, -⟩
  · rw [exec_eq, bodyOf, hbody]
    rfl
  · exact absurd h (Nat.not_lt.2 hfits)

/-- FEMBED ends DONE only on a carrier that is large enough (R162). -/
theorem fembed_done {s t : State} (h : exec .fembed s = .next t) (hdone : t.status.state = .done) :
    8278 + s.pbits.toNat ≤ s.cinLen.toNat ∧ t = s.embedded := by
  rcases Nat.lt_or_ge s.cinLen.toNat (8278 + s.pbits.toNat) with hshort | hfits
  · rw [exec_fembed_of_short hshort] at h
    obtain rfl := Host.Outcome.next.inj h
    simp [State.embedFailed] at hdone
  · rw [exec_fembed_of_fits hfits] at h
    exact ⟨hfits, (Host.Outcome.next.inj h).symm⟩

/-- What a command that writes COUT, COUT_LEN and STATUS leaves unchanged, as FEMBED's statements name it. -/
def KeepsAllButCout (s t : State) : Prop :=
  KeepsInputs s t ∧ KeepsTable s t ∧ KeepsTree s t ∧ KeepsCode s t ∧ KeepsPay s t ∧ KeepsDst s t ∧ KeepsRdbits s t

theorem embedded_frame (s : State) : KeepsAllButCout s s.embedded :=
  ⟨⟨rfl, rfl, rfl, rfl, rfl, rfl, rfl, rfl, rfl, rfl⟩, ⟨rfl, rfl⟩, ⟨rfl, rfl, rfl⟩, rfl, ⟨rfl, rfl⟩, ⟨rfl, rfl⟩, rfl⟩

theorem embedFailed_frame (s : State) : KeepsAllButCout s s.embedFailed :=
  ⟨⟨rfl, rfl, rfl, rfl, rfl, rfl, rfl, rfl, rfl, rfl⟩, ⟨rfl, rfl⟩, ⟨rfl, rfl, rfl⟩, rfl, ⟨rfl, rfl⟩, ⟨rfl, rfl⟩, rfl⟩

/-! ### The frame the registers describe, bit by bit (R76) -/

theorem wireBit_size (s : State) {j : Nat} (hj : j < 32) : s.wireBit j = s.size.getLsbD (31 - j) := by
  rw [State.wireBit, if_pos hj]

theorem wireBit_table (s : State) (i : Fin 256) {j : Nat} (hj : j < 32) :
    s.wireBit (32 + 32 * i.val + j) = (s.freq[i.val]).getLsbD (31 - j) := by
  rw [State.wireBit, if_neg (by omega), if_pos (by omega), show (32 + 32 * i.val + j - 32) / 32 = i.val by omega,
    show (32 + 32 * i.val + j - 32) % 32 = j by omega, List.getD_eq_getElem _ _ (by simp), Vector.getElem_toList]

theorem wireBit_payload (s : State) (p : Nat) : s.wireBit (8224 + p) = s.pay.getD p false := by
  rw [State.wireBit, if_neg (by omega), if_neg (by omega), Nat.add_sub_cancel_left]

section
variable {s : State} (hpay : s.pay.length = s.pbits.toNat)
include hpay

theorem payBits_eq_pay : s.payBits = s.pay := by
  rw [State.payBits, ← hpay, List.take_length]

theorem length_frame : s.frame.length = 8224 + s.pbits.toNat := by
  rw [State.frame, List.length_append, length_headerFrame, payBits_eq_pay hpay, hpay]

/-- The frame is the table of R76. -/
theorem getD_frame (k : Nat) : s.frame.getD k false = s.wireBit k := by
  rw [State.frame, payBits_eq_pay hpay]
  by_cases hk : k < 8224
  · rw [List.getD_append _ _ _ _ (by simpa using hk), getD_headerFrame _ _ _ hk, State.wireBit]
    simp only [hk, if_true]
  · obtain ⟨p, rfl⟩ := Nat.exists_eq_add_of_le (Nat.not_lt.1 hk)
    rw [List.getD_append_right _ _ _ _ (by simp), length_headerFrame, Nat.add_sub_cancel_left, wireBit_payload]

/-! ### The output carrier (R166) -/

theorem embedded_read {a : Nat} (ha : a < s.cinLen.toNat) : s.embedded.cout.read a =
    if 54 ≤ a ∧ a < 54 + (8224 + s.pbits.toNat) then embedBit (s.cin.read a) (s.wireBit (a - 54))
    else s.cin.read a := by
  have hcin : a < s.cinBytes.length := by rwa [State.cinBytes, length_bytes]
  have hbyte : s.cinBytes.getD a 0 = s.cin.read a := by
    rw [List.getD_eq_getElem _ _ hcin]
    exact getElem_bytes s.cin hcin
  have hout : a < (embedFrame s.cinBytes s.frame).length := by rwa [length_embedFrame]
  rw [State.embedded, read_ofBytes hout, ← List.getD_eq_getElem _ 0 hout, getD_embedFrame _ _ _ hcin,
    length_frame hpay, getD_frame hpay, hbyte]

theorem extractBit_embedded_read {k : Nat} (hk : k < 8224 + s.pbits.toNat) (hlen : 54 + k < s.cinLen.toNat) :
    extractBit (s.embedded.cout.read (54 + k)) = s.wireBit k := by
  rw [embedded_read hpay hlen, if_pos ⟨by omega, by omega⟩, extractBit_embedBit, Nat.add_sub_cancel_left]

end

theorem embedded_holds (s : State) : s.embedded.cout.Holds s.embedded.coutLen := by
  rw [Memory.Holds, State.embedded, map_fst_ofBytes, length_embedFrame, State.cinBytes, length_bytes]

/-! ### The fields FEXTRACT reads (R170, R172) -/

theorem frameBit_eq (s : State) (k : Nat) : s.frameBit k = extractBit (s.cin.read (54 + k)) := rfl

theorem getElem_frameTable (s : State) (i : Fin 256) : s.frameTable[i.val] = s.frameField (32 + 32 * i.val) := by
  simp [State.frameTable]

theorem sizeField_eq_zero_iff (s : State) :
    s.frameField 0 = 0 ↔ ∀ j, j < 32 → extractBit (s.cin.read (54 + j)) = false := by
  simp only [frameField_eq_zero, Nat.zero_add, frameBit_eq]

theorem sizeField_ne_zero_iff (s : State) :
    s.frameField 0 ≠ 0 ↔ ∃ j, j < 32 ∧ extractBit (s.cin.read (54 + j)) = true := by
  rw [Ne, sizeField_eq_zero_iff]
  simp

/-- A field whose 32 bits are those of `v` is `v` (R81). -/
theorem frameField_eq_of_bits {s : State} {k0 : Nat} {v : Word}
    (h : ∀ j, j < 32 → s.frameBit (k0 + j) = v.getLsbD (31 - j)) : s.frameField k0 = v := by
  rw [State.frameField, List.map_congr_left fun j hj => h j (List.mem_range.1 hj), ← bits32, val32_bits32]

/-! ### FEXTRACT's end states -/

/-- FEXTRACT's end state when it has read the table `f` and the size `n` (R169). -/
def State.extracted (s : State) (f : FreqTable) (n : Word) : State :=
  { s with freq := f, size := n, status := { state := .done, err := none, empty := n == 0 } }

/-- FEXTRACT's end state when the carrier ends inside the header (R175). -/
def State.headerCorrupt (s : State) : State :=
  { s with
    freq := zeroFreq, size := 0, status := { state := .error, err := some .corruptHeader, empty := false } }

/-- A size that is not 0 leaves EMPTY as the acceptance has set it. -/
theorem complete_withTable_accept (s : State) (f : FreqTable) {n : Word} (hn : n ≠ 0) :
    complete (((accept s).withTable zeroFreq 0).withTable f n) = s.extracted f n := by
  rw [State.extracted, beq_eq_false_iff_ne.2 hn]
  rfl

/-- The three ways FEXTRACT ends, each with its condition and its end state (R169, R173). -/
theorem exec_fextract_cases (s : State) :
    ((s.cinLen.toNat < 86 ∨ (s.cinLen.toNat < 8278 ∧ s.frameField 0 ≠ 0)) ∧
      exec .fextract s = .next s.headerCorrupt) ∨
    (86 ≤ s.cinLen.toNat ∧ s.frameField 0 = 0 ∧ exec .fextract s = .next (s.extracted zeroFreq 0)) ∨
    (8278 ≤ s.cinLen.toNat ∧ s.frameField 0 ≠ 0 ∧
      exec .fextract s = .next (s.extracted s.frameTable (s.frameField 0))) := by
  have hfield : (accept s).frameField 0 = s.frameField 0 := rfl
  have htable : (accept s).frameTable = s.frameTable := rfl
  rcases fextractBody_cases (accept s) with ⟨hc, hbody⟩ | ⟨hlen, hz, hbody⟩ | ⟨hlen, hz, hbody⟩
  · refine .inl ⟨hc, ?_⟩
    rw [exec_eq, bodyOf, hbody]
    rfl
  · refine .inr (.inl ⟨hlen, hz, ?_⟩)
    rw [exec_eq, bodyOf, hbody]
    rfl
  · rw [hfield] at hz
    refine .inr (.inr ⟨hlen, hz, ?_⟩)
    rw [exec_eq, bodyOf, hbody, hfield, htable, finish_done, complete_withTable_accept s _ hz]

section
variable {s : State}

theorem exec_fextract_of_corrupt (h : s.cinLen.toNat < 86 ∨ (s.cinLen.toNat < 8278 ∧ s.frameField 0 ≠ 0)) :
    exec .fextract s = .next s.headerCorrupt := by
  rcases exec_fextract_cases s with ⟨-, hx⟩ | ⟨hlen, hz, -⟩ | ⟨hlen, -, -⟩
  · exact hx
  · exact absurd hz (h.resolve_left (Nat.not_lt.2 hlen)).2
  · omega

theorem exec_fextract_of_size_zero (hlen : 86 ≤ s.cinLen.toNat) (hz : s.frameField 0 = 0) :
    exec .fextract s = .next (s.extracted zeroFreq 0) := by
  rcases exec_fextract_cases s with ⟨hshort | ⟨-, hnz⟩, -⟩ | ⟨-, -, hx⟩ | ⟨-, hnz, -⟩
  · omega
  · exact absurd hz hnz
  · exact hx
  · exact absurd hz hnz

theorem exec_fextract_of_header (hlen : 8278 ≤ s.cinLen.toNat) (hnz : s.frameField 0 ≠ 0) :
    exec .fextract s = .next (s.extracted s.frameTable (s.frameField 0)) := by
  rcases exec_fextract_cases s with ⟨hshort, -⟩ | ⟨-, hz, -⟩ | ⟨-, -, hx⟩
  · omega
  · exact absurd hz hnz
  · exact hx

end

/-- What a command that writes FREQ, SIZE and STATUS leaves unchanged, as FEXTRACT's statements name it. -/
def KeepsAllButTable (s t : State) : Prop :=
  KeepsInputs s t ∧ KeepsTree s t ∧ KeepsCode s t ∧ KeepsPay s t ∧ KeepsCout s t ∧ KeepsDst s t ∧ KeepsRdbits s t

theorem extracted_frame (s : State) (f : FreqTable) (n : Word) : KeepsAllButTable s (s.extracted f n) :=
  ⟨⟨rfl, rfl, rfl, rfl, rfl, rfl, rfl, rfl, rfl, rfl⟩, ⟨rfl, rfl, rfl⟩, rfl, ⟨rfl, rfl⟩, ⟨rfl, rfl⟩, ⟨rfl, rfl⟩, rfl⟩

theorem headerCorrupt_frame (s : State) : KeepsAllButTable s s.headerCorrupt :=
  ⟨⟨rfl, rfl, rfl, rfl, rfl, rfl, rfl, rfl, rfl, rfl⟩, ⟨rfl, rfl, rfl⟩, rfl, ⟨rfl, rfl⟩, ⟨rfl, rfl⟩, ⟨rfl, rfl⟩, rfl⟩

theorem zeroFreq_getElem (b : Fin 256) : zeroFreq[b.val] = 0 := by
  simp [zeroFreq]

/-! ### FEXTRACT on FEMBED's output carrier (R177) -/

/-- The state in which the host has loaded COUT into CIN (R177). -/
def State.coutLoaded (s : State) : State := loadCin s.coutBytes s

theorem coutLoaded_cinLen (s : State) : s.coutLoaded.cinLen = s.coutLen := by
  rw [State.coutLoaded, loadCin, State.coutBytes, length_bytes, BitVec.ofNat_toNat, BitVec.setWidth_eq]

theorem coutLoaded_read {s : State} {a : Nat} (ha : a < s.coutLen.toNat) :
    s.coutLoaded.cin.read a = s.cout.read a := by
  have hlen : a < s.coutBytes.length := by rwa [State.coutBytes, length_bytes]
  exact (read_ofBytes hlen).trans (getElem_bytes s.cout hlen)

section
variable {s : State} (hpay : s.pay.length = s.pbits.toNat) (hfits : 8278 + s.pbits.toNat ≤ s.cinLen.toNat)
include hpay hfits

/-- The frame bits of FEMBED's output carrier are those of the table of R76. -/
theorem frameBit_coutLoaded {k : Nat} (hk : k < 8224 + s.pbits.toNat) :
    s.embedded.coutLoaded.frameBit k = s.wireBit k := by
  have hlen : 54 + k < s.cinLen.toNat := by omega
  rw [frameBit_eq, coutLoaded_read hlen, extractBit_embedded_read hpay hk hlen]

theorem sizeField_coutLoaded : s.embedded.coutLoaded.frameField 0 = s.size := by
  refine frameField_eq_of_bits fun j hj => ?_
  rw [Nat.zero_add, frameBit_coutLoaded hpay hfits (by omega), wireBit_size s hj]

theorem frameTable_coutLoaded : s.embedded.coutLoaded.frameTable = s.freq := by
  ext1 i hi
  rw [getElem_frameTable _ ⟨i, hi⟩]
  refine frameField_eq_of_bits fun j hj => ?_
  rw [frameBit_coutLoaded hpay hfits (by simp only; omega), wireBit_table s ⟨i, hi⟩ hj]

/-- FEXTRACT reads back the size and, unless the size is 0, the table. -/
theorem exec_fextract_coutLoaded : exec .fextract s.embedded.coutLoaded =
    .next (s.embedded.coutLoaded.extracted (if s.size = 0 then zeroFreq else s.freq) s.size) := by
  have hlen : s.embedded.coutLoaded.cinLen = s.cinLen := coutLoaded_cinLen s.embedded
  have hsize := sizeField_coutLoaded hpay hfits
  by_cases hz : s.size = 0
  · rw [exec_fextract_of_size_zero (by rw [hlen]; omega) (hsize.trans hz), if_pos hz, hz]
  · rw [exec_fextract_of_header (by rw [hlen]; omega) (by rwa [hsize]), hsize, frameTable_coutLoaded hpay hfits,
      if_neg hz]

theorem payload_coutLoaded {p : Nat} (hp : p < s.pbits.toNat) :
    s.pay[p]? = some (extractBit (s.embedded.coutLoaded.cin.read (8278 + p))) := by
  have hbit := frameBit_coutLoaded hpay hfits (k := 8224 + p) (by omega)
  rw [frameBit_eq, ← Nat.add_assoc] at hbit
  rw [hbit, wireBit_payload, List.getD_eq_getElem _ _ (hpay ▸ hp), List.getElem?_eq_getElem]

end

/-! ### The obligations -/

/-- Settles O38: the frame bits of the output carrier are those of the registers, so its fields are theirs. -/
theorem fextractInvertsFembed : Obligations.FextractInvertsFembed := by
  intro s t hpay ht hdone
  obtain ⟨hfits, rfl⟩ := fembed_done ht hdone
  refine ⟨coutLoaded_cinLen _, ⟨_, exec_fextract_coutLoaded hpay hfits, rfl, rfl, fun hz => if_neg hz, fun hz b => ?_⟩,
    fun p hp => payload_coutLoaded hpay hfits hp⟩
  rw [State.extracted, if_pos hz, zeroFreq_getElem]

/-- Settles O33: between 54 and the end of the frame the output byte is the embedded one, elsewhere it is copied. -/
theorem fembedWritesCarrier : Obligations.FembedWritesCarrier := by
  intro s hpay hfits
  refine ⟨_, exec_fembed_of_fits hfits, rfl, rfl, embedded_holds s, fun a ha => ?_, embedded_frame s⟩
  rw [embedded_read hpay ha]
  by_cases h54 : a < 54
  · rw [if_neg (by omega), if_pos h54]
  · simp only [h54, Nat.not_lt.1 h54, true_and, if_false, embedBit]

/-- Settles O34: the capacity test comes before any byte of the output is written. -/
theorem fembedInsufficientCapacity : Obligations.FembedInsufficientCapacity := fun s h =>
  ⟨_, exec_fembed_of_short h, rfl, rfl, rfl, rfl, rfl, embedFailed_frame s⟩

/-- Settles O35: a whole header with a nonzero size is read field by field. -/
theorem fextractReadsHeader : Obligations.FextractReadsHeader := by
  intro s hlen hbit
  have hnz := (sizeField_ne_zero_iff s).2 hbit
  refine ⟨_, exec_fextract_of_header hlen hnz, ?_, fun j hj => ?_, fun i j hj => ?_, extracted_frame s _ _⟩
  · rw [State.Done, State.extracted, beq_eq_false_iff_ne.2 hnz]
  · exact (getLsbD_frameField s 0 hj).trans (by rw [Nat.zero_add, frameBit_eq])
  · rw [State.extracted, getElem_frameTable, getLsbD_frameField _ _ hj, frameBit_eq]
    congr 2
    omega

/-- Settles O36: a size of 0 ends FEXTRACT before the table is looked at. -/
theorem fextractSizeZero : Obligations.FextractSizeZero := fun s hlen hbits =>
  ⟨_, exec_fextract_of_size_zero hlen ((sizeField_eq_zero_iff s).2 hbits), rfl, rfl, zeroFreq_getElem,
    extracted_frame s _ _⟩

/-- Settles O37: of FEXTRACT's three ends, the one in ERROR is that of the two tests of R173. -/
theorem fextractCorruptHeader : Obligations.FextractCorruptHeader := by
  refine ⟨fun s t ht herr => ?_, fun s h => ?_⟩
  · rw [← sizeField_ne_zero_iff]
    rcases exec_fextract_cases s with ⟨hcorrupt, -⟩ | ⟨-, -, hx⟩ | ⟨-, -, hx⟩
    · exact hcorrupt
    · obtain rfl := Host.Outcome.next.inj (hx.symm.trans ht)
      simp [State.extracted] at herr
    · obtain rfl := Host.Outcome.next.inj (hx.symm.trans ht)
      simp [State.extracted] at herr
  · rw [← sizeField_ne_zero_iff] at h
    exact ⟨_, exec_fextract_of_corrupt h, rfl, rfl, rfl, zeroFreq_getElem, headerCorrupt_frame s⟩

end Sys2Proof.Machine

/-! Proofs about ENCODE and DECODE (45_encode_decode.md R180 to R189): ENCODE is FEMBED on the state its first four
units leave, and DECODE of a whole header is BUNPACK on the state FEXTRACT and TBUILD leave, so what is known of the units
gives what is asked of the two paths. -/

namespace Sys2Proof.Machine

/-! ### FEMBED as one state -/

/-- FEMBED's end state: the capacity test decides (R162). -/
def State.framed (s : State) : State :=
  if 8278 + s.pbits.toNat ≤ s.cinLen.toNat then s.embedded else s.embedFailed

theorem framed_of_fits {s : State} (h : 8278 + s.pbits.toNat ≤ s.cinLen.toNat) : s.framed = s.embedded := if_pos h

theorem framed_of_short {s : State} (h : s.cinLen.toNat < 8278 + s.pbits.toNat) : s.framed = s.embedFailed :=
  if_neg (Nat.not_le.2 h)

theorem exec_fembed_eq (s : State) : exec .fembed s = .next s.framed := by
  by_cases h : 8278 + s.pbits.toNat ≤ s.cinLen.toNat
  · rw [exec_fembed_of_fits h, framed_of_fits h]
  · rw [exec_fembed_of_short (Nat.not_le.1 h), framed_of_short (Nat.not_le.1 h)]

theorem framed_frame (s : State) : KeepsAllButCout s s.framed := by
  rw [State.framed]
  split
  · exact embedded_frame s
  · exact embedFailed_frame s

/-- FEMBED writes EMPTY and COUT before it looks at anything, so their old values have no effect (R161). -/
theorem fembedBody_congr {s t : State}
    (h : (s.setEmpty s.size).withCout [] 0 = (t.setEmpty t.size).withCout [] 0) : fembedBody s = fembedBody t := by
  unfold fembedBody
  rw [h]

theorem embedded_done (s : State) : s.embedded.Done (s.size == 0) := rfl

theorem embedFailed_failed (s : State) : s.embedFailed.Failed .insufficientCapacity (s.size == 0) := rfl

/-! ### ENCODE is FEMBED on the packed file -/

/-- BPACK's pseudocode packs when every byte of SRC has a code (R132). -/
theorem bpackBody_of_coded {s : State} (h : ∀ b ∈ s.srcBytes, s.code.entry b ≠ none) : bpackBody s =
    .done ((s.withPay [] 0).withPay (s.code.codeOf s.srcBytes) (s.code.codeOf s.srcBytes).length) := by
  rcases bpackBody_cases s with ⟨-, hbody⟩ | ⟨⟨b, hb, hnone⟩, -⟩
  · exact hbody
  · exact absurd hnone (h b hb)

/-- The tree TBUILD makes of the file's byte counts (R101, R103). -/
def State.fileTree (s : State) : Tree := buildTree (countBytes s.srcBytes)

/-- The file in the codes of its own tree (R132). -/
def State.fileBits (s : State) : List Bit := s.fileTree.codes.codeOf s.srcBytes

/-- What FCOUNT, TBUILD and CGEN write, before BPACK (R180). -/
def State.coded (s : State) : State :=
  ((s.withTable (countBytes s.srcBytes) s.srcLen).withTree s.fileTree).withCode s.fileTree.codes

/-- What FCOUNT, TBUILD, CGEN and BPACK write, before FEMBED (R180). -/
def State.packed (s : State) : State := s.coded.withPay s.fileBits s.fileBits.length

section
variable (s : State)

theorem packed_size : s.packed.size = s.srcLen := rfl

theorem packed_freq : s.packed.freq = countBytes s.srcBytes := rfl

theorem packed_code : s.packed.code = s.fileTree.codes := rfl

theorem fileTree_ok : s.fileTree.Ok := (buildTree_okFor (countBytes s.srcBytes)).1

theorem length_srcBytes : s.srcBytes.length = s.srcLen.toNat := length_bytes _ _

theorem length_srcBytes_lt : s.srcBytes.length < 2 ^ 32 := length_srcBytes s ▸ s.srcLen.isLt

/-- Every byte of the file has been counted, so it has a leaf, and so a code (R183). -/
theorem fileTree_coded {b : Byte} (hb : b ∈ s.srcBytes) : s.fileTree.codes.entry b ≠ none := by
  have hcount : (countBytes s.srcBytes)[b.toNat] ≠ 0 := fun h => by
    have hzero := toNat_countBytes (length_srcBytes_lt s) b
    rw [h] at hzero
    exact (List.count_pos_iff.2 hb).ne hzero
  rw [(fileTree_ok s).codesOf_present_iff, State.fileTree, buildTree_leaf, if_neg hcount]
  exact Option.some_ne_none _

theorem length_fileBits_le : s.fileBits.length ≤ 255 * s.srcLen.toNat :=
  length_codeOf_srcBytes_le (s := s.packed) fun _ _ hx => ((fileTree_ok s).length_code hx).2

/-- PBITS is the number of payload bits: 255 bits for each of fewer than 2^32 bytes do not wrap it. -/
theorem packed_pbits : s.packed.pbits.toNat = s.fileBits.length := by
  have hle := length_fileBits_le s
  have hlt := s.srcLen.isLt
  rw [State.packed, withPay_pbits, BitVec.toNat_ofNat]
  exact Nat.mod_eq_of_lt (by omega)

theorem length_packed_pay : s.packed.pay.length = s.packed.pbits.toNat := (packed_pbits s).symm

/-- ENCODE's first four units never raise, and leave the packed file to FEMBED. -/
theorem encodeBody_eq : encodeBody s = fembedBody s.packed := by
  have hcoded : cgenBody (tbuildBody (fcountBody (s.withCout [] 0))) =
      ((s.withCout [] 0).setEmpty s.srcLen).coded := rfl
  have hcode : ((s.withCout [] 0).setEmpty s.srcLen).coded.code = s.fileTree.codes := rfl
  have hsrc : ((s.withCout [] 0).setEmpty s.srcLen).coded.srcBytes = s.srcBytes := rfl
  rw [encodeBody, hcoded, bpackBody_of_coded (by rw [hcode, hsrc]; exact fun b hb => fileTree_coded s hb), andThen_done,
    hcode, hsrc, ← State.fileBits]
  exact fembedBody_congr rfl

theorem exec_encode_eq : exec .encode s = .next s.packed.framed := by
  rw [← exec_fembed_eq, exec_eq, exec_eq, bodyOf, bodyOf, encodeBody_eq]
  rfl

end

/-! ### The payload size from the table -/

/-- A sum over a byte sequence, gathered by byte value. -/
theorem sum_map_eq_sum_count (bs : List Byte) (w : Byte → Nat) :
    (bs.map w).sum = ∑ b : Fin 256, bs.count (BitVec.ofFin b) * w (BitVec.ofFin b) := by
  induction bs with
  | nil => simp
  | cons c bs ih =>
    have hone : ∑ b : Fin 256, (if (c == BitVec.ofFin b) = true then 1 else 0) * w (BitVec.ofFin b) = w c := by
      rw [Finset.sum_eq_single c.toFin]
      · simp
      · intro b _ hb
        rw [if_neg fun h => hb (by rw [eq_of_beq h]), Nat.zero_mul]
      · simp
    simp only [List.count_cons, Nat.add_mul, Finset.sum_add_distrib, hone, ← ih, List.map_cons, List.sum_cons,
      Nat.add_comm]

/-- The payload size is the sum over the byte values of frequency times code length (R183). -/
theorem length_fileBits_eq_sum (s : State) : s.fileBits.length = ((List.range 256).map fun b =>
    ((countBytes s.srcBytes).toList.getD b 0).toNat *
      ((s.fileTree.codes.toList.getD b none).getD []).length).sum := by
  rw [State.fileBits, CodeTable.length_codeOf, sum_map_eq_sum_count, Fin.sum_univ_def, ← List.map_coe_finRange_eq_range,
    List.map_map]
  refine congrArg List.sum (List.map_congr_left fun b _ => ?_)
  rw [← toNat_countBytes (length_srcBytes_lt s)]
  simp [CodeTable.entry]

/-! ### The empty file (R182) -/

section
variable {s : State} (h : s.srcLen = 0)
include h

theorem srcBytes_of_srcLen_zero : s.srcBytes = [] :=
  List.eq_nil_of_length_eq_zero (by rw [length_srcBytes, h]; rfl)

theorem packed_freq_of_srcLen_zero : s.packed.freq = zeroFreq := by
  rw [packed_freq, srcBytes_of_srcLen_zero h]
  rfl

theorem fileTree_of_srcLen_zero : s.fileTree.root = none ∧ s.fileTree.kind = .empty := by
  rw [State.fileTree, srcBytes_of_srcLen_zero h,
    buildTree_of_no_symbol (symbols_eq_zero (f := countBytes []) zeroFreq_getElem)]
  exact ⟨rfl, rfl⟩

theorem fileTree_codes_of_srcLen_zero (b : Byte) : s.fileTree.codes.entry b = none := by
  rw [Tree.codes, (fileTree_of_srcLen_zero h).1]
  exact entry_absentCodes b

theorem fileBits_of_srcLen_zero : s.fileBits = [] := by
  rw [State.fileBits, srcBytes_of_srcLen_zero h, CodeTable.codeOf_nil]

/-- The frame of the empty file is 8224 zeros. -/
theorem wireBit_packed_of_srcLen_zero {k : Nat} (hk : k < 8224) : s.packed.wireBit k = false := by
  by_cases h32 : k < 32
  · rw [wireBit_size _ h32, packed_size, h]
    simp
  · obtain ⟨i, j, hj, rfl⟩ : ∃ (i : Fin 256) (j : Nat), j < 32 ∧ k = 32 + 32 * i.val + j :=
      ⟨⟨(k - 32) / 32, by omega⟩, (k - 32) % 32, by omega, by simp only; omega⟩
    rw [wireBit_table _ i hj, packed_freq_of_srcLen_zero h, zeroFreq_getElem]
    simp

end

/-! ### DECODE -/

@[simp] theorem clearDst_size (s : State) : s.clearDst.size = s.size := rfl

/-- BUNPACK empties DST and clears RDBITS before it looks at anything (R140). -/
theorem bunpackBody_clearDst (s : State) : bunpackBody s.clearDst = bunpackBody s := by
  have hbit : s.clearDst.payloadBit = s.payloadBit := payloadBit_congr rfl
  have hcap : s.clearDst.payloadCapacity = s.payloadCapacity := payloadCapacity_congr rfl
  rw [bunpackBody_eq, bunpackBody_eq, hbit, hcap]
  rfl

/-- What FEXTRACT and TBUILD write when the whole header is there and the size is not 0 (R184). -/
def State.headerRead (s : State) : State :=
  (s.withTable s.frameTable (s.frameField 0)).withTree (buildTree s.frameTable)

theorem headerRead_tree (s : State) : s.headerRead.tree = buildTree s.frameTable := withTree_tree _ _

/-- TBUILD on a table FEXTRACT has read (R184). -/
theorem tbuildBody_withTable (s : State) (f : FreqTable) (n : Word) :
    tbuildBody (((accept s).withTable zeroFreq 0).withTable f n).clearDst =
      (accept ((s.withTable f n).withTree (buildTree f))).clearDst := rfl

/-- DECODE's pseudocode runs FEXTRACT's on the state it has accepted; DST and RDBITS are cleared on the way. -/
theorem decodeBody_eq (s : State) : decodeBody s = (fextractBody s).clearDst.andThen fun t =>
    if t.size = 0 then .done t else bunpackBody (tbuildBody t) := by
  rw [← fextractBody_clearDst]
  rfl

/-- DECODE of a size of 0 is FEXTRACT and an empty DST (R185). -/
theorem exec_decode_of_size_zero {s : State} (hlen : 86 ≤ s.cinLen.toNat) (hz : s.frameField 0 = 0) :
    exec .decode s = .next (s.extracted zeroFreq 0).clearDst := by
  rcases fextractBody_cases (accept s) with ⟨hshort | ⟨-, hnz⟩, -⟩ | ⟨-, -, hbody⟩ | ⟨-, hnz, -⟩
  · exact absurd hlen (Nat.not_le.2 hshort)
  · exact absurd hz hnz
  · rw [exec_eq, bodyOf, decodeBody_eq, hbody]
    rfl
  · exact absurd hz hnz

/-- DECODE of a whole header is BUNPACK on the table and the tree of that header (R184). -/
theorem exec_decode_of_header {s : State} (hlen : 8278 ≤ s.cinLen.toNat) (hnz : s.frameField 0 ≠ 0) :
    exec .decode s = exec .bunpack s.headerRead := by
  rcases fextractBody_cases (accept s) with ⟨hshort | ⟨hshort, -⟩, -⟩ | ⟨-, hz, -⟩ | ⟨-, -, hbody⟩
  · exact absurd (Nat.le_trans (by decide) hlen) (Nat.not_le.2 hshort)
  · exact absurd hlen (Nat.not_le.2 hshort)
  · exact absurd hz hnz
  · have hfield : (accept s).frameField 0 = s.frameField 0 := rfl
    have htable : (accept s).frameTable = s.frameTable := rfl
    rw [exec_eq, exec_eq, bodyOf, bodyOf, decodeBody_eq, hbody, BodyEnd.clearDst, andThen_done, hfield, htable,
      clearDst_size, withTable_size, if_neg hnz, tbuildBody_withTable, ← State.headerRead, bunpackBody_clearDst]

/-! ### DECODE of ENCODE's output carrier (R188) -/

section
variable {s : State} (hfits : 8278 + s.packed.pbits.toNat ≤ s.cinLen.toNat)
include hfits

theorem headerRead_encoded_size : s.packed.embedded.coutLoaded.headerRead.size = s.srcLen :=
  sizeField_coutLoaded (length_packed_pay s) hfits

/-- The tree DECODE builds is the one ENCODE built: its table came through the frame. -/
theorem headerRead_encoded_tree : s.packed.embedded.coutLoaded.headerRead.tree = s.fileTree := by
  rw [headerRead_tree, frameTable_coutLoaded (length_packed_pay s) hfits, packed_freq, State.fileTree]

theorem payloadCapacity_encoded : s.fileBits.length ≤ s.packed.embedded.coutLoaded.headerRead.payloadCapacity := by
  have hlen : s.packed.embedded.coutLoaded.headerRead.cinLen = s.cinLen := coutLoaded_cinLen s.packed.embedded
  rw [payloadCapacity_congr hlen, State.payloadCapacity, Config.payBase_eq, ← packed_pbits]
  omega

/-- The payload of the output carrier is the packed file. -/
theorem spells_encoded : Spells s.packed.embedded.coutLoaded.headerRead.payloadBit 0 s.fileBits :=
  spells_payload_iff.2 fun _ hp => payload_coutLoaded (length_packed_pay s) hfits (packed_pbits s ▸ hp)

/-- On the loaded carrier the walker reads the packed file in the tree of its codes (R153). -/
theorem exec_bunpack_encoded : exec .bunpack s.packed.embedded.coutLoaded.headerRead =
    .next (s.packed.embedded.coutLoaded.headerRead.unpacked s.srcBytes s.fileBits.length) := by
  have htree := headerRead_encoded_tree hfits
  have hsize : s.packed.embedded.coutLoaded.headerRead.size.toNat = s.srcBytes.length := by
    rw [headerRead_encoded_size hfits, length_srcBytes]
  have hrun := exec_bunpack_of_codeOf (htree ▸ fileTree_ok s) (fun b hb => htree ▸ fileTree_coded s hb) hsize
  rw [htree, ← State.fileBits] at hrun
  exact hrun (spells_encoded hfits) (payloadCapacity_encoded hfits)

end

/-! ### The obligations -/

/-- Settles O54: the frame carries the table and the codes, the table gives the same tree, and the walker inverts its
codes. -/
theorem encodeDecodeRoundTrip : Obligations.EncodeDecodeRoundTrip := by
  intro s t ht hfits
  obtain rfl := Host.Outcome.next.inj ((exec_encode_eq s).symm.trans ht)
  obtain ⟨-, -, -, -, ⟨-, hpbits⟩, -⟩ := framed_frame s.packed
  rw [hpbits] at hfits ⊢
  rw [framed_of_fits hfits, packed_pbits]
  have hlen : s.packed.embedded.coutLoaded.cinLen = s.cinLen := coutLoaded_cinLen s.packed.embedded
  have hsize := headerRead_encoded_size hfits
  by_cases hz : s.srcLen = 0
  · refine ⟨_, exec_decode_of_size_zero (s := s.packed.embedded.coutLoaded) (by rw [hlen]; omega) (hsize.trans hz), ?_⟩
    rw [srcBytes_of_srcLen_zero hz, fileBits_of_srcLen_zero hz, hz]
    exact ⟨rfl, rfl, rfl, rfl⟩
  · have hnz : s.packed.embedded.coutLoaded.frameField 0 ≠ 0 := fun h => hz (hsize.symm.trans h)
    refine ⟨_, (exec_decode_of_header (by rw [hlen]; omega) hnz).trans (exec_bunpack_encoded hfits), ?_, hsize,
      unpacked_dstBytes (by rw [hsize, length_srcBytes]) _, unpacked_rdbits _ (payloadCapacity_encoded hfits)⟩
    rw [State.Done, State.unpacked, hsize]

/-- Settles O46: FEMBED's capacity test is the only one ENCODE can fail, and a code has 255 bits at most. -/
theorem encodeEndsDoneExactlyWithCapacity : Obligations.EncodeEndsDoneExactlyWithCapacity := by
  intro s
  obtain ⟨-, -, -, -, ⟨-, hpbits⟩, -⟩ := framed_frame s.packed
  have hdone : 8278 + s.packed.pbits.toNat ≤ s.cinLen.toNat → s.packed.framed.Done (s.srcLen == 0) := fun h => by
    rw [framed_of_fits h]
    exact embedded_done s.packed
  refine ⟨_, exec_encode_eq s, fun h => hdone (hpbits ▸ h), fun h => ?_, fun h => hdone ?_⟩
  · rw [framed_of_short (hpbits ▸ h)]
    exact embedFailed_failed s.packed
  · have hle := length_fileBits_le s
    rw [packed_pbits]
    omega

/-- Settles O47: FEMBED keeps what the first four units have written, and these belong to the file. -/
theorem encodeFinalState : Obligations.EncodeFinalState := by
  intro s
  obtain ⟨hinputs, ⟨hfreq, hsize⟩, ⟨hnode, hroot, hkind⟩,
    (hcode : s.packed.framed.code = s.packed.code), ⟨hpay, hpbits⟩, hdst, hrdbits⟩ := framed_frame s.packed
  have hbytes := length_srcBytes_lt s
  refine ⟨_, exec_encode_eq s, ?_, hsize, ?_, fun u hu => ?_, fun u hu => ?_, ?_, ?_, ?_, ?_, fun h => ?_, fun h => ?_,
    hinputs, hdst, hrdbits⟩
  · rw [hfreq]
    exact toNat_countBytes hbytes
  · rw [hfreq]
    exact (total_countBytes hbytes).trans (length_srcBytes s)
  · obtain rfl := Host.Outcome.next.inj ((exec_tbuild_eq _).symm.trans hu)
    simp only [KeepsTree, hnode, hroot, hkind, hfreq]
    exact ⟨rfl, rfl, rfl⟩
  · obtain rfl := Host.Outcome.next.inj ((exec_cgen_eq _).symm.trans hu)
    simp only [KeepsCode, hcode, hnode, hroot]
    rfl
  · rw [hcode, packed_code]
    exact fun b hb => fileTree_coded s hb
  · rw [hpay, hcode]
    rfl
  · rw [hpay, hpbits, length_packed_pay]
  · rw [hpbits, hfreq, hcode, packed_pbits]
    exact length_fileBits_eq_sum s
  · rw [hpbits] at h ⊢
    rw [framed_of_fits h]
    refine ⟨rfl, embedded_holds s.packed, fun a ha => ?_⟩
    rw [embedded_read (length_packed_pay s) ha, ← Nat.add_assoc]
    rfl
  · rw [framed_of_short (hpbits ▸ h)]
    exact ⟨rfl, rfl, embedFailed_failed s.packed⟩

/-- Settles O48: without a byte nothing is counted, built, coded or packed, and the frame is 8224 zeros. -/
theorem encodeEmptyFile : Obligations.EncodeEmptyFile := by
  intro s hz
  obtain ⟨-, ⟨hfreq, hsize⟩, ⟨-, hroot, hkind⟩,
    (hcode : s.packed.framed.code = s.packed.code), ⟨-, hpbits⟩, -⟩ := framed_frame s.packed
  obtain ⟨hnone, hempty⟩ := fileTree_of_srcLen_zero hz
  have hzero : s.packed.pbits.toNat = 0 := by rw [packed_pbits, fileBits_of_srcLen_zero hz, List.length_nil]
  refine ⟨_, exec_encode_eq s, ?_, hsize.trans hz, hroot.trans hnone, hkind.trans hempty, ?_, ?_, fun h => ?_,
    fun h => ?_⟩
  · rw [hfreq, packed_freq_of_srcLen_zero hz]
    exact zeroFreq_getElem
  · rw [hcode, packed_code]
    exact fileTree_codes_of_srcLen_zero hz
  · rw [hpbits]
    exact BitVec.eq_of_toNat_eq hzero
  · rw [framed_of_fits (by rw [hzero]; exact h)]
    refine ⟨by simpa [packed_size, hz] using embedded_done s.packed, fun a h54 ha => ?_⟩
    rw [embedded_read (length_packed_pay s) (Nat.lt_of_lt_of_le ha h), if_pos (by omega),
      wireBit_packed_of_srcLen_zero hz (by omega), embedBit_false]
    rfl
  · rw [framed_of_short (by rw [hzero]; exact h)]
    simpa [packed_size, hz] using embedFailed_failed s.packed

end Sys2Proof.Machine

/-! Proofs about how a command ends (10_state.md R36, R38; 60_exceptions.md R201): the ends of BUNPACK and of DECODE, and
for every command its status, its errors and its EMPTY flag. -/

namespace Sys2Proof.Machine

/-! ### How DECODE and BUNPACK end -/

/-- DECODE of a carrier that ends inside the header is FEXTRACT and an empty DST (R175, R184). -/
theorem exec_decode_of_corrupt {s : State}
    (h : s.cinLen.toNat < 86 ∨ (s.cinLen.toNat < 8278 ∧ s.frameField 0 ≠ 0)) :
    exec .decode s = .next s.headerCorrupt.clearDst := by
  rcases fextractBody_cases (accept s) with ⟨-, hbody⟩ | ⟨hlen, hz, -⟩ | ⟨hlen, -, -⟩
  · rw [exec_eq, bodyOf, decodeBody_eq, hbody]
    rfl
  · exact absurd hz (h.resolve_left (Nat.not_lt.2 hlen)).2
  · rw [accept_cinLen] at hlen
    omega

/-- The three ways DECODE goes on after the header, each with its condition (R184). -/
theorem exec_decode_cases (s : State) :
    ((s.cinLen.toNat < 86 ∨ (s.cinLen.toNat < 8278 ∧ s.frameField 0 ≠ 0)) ∧
      exec .decode s = .next s.headerCorrupt.clearDst) ∨
    (86 ≤ s.cinLen.toNat ∧ s.frameField 0 = 0 ∧ exec .decode s = .next (s.extracted zeroFreq 0).clearDst) ∨
    (8278 ≤ s.cinLen.toNat ∧ s.frameField 0 ≠ 0 ∧ exec .decode s = exec .bunpack s.headerRead) := by
  rcases exec_fextract_cases s with ⟨hc, -⟩ | ⟨hlen, hz, -⟩ | ⟨hlen, hnz, -⟩
  · exact .inl ⟨hc, exec_decode_of_corrupt hc⟩
  · exact .inr (.inl ⟨hlen, hz, exec_decode_of_size_zero hlen hz⟩)
  · exact .inr (.inr ⟨hlen, hnz, exec_decode_of_header hlen hnz⟩)

/-- BUNPACK either has emitted SIZE bytes from bits the carrier holds, or ends in one of the walker's two errors
(R140). -/
theorem exec_bunpack_cases (s : State) :
    (∃ bs p, exec .bunpack s = .next (s.unpacked bs p) ∧ bs.length = s.size.toNat ∧ p ≤ s.payloadCapacity) ∨
    ∃ e p, exec .bunpack s = .next (s.unpackFailed e p) ∧ (e = .incompleteStream ∨ e = .invalidCode) := by
  by_cases hz : s.size = 0
  · exact .inl ⟨[], 0, exec_bunpack_of_size_zero hz, by simp [hz], Nat.zero_le _⟩
  · cases hr : s.root with
    | none => exact .inr ⟨.invalidCode, 0, exec_bunpack_of_no_root hz hr, .inr rfl⟩
    | some r =>
      have hend := exec_bunpack_of_root hz hr
      cases hw : s.walk r <;> rw [hw] at hend
      case finished bs p => exact .inl ⟨bs, p, hend, walk_finished_bounds hw⟩
      case incomplete bs p => exact .inr ⟨.incompleteStream, p, hend, .inl rfl⟩
      case invalid bs p => exact .inr ⟨.invalidCode, p, hend, .inr rfl⟩

/-! ### How a command ends -/

/-- The errors a command can end in (R201, R181). -/
def errorsOf : Instr → List ErrorKind
  | .fcount | .tbuild | .cgen => []
  | .bpack => [.missingCode]
  | .fembed | .encode => [.insufficientCapacity]
  | .fextract => [.corruptHeader]
  | .bunpack => [.incompleteStream, .invalidCode]
  | .decode => [.corruptHeader, .incompleteStream, .invalidCode]

/-- The carrier holds a whole size field, and it is 0 (R171). -/
def State.namesNoFile (s : State) : Bool := decide (86 ≤ s.cinLen.toNat) && s.frameField 0 == 0

theorem namesNoFile_iff (s : State) : s.namesNoFile = true ↔
    86 ≤ s.cinLen.toNat ∧ ∀ j, j < 32 → extractBit (s.cin.read (54 + j)) = false := by
  rw [← sizeField_eq_zero_iff, State.namesNoFile, Bool.and_eq_true, decide_eq_true_iff, beq_iff_eq]

theorem namesNoFile_of_size_ne_zero {s : State} (h : s.frameField 0 ≠ 0) : s.namesNoFile = false := by
  rw [State.namesNoFile, beq_eq_false_iff_ne.2 h, Bool.and_false]

theorem namesNoFile_of_corrupt {s : State}
    (h : s.cinLen.toNat < 86 ∨ (s.cinLen.toNat < 8278 ∧ s.frameField 0 ≠ 0)) : s.namesNoFile = false := by
  rcases h with hlen | ⟨-, hnz⟩
  · rw [State.namesNoFile, decide_eq_false (Nat.not_le.2 hlen), Bool.false_and]
  · exact namesNoFile_of_size_ne_zero hnz

theorem namesNoFile_of_size_zero {s : State} (hlen : 86 ≤ s.cinLen.toNat) (hz : s.frameField 0 = 0) :
    s.namesNoFile = true := by
  rw [State.namesNoFile, hz, decide_eq_true hlen]
  rfl

/-- The value a command gives EMPTY (R38). -/
def State.emptyFlag (s : State) : Instr → Bool
  | .tbuild | .cgen | .bpack => false
  | .fcount | .encode => s.srcLen == 0
  | .fembed | .bunpack => s.size == 0
  | .fextract | .decode => s.namesNoFile

/-- `t` is an end of the command `i` run from `s`: DONE, or in ERROR with one of the command's errors, with the
command's EMPTY and with the inputs unchanged (R36, R61). -/
structure EndOf (i : Instr) (s t : State) : Prop where
  status : t.Done (s.emptyFlag i) ∨ ∃ e ∈ errorsOf i, t.Failed e (s.emptyFlag i)
  inputs : KeepsInputs s t

theorem KeepsInputs.trans {s t u : State} (h : KeepsInputs s t) (h' : KeepsInputs t u) : KeepsInputs s u := by
  unfold KeepsInputs at *
  simp only [h', h, and_self]

theorem headerRead_keepsInputs (s : State) : KeepsInputs s s.headerRead := by
  simp [KeepsInputs, State.headerRead]

theorem fembed_endOf (s : State) : EndOf .fembed s s.framed := by
  obtain ⟨hinputs, -⟩ := framed_frame s
  refine ⟨?_, hinputs⟩
  rcases Nat.lt_or_ge s.cinLen.toNat (8278 + s.pbits.toNat) with hshort | hfits
  · rw [framed_of_short hshort]
    exact .inr ⟨_, by simp [errorsOf], embedFailed_failed s⟩
  · rw [framed_of_fits hfits]
    exact .inl (embedded_done s)

theorem fextract_endOf (s : State) : ∃ t, exec .fextract s = .next t ∧ EndOf .fextract s t := by
  rcases exec_fextract_cases s with ⟨hc, hx⟩ | ⟨hlen, hz, hx⟩ | ⟨-, hnz, hx⟩ <;> refine ⟨_, hx, ?_, ?_⟩
  · rw [State.emptyFlag, namesNoFile_of_corrupt hc]
    exact .inr ⟨_, by simp [errorsOf], rfl⟩
  · exact (headerCorrupt_frame s).1
  · rw [State.emptyFlag, namesNoFile_of_size_zero hlen hz]
    exact .inl rfl
  · exact (extracted_frame s _ _).1
  · rw [State.emptyFlag, namesNoFile_of_size_ne_zero hnz, ← beq_eq_false_iff_ne.2 hnz]
    exact .inl rfl
  · exact (extracted_frame s _ _).1

theorem bunpack_endOf (s : State) : ∃ t, exec .bunpack s = .next t ∧ EndOf .bunpack s t := by
  rcases exec_bunpack_cases s with ⟨bs, p, hx, -⟩ | ⟨e, p, hx, he⟩
  · exact ⟨_, hx, .inl rfl, (unpacked_frame s bs p).1⟩
  · exact ⟨_, hx, .inr ⟨e, by simpa [errorsOf] using he, rfl⟩, (unpackFailed_frame s e p).1⟩

theorem decode_endOf (s : State) : ∃ t, exec .decode s = .next t ∧ EndOf .decode s t := by
  rcases exec_decode_cases s with ⟨hc, hx⟩ | ⟨hlen, hz, hx⟩ | ⟨-, hnz, hx⟩
  · refine ⟨_, hx, ?_, (headerCorrupt_frame s).1⟩
    rw [State.emptyFlag, namesNoFile_of_corrupt hc]
    exact .inr ⟨_, by simp [errorsOf], rfl⟩
  · refine ⟨_, hx, ?_, (extracted_frame s zeroFreq 0).1⟩
    rw [State.emptyFlag, namesNoFile_of_size_zero hlen hz]
    exact .inl rfl
  · obtain ⟨t, ht, hend, hinputs⟩ := bunpack_endOf s.headerRead
    have hflag : s.headerRead.emptyFlag .bunpack = s.emptyFlag .decode :=
      (beq_eq_false_iff_ne.2 hnz).trans (namesNoFile_of_size_ne_zero hnz).symm
    rw [hflag] at hend
    exact ⟨t, hx.trans ht, hend.imp_right fun ⟨e, he, hf⟩ => ⟨e, List.mem_cons_of_mem _ he, hf⟩,
      (headerRead_keepsInputs s).trans hinputs⟩

/-- Every command on every state comes to an end (R36, R240). -/
theorem exec_endOf (i : Instr) (s : State) : ∃ t, exec i s = .next t ∧ EndOf i s t := by
  cases i with
  | fcount => exact ⟨_, exec_fcount_eq s, .inl rfl, rfl, rfl, rfl, rfl, rfl, rfl, rfl, rfl, rfl, rfl⟩
  | tbuild => exact ⟨_, exec_tbuild_eq s, .inl rfl, rfl, rfl, rfl, rfl, rfl, rfl, rfl, rfl, rfl, rfl⟩
  | cgen => exact ⟨_, exec_cgen_eq s, .inl rfl, rfl, rfl, rfl, rfl, rfl, rfl, rfl, rfl, rfl, rfl⟩
  | bpack =>
    by_cases h : ∃ b ∈ s.srcBytes, s.code.entry b = none
    · exact ⟨_, exec_bpack_of_missing h, .inr ⟨_, by simp [errorsOf], rfl⟩,
        rfl, rfl, rfl, rfl, rfl, rfl, rfl, rfl, rfl, rfl⟩
    · exact ⟨_, exec_bpack_of_coded fun b hb hn => h ⟨b, hb, hn⟩, .inl rfl,
        rfl, rfl, rfl, rfl, rfl, rfl, rfl, rfl, rfl, rfl⟩
  | fembed => exact ⟨_, exec_fembed_eq s, fembed_endOf s⟩
  | fextract => exact fextract_endOf s
  | bunpack => exact bunpack_endOf s
  | encode => exact ⟨_, exec_encode_eq s, (fembed_endOf s.packed).status, (fembed_endOf s.packed).inputs⟩
  | decode => exact decode_endOf s

theorem EndOf.err {i : Instr} {s t : State} (h : EndOf i s t) :
    t.status.err = none ∨ ∃ e ∈ errorsOf i, t.status.err = some e := by
  rcases h.status with hd | ⟨e, he, hf⟩
  · exact .inl (congrArg Status.err hd)
  · exact .inr ⟨e, he, congrArg Status.err hf⟩

theorem EndOf.empty {i : Instr} {s t : State} (h : EndOf i s t) : t.status.empty = s.emptyFlag i := by
  rcases h.status with hd | ⟨e, -, hf⟩
  · exact congrArg Status.empty hd
  · exact congrArg Status.empty hf

/-- Settles O6: every command comes to one of its ends. -/
theorem everyCommandEndsDoneOrError : Obligations.EveryCommandEndsDoneOrError := by
  intro i s
  obtain ⟨t, ht, hstatus, hinputs⟩ := exec_endOf i s
  refine ⟨t, ht, ?_, hinputs⟩
  rcases hstatus with hd | ⟨e, -, hf⟩
  · exact .inl ⟨_, hd⟩
  · exact .inr ⟨e, _, hf⟩

/-- Settles O8: the error is one of the command's own. -/
theorem errorKindsByCommand : Obligations.ErrorKindsByCommand := by
  intro i s
  obtain ⟨t, ht, hend⟩ := exec_endOf i s
  refine ⟨t, ht, ?_⟩
  have herr := hend.err
  cases i <;> simpa [errorsOf] using herr

/-- Settles O9: EMPTY has the value each command gives it. -/
theorem emptyFlagRule : Obligations.EmptyFlagRule := by
  intro i s
  obtain ⟨t, ht, hend⟩ := exec_endOf i s
  refine ⟨t, ht, ?_⟩
  rw [hend.empty]
  cases i with
  | fcount | encode | fembed | bunpack => exact beq_iff_eq
  | tbuild | cgen | bpack => exact Bool.false_eq_true.to_iff
  | fextract | decode => exact namesNoFile_iff s

end Sys2Proof.Machine

/-! Proofs about the invariant of the machine (10_state.md R27 to R36): it is a condition on the tables and outputs,
one on each input memory and one on STATUS; commands keep the first and write neither input memory (R61), and the
host's actions write the inputs and no output. -/

namespace Sys2Proof.Machine

/-! ### The parts of the invariant -/

/-- The part of the invariant on what commands write: the tree, the codes, the payload and the output memories. -/
structure State.Sound (s : State) : Prop where
  tree : s.tree.Ok
  codes : s.code.Ok
  pay : s.pay.length = s.pbits.toNat
  cout : s.cout.Holds s.coutLen
  dst : s.dst.Holds s.dstLen

/-- The part of the invariant on an input memory with its length and its staged bytes (R53, log entry 2). -/
structure Memory.InputOk (m : Memory) (staged : List Host.Cell) (len : Word) : Prop where
  wf : m.wf
  below : m.Below len
  stagedRising : risingCells staged
  stagedGe : ∀ c ∈ staged, len.toNat ≤ c.1

/-- The part of the invariant on STATUS (R36). -/
structure Status.Settled (st : Status) : Prop where
  notBusy : st.state ≠ .busy
  err : st.err = none ↔ st.state ≠ .error

/-- A memory that holds exactly the addresses below a length is in canonical form. -/
theorem Memory.Holds.wf {m : Memory} {n : Word} (h : m.Holds n) : m.wf := by
  have hrising : (m.cells.map Prod.fst).Pairwise (· < ·) := h.symm ▸ List.pairwise_lt_range
  exact List.pairwise_map.mp hrising

theorem State.inv_iff (s : State) : s.Inv ↔
    s.Sound ∧ s.src.InputOk s.srcStaged s.srcLen ∧ s.cin.InputOk s.cinStaged s.cinLen ∧ s.status.Settled := by
  constructor
  · intro h
    obtain ⟨hsrc, hcin, -, -⟩ := h.memories
    obtain ⟨hsrcBelow, hcinBelow⟩ := h.inputs
    obtain ⟨hsrcRising, hsrcGe, hcinRising, hcinGe⟩ := h.staged
    obtain ⟨hcout, hdst⟩ := h.outputs
    exact ⟨⟨h.tree, h.codes, h.pay, hcout, hdst⟩, ⟨hsrc, hsrcBelow, hsrcRising, hsrcGe⟩,
      ⟨hcin, hcinBelow, hcinRising, hcinGe⟩, h.notBusy, h.errField⟩
  · rintro ⟨hs, hsrc, hcin, hst⟩
    exact ⟨hs.tree, hs.codes, hs.pay, hst.notBusy, hst.err, ⟨hsrc.wf, hcin.wf, hs.cout.wf, hs.dst.wf⟩,
      ⟨hsrc.below, hcin.below⟩, ⟨hsrc.stagedRising, hsrc.stagedGe, hcin.stagedRising, hcin.stagedGe⟩, hs.cout, hs.dst⟩

theorem holds_ofBytes {bs : List Byte} {n : Word} (h : bs.length = n.toNat) : (Memory.ofBytes bs).Holds n := by
  rw [Memory.Holds, map_fst_ofBytes, h]

theorem settled_of_done {t : State} {e : Bool} (h : t.Done e) : t.status.Settled := by
  rw [h]
  exact ⟨by simp, by simp⟩

theorem settled_of_failed {t : State} {k : ErrorKind} {e : Bool} (h : t.Failed k e) : t.status.Settled := by
  rw [h]
  exact ⟨by simp, by simp⟩

/-! ### The input memories: LOAD, a length write, a byte write and reset -/

section
variable {m : Memory} {staged : List Host.Cell} {len : Word}

theorem inputOk_ofBytes (h : m.InputOk staged len) {bs : List Byte} {n : Word} (hn : bs.length ≤ n.toNat) :
    (Memory.ofBytes bs).InputOk (m.stage staged len n) n where
  wf := wf_ofBytes bs
  below := below_ofBytes hn
  stagedRising := rising_stage h.wf h.stagedRising len n
  stagedGe _ := stage_ge

theorem inputOk_declare (h : m.InputOk staged len) (n : Word) (draw : Nat) :
    (m.declare staged len n draw).InputOk (m.stage staged len n) n where
  wf := wf_declare h.wf h.stagedRising len n draw
  below := below_declare m staged len n draw
  stagedRising := rising_stage h.wf h.stagedRising len n
  stagedGe _ := stage_ge

theorem inputOk_poke (h : m.InputOk staged len) (a : Word) (v : Byte) :
    (m.writeBelow len a v).InputOk (Memory.stageByte staged len a v) len where
  wf := wf_writeBelow h.wf len a v
  below := below_writeBelow h.below a v
  stagedRising := rising_stageByte h.stagedRising len a v
  stagedGe := stageByte_ge h.stagedGe a v

theorem inputOk_reset (n : Word) : emptyMemory.InputOk [] n where
  wf := wf_emptyMemory
  below := below_emptyMemory n
  stagedRising := .nil
  stagedGe := by simp

end

/-! ### Reset -/

theorem reset_sound : State.reset.Sound where
  tree := reset_tree_ok
  codes := CodeTable.ok_of_absent entry_absentCodes
  pay := rfl
  cout := rfl
  dst := rfl

/-- Settles O58: reset leaves the empty tree, no code, and memories with nothing in them. -/
theorem resetMeetsInvariant : Obligations.ResetMeetsInvariant :=
  (State.inv_iff _).2 ⟨reset_sound, inputOk_reset 0, inputOk_reset 0, by simp [State.reset], by simp [State.reset]⟩

/-! ### Commands -/

/-- The codes of a tree that meets R32 have 1 to 255 bits, and none begins another (R33, R34). -/
theorem Tree.Ok.codes_ok {t : Tree} (ht : t.Ok) : t.codes.Ok := by
  obtain ⟨g, hg, -, hprefix, -⟩ := cgenPrefixCode (State.reset.withTree t) ht
  rw [exec_cgen_code hg, withTree_tree] at hprefix
  exact ⟨fun _ _ hx => ht.length_code hx, hprefix⟩

theorem buildTree_ok (f : FreqTable) : (buildTree f).Ok := (buildTree_okFor f).1

section
variable {s : State} (hs : s.Sound)
include hs

theorem packed_sound : s.packed.Sound where
  tree := fileTree_ok s
  codes := (fileTree_ok s).codes_ok
  pay := length_packed_pay s
  cout := hs.cout
  dst := hs.dst

theorem framed_sound : s.framed.Sound := by
  rcases Nat.lt_or_ge s.cinLen.toNat (8278 + s.pbits.toNat) with hshort | hfits
  · rw [framed_of_short hshort]
    exact { hs with cout := holds_ofBytes rfl }
  · rw [framed_of_fits hfits]
    exact { hs with cout := embedded_holds s }

theorem bpack_sound {t : State} (h : exec .bpack s = .next t) : t.Sound := by
  by_cases hcoded : ∀ b ∈ s.srcBytes, s.code.entry b ≠ none
  · obtain ⟨u, hu, -, -, -, hpay, -⟩ := bpackPacksCodes s (fun b x hx => (hs.codes.lengths b x hx).2) hcoded
    rw [exec_bpack_of_coded hcoded] at h hu
    obtain rfl := Host.Outcome.next.inj (hu.symm.trans h)
    obtain rfl := Host.Outcome.next.inj h
    exact { hs with pay := hpay.symm }
  · rw [exec_bpack_of_missing (by simpa using hcoded)] at h
    obtain rfl := Host.Outcome.next.inj h
    exact { hs with pay := rfl }

theorem bunpack_sound {t : State} (h : exec .bunpack s = .next t) : t.Sound := by
  rcases exec_bunpack_cases s with ⟨bs, p, hx, hlen, -⟩ | ⟨e, p, hx, -⟩ <;>
    obtain rfl := Host.Outcome.next.inj (hx.symm.trans h)
  · exact { hs with dst := holds_ofBytes hlen }
  · exact { hs with dst := holds_ofBytes rfl }

theorem withTable_sound (f : FreqTable) (n : Word) : (s.withTable f n).Sound := { hs with }

theorem withTree_sound {t : Tree} (ht : t.Ok) : (s.withTree t).Sound := { hs with tree := ht }

theorem headerRead_sound : s.headerRead.Sound := withTree_sound (withTable_sound hs _ _) (buildTree_ok _)

theorem extracted_sound (f : FreqTable) (n : Word) : (s.extracted f n).Sound := { hs with }

theorem headerCorrupt_sound : s.headerCorrupt.Sound := { hs with }

theorem clearDst_sound : s.clearDst.Sound where
  tree := hs.tree
  codes := hs.codes
  pay := hs.pay
  cout := hs.cout
  dst := holds_ofBytes rfl

/-- A command leaves a tree TBUILD has made, codes CGEN has made of a tree, codes in PAY and whole outputs, or what it
found. -/
theorem exec_sound {i : Instr} {t : State} (h : exec i s = .next t) : t.Sound := by
  cases i with
  | fcount =>
    obtain rfl := Host.Outcome.next.inj ((exec_fcount_eq s).symm.trans h)
    exact { hs with }
  | tbuild =>
    obtain rfl := Host.Outcome.next.inj ((exec_tbuild_eq s).symm.trans h)
    exact { hs with tree := buildTree_ok s.freq }
  | cgen =>
    obtain rfl := Host.Outcome.next.inj ((exec_cgen_eq s).symm.trans h)
    exact { hs with codes := hs.tree.codes_ok }
  | bpack => exact bpack_sound hs h
  | fembed =>
    obtain rfl := Host.Outcome.next.inj ((exec_fembed_eq s).symm.trans h)
    exact framed_sound hs
  | fextract =>
    rcases exec_fextract_cases s with ⟨-, hx⟩ | ⟨-, -, hx⟩ | ⟨-, -, hx⟩ <;>
      obtain rfl := Host.Outcome.next.inj (hx.symm.trans h)
    · exact headerCorrupt_sound hs
    · exact extracted_sound hs _ _
    · exact extracted_sound hs _ _
  | bunpack => exact bunpack_sound hs h
  | encode =>
    obtain rfl := Host.Outcome.next.inj ((exec_encode_eq s).symm.trans h)
    exact framed_sound (packed_sound hs)
  | decode =>
    rcases exec_decode_cases s with ⟨-, hx⟩ | ⟨-, -, hx⟩ | ⟨-, -, hx⟩
    · obtain rfl := Host.Outcome.next.inj (hx.symm.trans h)
      exact clearDst_sound (headerCorrupt_sound hs)
    · obtain rfl := Host.Outcome.next.inj (hx.symm.trans h)
      exact clearDst_sound (extracted_sound hs _ _)
    · exact bunpack_sound (headerRead_sound hs) (hx.symm.trans h)

end

/-- A command keeps the invariant: it does not write the inputs, and it ends DONE or in ERROR. -/
theorem exec_inv {i : Instr} {s t : State} (hs : s.Inv) (h : exec i s = .next t) : t.Inv := by
  obtain ⟨hsound, hsrc, hcin, -⟩ := s.inv_iff.1 hs
  obtain ⟨u, hu, hstatus, hs1, hs2, hc1, hc2, -, -, -, hs3, hc3, -⟩ := exec_endOf i s
  obtain rfl := Host.Outcome.next.inj (hu.symm.trans h)
  refine u.inv_iff.2 ⟨exec_sound hsound h, ?_, ?_, ?_⟩
  · rwa [hs1, hs2, hs3]
  · rwa [hc1, hc2, hc3]
  · rcases hstatus with hd | ⟨e, -, hf⟩
    · exact settled_of_done hd
    · exact settled_of_failed hf

/-! ### Host actions -/

theorem readOutcome_next {loc : ReadLoc} {s t : State} (h : readOutcome loc s = .next t) :
    ∃ v, hostRead loc s = some v ∧ t = { s with readData := some v } := by
  unfold readOutcome at h
  cases hv : hostRead loc s with
  | none => simp [hv] at h
  | some v =>
    rw [hv] at h
    exact ⟨v, rfl, (Host.Outcome.next.inj h).symm⟩

/-- A loaded file is no longer than its length register says. -/
theorem length_le_toNat_ofNat {bs : List Byte} (h : bs.length ≤ Config.maxBytes) :
    bs.length ≤ (BitVec.ofNat 32 bs.length).toNat := by
  rw [Config.maxBytes] at h
  rw [BitVec.toNat_ofNat, Nat.mod_eq_of_lt (by omega)]

/-- A host action keeps the invariant: it writes an input with its length and staged bytes, or no part of it. -/
theorem actOn_inv {a : HostAction} {s t : State} (hs : s.Inv) (hwf : a.wf = true) (h : actOn a s = .next t) :
    t.Inv := by
  obtain ⟨hsound, hsrc, hcin, hst⟩ := s.inv_iff.1 hs
  cases a with
  | read loc =>
    obtain ⟨v, -, rfl⟩ := readOutcome_next h
    exact (State.inv_iff _).2 ⟨{ hsound with }, hsrc, hcin, hst⟩
  | _ => ?_
  all_goals obtain rfl := Host.Outcome.next.inj h
  case writeCmd c =>
    unfold writeCmd
    split
    · exact hs
    · exact (State.inv_iff _).2 ⟨{ hsound with }, hsrc, hcin, hst⟩
  case loadSrc bs =>
    have hlen := length_le_toNat_ofNat (of_decide_eq_true hwf)
    exact (State.inv_iff _).2 ⟨{ hsound with }, inputOk_ofBytes hsrc hlen, hcin, hst⟩
  case loadCin bs =>
    have hlen := length_le_toNat_ofNat (of_decide_eq_true hwf)
    exact (State.inv_iff _).2 ⟨{ hsound with }, hsrc, inputOk_ofBytes hcin hlen, hst⟩
  case setFreq b v => exact (State.inv_iff _).2 ⟨{ hsound with }, hsrc, hcin, hst⟩
  case setSize v => exact (State.inv_iff _).2 ⟨{ hsound with }, hsrc, hcin, hst⟩
  case setSrcLen v => exact (State.inv_iff _).2 ⟨{ hsound with }, inputOk_declare hsrc v s.draws, hcin, hst⟩
  case setCinLen v => exact (State.inv_iff _).2 ⟨{ hsound with }, hsrc, inputOk_declare hcin v s.draws, hst⟩
  case pokeSrc a v => exact (State.inv_iff _).2 ⟨{ hsound with }, inputOk_poke hsrc a v, hcin, hst⟩
  case pokeCin a v => exact (State.inv_iff _).2 ⟨{ hsound with }, hsrc, inputOk_poke hcin a v, hst⟩
  case writeReadOnly loc => exact hs
  case reset =>
    obtain ⟨hsound₀, hsrc₀, hcin₀, hst₀⟩ := State.reset.inv_iff.1 resetMeetsInvariant
    exact (State.inv_iff _).2 ⟨{ hsound₀ with }, hsrc₀, hcin₀, hst₀⟩

/-- The host's actions to come and the byte in CMD are no part of the invariant. -/
theorem State.Inv.withHost {s : State} (hs : s.Inv) (host : List HostAction) : State.Inv { s with host := host } := by
  obtain ⟨hsound, hsrc, hcin, hst⟩ := s.inv_iff.1 hs
  exact (State.inv_iff _).2 ⟨{ hsound with }, hsrc, hcin, hst⟩

theorem State.Inv.withCmd {s : State} (hs : s.Inv) (c : Option Byte) : State.Inv { s with cmd := c } := by
  obtain ⟨hsound, hsrc, hcin, hst⟩ := s.inv_iff.1 hs
  exact (State.inv_iff _).2 ⟨{ hsound with }, hsrc, hcin, hst⟩

theorem illegalCommand_failed (s : State) : (illegalCommand s).Failed .illegalCommand false := rfl

/-- The illegal command writes STATUS alone (R207). -/
theorem illegalCommand_inv {s : State} (hs : s.Inv) : (illegalCommand s).Inv := by
  obtain ⟨hsound, hsrc, hcin, -⟩ := s.inv_iff.1 hs
  exact (State.inv_iff _).2 ⟨{ hsound with }, hsrc, hcin, settled_of_failed (illegalCommand_failed s)⟩

/-- Settles O59: commands, the illegal command and the host's actions each keep the invariant. -/
theorem stepKeepsInvariant : Obligations.StepKeepsInvariant := by
  intro s t hs h
  refine step_keeps (P := State.Inv) (fun i s t hs h => exec_inv (hs.withCmd none) h)
    (fun s hs => illegalCommand_inv (hs.withCmd none)) (fun a s rest t hs _ h => ?_) hs h
  obtain ⟨-, hwf, hact⟩ := hostAct_next h
  exact actOn_inv (hs.withHost rest) hwf hact

end Sys2Proof.Machine

/-! Proofs about the command byte and the step that runs it (10_state.md R35 to R37; 30_encoding.md R70 to R74). -/

namespace Sys2Proof

/-- The opcode map and its inverse agree (R72). -/
theorem opOf_of_decodeOp : ∀ (op : BitVec 4) (i : Instr), decodeOp op = some i → opOf i = op := by
  intro op i
  cases i <;> revert op <;> decide

/-- A byte is its two fields (R70). -/
theorem joinWord_splitWord (c : Byte) : joinWord (splitWord c) = c :=
  (BitVec.extractLsb'_append_extractLsb'_eq_extractLsb' (x := c) (len₁ := 4) (len₂ := 4) (start₁ := 0) rfl).trans
    BitVec.extractLsb'_eq_self

/-- The decoder accepts a byte whose RSV is 0 and whose OP is in the opcode map, and no other (R71, R74). -/
theorem decode_eq_ok {c : Byte} {i : Instr} (h : decode c = .ok i) :
    (splitWord c).rsv = 0 ∧ decodeOp (splitWord c).op = some i := by
  unfold decode at h
  split at h
  · next hrsv =>
    cases hop : decodeOp (splitWord c).op with
    | none => simp [hop] at h
    | some j =>
      rw [hop] at h
      exact ⟨hrsv, congrArg some (Except.ok.inj h)⟩
  · simp at h

theorem encode_of_decode {c : Byte} {i : Instr} (h : decode c = .ok i) : encode i = c := by
  obtain ⟨hrsv, hop⟩ := decode_eq_ok h
  rw [encode, opOf_of_decodeOp _ _ hop, ← hrsv]
  exact joinWord_splitWord c

theorem decode_encode (i : Instr) : decode (encode i) = .ok i := by
  cases i <;> rfl

/-- Settles O1, by evaluation of the decoder on nine bytes. -/
theorem opcodeMapBytes : Obligations.OpcodeMapBytes := ⟨rfl, rfl, rfl, rfl, rfl, rfl, rfl, rfl, rfl⟩

/-- Settles O2: an accepted byte has RSV 0 and the OP of its command, so it is the command's byte. -/
theorem decodeEncodeAgree : Obligations.DecodeEncodeAgree :=
  ⟨decode_encode, fun _ _ => encode_of_decode, exists_decode_eq_error_iff⟩

end Sys2Proof

namespace Sys2Proof.Machine

theorem step_of_cmd {s : State} {c : Byte} (h : s.cmd = some c) : step s = issue c { s with cmd := none } := by
  rw [step, h]

theorem step_of_host {s : State} {a : HostAction} {rest : List HostAction} (hc : s.cmd = none)
    (hh : s.host = a :: rest) : step s = hostAct a { s with host := rest } := by
  rw [step, hc, hh]

theorem step_of_idle {s : State} (hc : s.cmd = none) (hh : s.host = []) : step s = .next s := by
  rw [step, hc, hh]

theorem issue_of_decode {c : Byte} {i : Instr} (h : decode c = .ok i) (s : State) : issue c s = exec i s := by
  rw [issue, h]

/-- Settles O3: the step's three cases. -/
theorem stepRunsDecodedCommand : Obligations.StepRunsDecodedCommand :=
  ⟨fun _ _ _ hc hd => (step_of_cmd hc).trans (issue_of_decode hd _), fun _ _ _ => step_of_host, fun _ => step_of_idle⟩

/-- A CMD write is never refused (R35, R236). -/
theorem hostAct_writeCmd (c : Byte) (s : State) : hostAct (.writeCmd c) s = .next (writeCmd c s) := by
  simp [hostAct, allowedWhileBusy, HostAction.wf, actOn]

theorem writeCmd_of_busy {s : State} (h : s.status.state = .busy) (c : Byte) : writeCmd c s = s := if_pos h

theorem writeCmd_of_not_busy {s : State} (h : s.status.state ≠ .busy) (c : Byte) :
    writeCmd c s = { s with cmd := some c } := if_neg h

/-- Settles O4: the write leaves the byte in CMD, where the next step takes it from. -/
theorem cmdWriteIssuesOrIsIgnored : Obligations.CmdWriteIssuesOrIsIgnored := by
  intro s c rest hc hh
  have hwrite := (step_of_host hc hh).trans (hostAct_writeCmd c _)
  have hidle (hb : s.status.state ≠ .busy) := writeCmd_of_not_busy (s := { s with host := rest }) hb c
  refine ⟨fun hb i hi => ⟨_, hwrite, hidle hb, ?_⟩, fun hb e he => ⟨_, hwrite, ?_⟩, fun hb => ?_⟩
  · rw [hidle hb, step_of_cmd rfl, issue_of_decode hi, ← hc]
  · rw [hidle hb, step_of_cmd rfl, issue_of_decode_error he, illegalCommand_eq, ← hc]
  · rw [hwrite, writeCmd_of_busy (s := { s with host := rest }) hb]

/-- Settles O7: the acceptance overwrites STATUS before anything reads it (R36, R212). -/
theorem statusBeforeCommandHasNoEffect : Obligations.StatusBeforeCommandHasNoEffect := by
  intro i s st
  rw [exec_eq, exec_eq]
  rfl

/-! ### STATUS as a host reads it (R36) -/

/-- The fields of STATUS lie in the word one after the other. -/
theorem statusWord_fields (empty : Bool) (err : BitVec 4) (state : BitVec 2) :
    let w := (0 : BitVec 1) ++ BitVec.ofBool empty ++ err ++ state
    w.extractLsb' 0 2 = state ∧ w.extractLsb' 2 4 = err ∧ w.getLsbD 6 = empty ∧ w.getLsbD 7 = false := by
  refine ⟨BitVec.extractLsb'_append_eq_right, ?_, ?_, ?_⟩
  · exact (BitVec.extractLsb'_append_eq_of_le (Nat.le_refl 2)).trans BitVec.extractLsb'_append_eq_right
  · cases empty <;> simp only [BitVec.getLsbD_append] <;> rfl
  · simp only [BitVec.getLsbD_append]
    rfl

/-- Settles O10: the word is its fields one after the other, and the codes are as listed. -/
theorem statusWordFields : Obligations.StatusWordFields := by
  intro st
  obtain ⟨hstate, herr, hempty, htop⟩ := statusWord_fields st.empty (errField st.err) st.state.code
  refine ⟨hstate, herr.trans ?_, hempty, htop, rfl, rfl, rfl, rfl, rfl, rfl, rfl, rfl, rfl, rfl⟩
  cases st.err <;> rfl

end Sys2Proof.Machine

/-! Proofs about the shape of the tree TBUILD makes (40_tree_builder.md R113): how many nodes it has, and how deep its
leaves lie. -/

namespace Sys2Proof.Machine

/-- The number of valid entries from 256 on, the internal nodes (R31). -/
def NodeTable.internals (t : NodeTable) : Nat :=
  ((List.finRange 255).filter fun k : Fin 255 => (t[256 + k.val]'(by omega)).isSome).length

/-- The arena is its leaves and its internal nodes. -/
theorem NodeTable.count_eq (t : NodeTable) : t.count = t.leaves + t.internals := by
  have hlist : t.toList = ((List.finRange 256).map fun b : Fin 256 => t[b.val]'(by omega)) ++
      (List.finRange 255).map fun k : Fin 255 => t[256 + k.val]'(by omega) := by
    apply List.ext_getElem
    · simp
    · intro i hi hi'
      by_cases h : i < 256
      · simp [h]
      · rw [List.getElem_append_right (by simpa using h)]
        simp [Nat.add_sub_cancel' (Nat.not_lt.1 h)]
  rw [NodeTable.count, hlist, List.filter_append, List.length_append, List.filter_map, List.filter_map,
    List.length_map, List.length_map]
  rfl

/-- When the internal nodes are those below index `256 + d`, there are `d` of them. -/
theorem NodeTable.internals_eq {t : NodeTable} {d : Nat} (hd : d ≤ 255)
    (h : ∀ i : NodeIdx, 256 ≤ i.val → (t.entry i ≠ none ↔ i.val < 256 + d)) : t.internals = d := by
  have hmem : ∀ k : Fin 255, (t[256 + k.val]'(by omega)).isSome = decide (k.val < d) := fun k => by
    have hk := h ⟨256 + k.val, by omega⟩ (Nat.le_add_right _ _)
    rw [Bool.eq_iff_iff, decide_eq_true_iff, Option.isSome_iff_ne_none]
    exact hk.trans (Nat.add_lt_add_iff_left)
  rw [NodeTable.internals, List.filter_congr fun k _ => hmem k]
  calc ((List.finRange 255).filter fun k : Fin 255 => decide (k.val < d)).length
      = (Finset.univ.filter fun k : Fin 255 => k.val < d).card := rfl
    _ = d := by rw [Fin.card_filter_val_lt, Nat.min_eq_right hd]

/-- There are as many leaves as symbols (R104). -/
theorem leaves_buildTree (f : FreqTable) : (buildTree f).node.leaves = f.symbols := by
  rw [NodeTable.leaves, FreqTable.symbols, freqTable_toList, List.filter_map, List.length_map]
  congr 2
  funext b
  have hb : (buildTree f).node[b.val] =
      if f[b.val] = 0 then none else some (.leaf (BitVec.ofFin b) ((f[b.val]).setWidth 40)) :=
    buildTree_leaf f (BitVec.ofFin b)
  rw [hb, Function.comp_apply]
  split_ifs with h0
  · exact (decide_eq_false (not_not_intro h0)).symm
  · exact (decide_eq_true h0).symm

theorem symbols_le (f : FreqTable) : f.symbols ≤ 256 := length_leafQueue f ▸ length_leafQueue_le f

section
variable {f : FreqTable}

theorem internals_of_no_symbol (h : f.symbols = 0) : (buildTree f).node.internals = 0 := by
  refine NodeTable.internals_eq (Nat.zero_le _) fun i hi => ?_
  rw [buildTree_of_no_symbol h, leafArena_entry, dif_neg (by omega)]
  exact iff_of_false (not_not_intro rfl) (by omega)

/-- The degenerate tree has the root alone above its leaf (R106). -/
theorem internals_of_one_symbol (h : f.symbols = 1) : (buildTree f).node.internals = 1 := by
  obtain ⟨k, hk⟩ := List.length_eq_one_iff.1 ((length_leafQueue f).trans h)
  refine NodeTable.internals_eq (by decide) fun i hi => ?_
  have hentry : (buildTree f).node.entry i =
      if i = 256 then some (.internal k.f (some k.i) none) else (leafArena f).entry i := by
    rw [buildTree, hk]
    exact nodeEntry_set (leafArena f) 256 i _
  rw [hentry, leafArena_entry, dif_neg (by omega)]
  by_cases h256 : i = 256
  · simp [h256]
  · have hne := Fin.val_ne_of_ne h256
    rw [if_neg h256]
    exact iff_of_false (not_not_intro rfl) fun hlt => hne (show i.val = 256 by omega)

/-- Each merge makes one node, and each takes one element away from the priority structure (R108). -/
theorem internals_of_two_symbols (h : 2 ≤ f.symbols) : (buildTree f).node.internals = f.symbols - 1 := by
  have hle := symbols_le f
  obtain ⟨k, -, hm⟩ := mergeLeaves_ends ((length_leafQueue f).symm ▸ h)
  refine NodeTable.internals_eq (by omega) fun i hi => ?_
  rw [buildTree_of_two_symbols h, hm.valid i hi, length_leafQueue]
  omega

end

/-- A path from the root of a built tree to a leaf has a branch, and fewer than there are symbols, or one (R113). -/
theorem depth_buildTree {f : FreqTable} {r i : NodeIdx} {path : List Bit} (hr : (buildTree f).root = some r)
    (hi : i.val < 256) (hpath : (buildTree f).node.follow r path = some i) :
    1 ≤ path.length ∧ path.length ≤ max 1 (f.symbols - 1) := by
  have hok := buildTree_ok f
  obtain ⟨g, l, r', he⟩ := (hok.rootTop r hr).1
  have hge := hok.internalLayout r g l r' he
  refine ⟨List.length_pos_iff.2 ?_, ?_⟩
  · rintro rfl
    obtain rfl := Option.some.inj hpath
    omega
  · by_cases hk : (buildTree f).kind = .degen
    · obtain rfl := Option.some.inj
        (hr.symm.trans (buildTree_root_of_one_symbol ((buildTree_kind_eq_degen_iff f).1 hk)))
      exact le_max_of_le_left (hok.forest.length_follow hpath).2
    · have hlt := hok.length_follow_lt_weight_one hk (hok.root_valid hr) path i hpath
      have hleaves := CodeTable.weight_one_eq_leaves hok.codesOf_present_iff
      rw [hr, leaves_buildTree] at hleaves
      omega

/-- Settles O20: the nodes are the leaves, one per symbol, and the nodes of the merges; a path is bounded by the number
of leaves it passes. -/
theorem tbuildShapeCounts : Obligations.TbuildShapeCounts := by
  intro s
  have hcount := (buildTree s.freq).node.count_eq
  rw [leaves_buildTree] at hcount
  refine ⟨_, exec_tbuild_eq s, fun h => hcount.trans ?_, fun h => hcount.trans ?_, fun h => hcount.trans ?_,
    fun r i path => depth_buildTree⟩
  · rw [h, internals_of_no_symbol h]
  · rw [h, internals_of_one_symbol h]
  · rw [internals_of_two_symbols h]
    omega

end Sys2Proof.Machine

/-! Proofs about walks on a tree that meets R32 (43_bit_unpacker.md R148 to R150), about the two whole-path commands as
sequences of units (30_encoding.md R86), and about the ends of DECODE (45_encode_decode.md R184 to R186). -/

namespace Sys2Proof.Machine

/-! ### BUNPACK on a tree that meets R32 -/

section
variable {s : State} {r : NodeIdx}

/-- A walk that owes a byte and finishes has found a bit in the carrier. -/
theorem payloadCapacity_pos_of_finished (hz : s.size ≠ 0) {bs : List Byte} {p : Nat}
    (hw : s.walk r = .finished bs p) : 0 < s.payloadCapacity := by
  obtain ⟨need, hneed⟩ := Nat.exists_eq_add_one_of_ne_zero fun h => hz (BitVec.eq_of_toNat_eq h)
  rw [State.walk, hneed] at hw
  obtain ⟨left, hleft, -⟩ := walkLoop_succ_finished hw
  omega

/-- A walk on a tree that meets R32 finishes or reads every bit of the carrier (R148, R149). -/
theorem walk_finished_or_incomplete (hs : s.tree.Ok) (hr : s.root = some r) :
    (∃ bs p, s.walk r = .finished bs p) ∨ ∃ bs, s.walk r = .incomplete bs s.payloadCapacity := by
  rw [State.walk]
  rcases walkLoop_cases s.tree r s.payloadBit s.payloadCapacity 0 r s.size.toNat [] with
    ⟨out, q, hw, -⟩ | ⟨out, hw, -⟩ | ⟨out, q, hw, -⟩
  · exact .inl ⟨_, _, hw⟩
  · exact .inr ⟨_, by rw [hw, Nat.zero_add]⟩
  · exact absurd hw (hs.walkLoop_ne_invalid hr (hs.rootTop r hr).1 _ _ _ _ _ _ _)

end

theorem payloadCapacity_eq (s : State) : s.payloadCapacity = s.cinLen.toNat - 8278 := by
  rw [State.payloadCapacity, Config.payBase_eq]

/-- Settles O42: no walk comes to a position without a node, so it finishes or runs out of bits. -/
theorem bunpackFinishesOrRunsOut : Obligations.BunpackFinishesOrRunsOut := by
  intro s r hs hz hr
  have hcap := payloadCapacity_eq s
  rcases walk_finished_or_incomplete hs hr with ⟨bs, p, hw⟩ | ⟨bs, hw⟩
  · obtain ⟨hlen, hp⟩ := walk_finished_bounds hw
    have hpos := payloadCapacity_pos_of_finished hz hw
    refine ⟨_, exec_bunpack_of_finished hz hr hw, .inl ⟨unpacked_done hz _ _, rfl, holds_ofBytes hlen, ?_⟩,
      unpacked_frame s _ _⟩
    rw [unpacked_rdbits bs hp]
    omega
  · refine ⟨_, exec_bunpack_of_incomplete hz hr hw,
      .inr ⟨unpackFailed_failed hz _ _, rfl, rfl, rfl, holds_ofBytes rfl, ?_⟩, unpackFailed_frame s _ _⟩
    rw [unpackFailed_rdbits _ (Nat.le_refl _), hcap]

/-! ### Sequences of units (R86) -/

section
variable {i : Instr} {is : List Instr} {s t : State}

theorem runUnits_cons_of_next (h : exec i s = .next t) (hok : t.status.state ≠ .error) :
    runUnits (i :: is) s = runUnits is t := by
  rw [runUnits, h]
  exact if_neg hok

theorem runUnits_singleton (i : Instr) (s : State) : runUnits [i] s = exec i s := by
  obtain ⟨t, ht, -⟩ := exec_endOf i s
  rw [runUnits, ht]
  exact ite_self _

end

/-- The STATUS of a command that has ended without error (R36). -/
def Status.done (empty : Bool) : Status := { state := .done, err := none, empty := empty }

section
variable (s : State)

/-- FCOUNT, TBUILD and CGEN leave the tables ENCODE writes before BPACK (R86). -/
theorem runUnits_coded (is : List Instr) :
    runUnits (.fcount :: .tbuild :: .cgen :: is) s = runUnits is (s.coded.withStatus (.done false)) := by
  rw [runUnits_cons_of_next (exec_fcount_eq s) (by simp), runUnits_cons_of_next (exec_tbuild_eq _) (by simp),
    runUnits_cons_of_next (exec_cgen_eq _) (by simp)]
  rfl

/-- BPACK then finds a code for every byte. -/
theorem exec_bpack_coded :
    exec .bpack (s.coded.withStatus (.done false)) = .next (s.packed.withStatus (.done false)) :=
  exec_bpack_of_coded (s := s.coded.withStatus (.done false)) fun _ hb => fileTree_coded s hb

end

/-- A command does not look at the STATUS before it (R212). -/
theorem exec_withStatus (i : Instr) (s : State) (st : Status) : exec i (s.withStatus st) = exec i s :=
  statusBeforeCommandHasNoEffect i s st

/-- Settles O49: the first four units end DONE and leave the packed file to FEMBED, which does not look at STATUS. -/
theorem encodeIsUnitSequence : Obligations.EncodeIsUnitSequence := by
  intro s
  rw [runUnits_coded, runUnits_cons_of_next (exec_bpack_coded s) (by simp [Status.done]), runUnits_singleton,
    exec_withStatus, exec_fembed_eq, exec_encode_eq]

/-- TBUILD after FEXTRACT (R86). -/
theorem exec_tbuild_extracted (s : State) (f : FreqTable) (n : Word) : exec .tbuild (s.extracted f n) =
    .next (((s.withTable f n).withTree (buildTree f)).withStatus (.done false)) := rfl

/-- Settles O50: FEXTRACT's three ends, each with the way DECODE goes on from it. -/
theorem decodeIsUnitSequence : Obligations.DecodeIsUnitSequence := by
  intro s u hu
  rcases exec_fextract_cases s with ⟨hc, hx⟩ | ⟨hlen, hz, hx⟩ | ⟨hlen, hnz, hx⟩ <;>
    obtain rfl := Host.Outcome.next.inj (hx.symm.trans hu)
  · exact ⟨fun _ h => absurd rfl h, fun _ => ⟨_, exec_decode_of_corrupt hc, rfl, rfl, rfl⟩⟩
  · exact ⟨fun _ h => absurd rfl h, fun _ => ⟨_, exec_decode_of_size_zero hlen hz, rfl, rfl, rfl⟩⟩
  · refine ⟨fun _ _ => ?_, fun h => ?_⟩
    · rw [runUnits_cons_of_next (exec_tbuild_extracted s _ _) (by simp [Status.done]), runUnits_singleton,
        exec_withStatus, exec_decode_of_header hlen hnz, State.headerRead]
    · rcases h with herr | hz
      · simp [State.extracted] at herr
      · exact absurd hz hnz

/-! ### The ends of DECODE -/

/-- Settles O51: DECODE ends after FEXTRACT, with DST and RDBITS cleared. -/
theorem decodeEmptyFile : Obligations.DecodeEmptyFile := by
  intro s hlen hbits
  obtain ⟨hinputs, htree, hcode, hpay, hcout, -⟩ := extracted_frame s zeroFreq 0
  exact ⟨_, exec_decode_of_size_zero hlen ((sizeField_eq_zero_iff s).2 hbits), rfl, rfl, rfl, rfl, rfl, rfl,
    zeroFreq_getElem, hinputs, htree, hcode, hpay, hcout⟩

/-- What DECODE leaves unchanged, whatever its end (R186). -/
def KeepsAllButDecoded (s t : State) : Prop :=
  KeepsInputs s t ∧ KeepsCode s t ∧ KeepsPay s t ∧ KeepsCout s t

theorem keepsAllButDecoded_of_tree {s t : State} {f : FreqTable} {n : Word} {T : Tree}
    (h : KeepsAllButOutput ((s.withTable f n).withTree T) t) : KeepsAllButDecoded s t := by
  obtain ⟨hinputs, -, -, hcode, hpay, hcout⟩ := h
  exact ⟨hinputs, hcode, hpay, hcout⟩

theorem getLsbD_sizeField (s : State) {j : Nat} (hj : j < 32) :
    (s.frameField 0).getLsbD (31 - j) = extractBit (s.cin.read (54 + j)) := by
  rw [getLsbD_frameField s 0 hj, Nat.zero_add, frameBit_eq]

theorem getLsbD_frameTable (s : State) (i : Fin 256) {j : Nat} (hj : j < 32) :
    (s.frameTable[i.val]).getLsbD (31 - j) = extractBit (s.cin.read (86 + 32 * i.val + j)) := by
  rw [getElem_frameTable, getLsbD_frameField _ _ hj, frameBit_eq]
  congr 2
  omega

/-- The table is all zero exactly when its 8192 bits are (R172). -/
theorem frameTable_eq_zero_iff (s : State) : (∀ b : Fin 256, s.frameTable[b.val] = 0) ↔
    ∀ k, k < 8192 → extractBit (s.cin.read (86 + k)) = false := by
  simp only [getElem_frameTable, frameField_eq_zero, frameBit_eq]
  constructor
  · intro h k hk
    have hbit := h ⟨k / 32, by omega⟩ (k % 32) (by omega)
    rwa [show 54 + (32 + 32 * (k / 32) + k % 32) = 86 + k by omega] at hbit
  · intro h b j hj
    have hbit := h (32 * b.val + j) (by omega)
    rwa [show 86 + (32 * b.val + j) = 54 + (32 + 32 * b.val + j) by omega] at hbit

/-- What DECODE reads from the header stands in SIZE and FREQ at its end, and the tree is TBUILD's of FREQ (R186). -/
theorem table_of_tree {s t : State} {f : FreqTable} {n : Word}
    (h : KeepsAllButOutput ((s.withTable f n).withTree (buildTree f)) t) :
    t.size = n ∧ t.freq = f ∧ ∀ u, exec .tbuild t = .next u → KeepsTree t u := by
  obtain ⟨-, ⟨hfreq, hsize⟩, ⟨hnode, hroot, hkind⟩, -⟩ := h
  refine ⟨hsize, hfreq, fun u hu => ?_⟩
  obtain rfl := Host.Outcome.next.inj ((exec_tbuild_eq t).symm.trans hu)
  simp only [KeepsTree, hnode, hroot, hkind, hfreq]
  exact ⟨rfl, rfl, rfl⟩

/-- How BUNPACK ends on a nonzero size and the tree of the table `f`, with `n` carrier bytes: InvalidCode on a table of
zeros, else as the walk does (R186). -/
structure UnpackEnd (f : FreqTable) (n : Nat) (t : State) : Prop where
  zero : (∀ b : Fin 256, f[b.val] = 0) → t.Failed .invalidCode false ∧ t.root = none ∧ t.tkind = .empty ∧
    t.dstLen = 0 ∧ t.dstBytes = [] ∧ t.rdbits = 0
  nonzero : (¬ ∀ b : Fin 256, f[b.val] = 0) →
    (t.Done false ∧ t.dstLen = t.size ∧ t.dst.Holds t.size ∧ 8278 + t.rdbits.toNat ≤ n) ∨
    (t.Failed .incompleteStream false ∧ t.dstLen = 0 ∧ t.dstBytes = [] ∧ t.rdbits.toNat = n - 8278)

/-- The tree of a table of zeros has no root (R105), and any other tree meets R32, so the walk has two ends only. -/
theorem bunpack_tree_end (s : State) (f : FreqTable) {n : Word} (hn : n ≠ 0) :
    ∃ t, exec .bunpack ((s.withTable f n).withTree (buildTree f)) = .next t ∧
      KeepsAllButOutput ((s.withTable f n).withTree (buildTree f)) t ∧ UnpackEnd f s.cinLen.toNat t := by
  have htree := buildTree_ok f
  cases hroot : (buildTree f).root with
  | none =>
    exact ⟨_, exec_bunpack_of_no_root hn hroot, unpackFailed_frame _ _ _,
      fun _ => ⟨unpackFailed_failed hn _ _, hroot, htree.emptyKind.2 hroot, rfl, rfl, rfl⟩,
      fun h => absurd ((buildTree_root_eq_none_iff f).1 hroot) h⟩
  | some r =>
    obtain ⟨t, ht, hend, hkeeps⟩ := bunpackFinishesOrRunsOut ((s.withTable f n).withTree (buildTree f)) r htree hn hroot
    refine ⟨t, ht, hkeeps, fun h => ?_, fun _ => ?_⟩
    · rw [(buildTree_root_eq_none_iff f).2 h] at hroot
      simp at hroot
    · obtain ⟨-, ⟨-, hsize⟩, -⟩ := hkeeps
      rcases hend with ⟨hdone, hdst, hholds, hbits⟩ | ⟨hfail, -, hdst, hbytes, -, hbits⟩
      · rw [← hsize] at hdst hholds
        exact .inl ⟨hdone, hdst, hholds, hbits⟩
      · exact .inr ⟨hfail, hdst, hbytes, hbits⟩

/-- Settles O52: the tests of FEXTRACT come first, then that of BUNPACK for the empty tree, then the walk. -/
theorem decodeErrorsInOrder : Obligations.DecodeErrorsInOrder := by
  intro s
  simp only [← sizeField_ne_zero_iff]
  rcases exec_decode_cases s with ⟨hc, hx⟩ | ⟨hlen, hz, hx⟩ | ⟨hlen, hnz, hx⟩
  · obtain ⟨hinputs, htree, hcode, hpay, hcout, -⟩ := headerCorrupt_frame s
    refine ⟨_, hx, hinputs, hcode, hpay, hcout,
      fun _ => ⟨rfl, rfl, zeroFreq_getElem, rfl, rfl, rfl, htree⟩, fun hlen hnz => ?_⟩
    omega
  · obtain ⟨hinputs, htree, hcode, hpay, hcout, -⟩ := extracted_frame s zeroFreq 0
    refine ⟨_, hx, hinputs, hcode, hpay, hcout, fun h => ?_, fun _ hnz => absurd hz hnz⟩
    exact absurd hz (h.resolve_left (Nat.not_lt.2 hlen)).2
  · obtain ⟨t, ht, hkeeps, hzero, hnonzero⟩ := bunpack_tree_end s s.frameTable hnz
    obtain ⟨hsize, hfreq, htree⟩ := table_of_tree hkeeps
    obtain ⟨hinputs, hcode, hpay, hcout⟩ := keepsAllButDecoded_of_tree hkeeps
    refine ⟨t, hx.trans ht, hinputs, hcode, hpay, hcout, fun h => ?_, fun _ _ => ⟨fun j hj => ?_, fun i j hj => ?_,
      htree, fun h => ?_, fun h => hnonzero ?_⟩⟩
    · omega
    · rw [hsize, getLsbD_sizeField s hj]
    · rw [hfreq, getLsbD_frameTable s i hj]
    · rw [← frameTable_eq_zero_iff] at h
      exact ⟨hfreq ▸ h, hzero h⟩
    · rw [frameTable_eq_zero_iff]
      simpa using h

/-- BUNPACK on the tree of the table `f`, with the codes of SIZE bytes in the carrier (R153). -/
theorem bunpack_tree_of_codeOf {s : State} {f : FreqTable} {n : Word} {bs : List Byte}
    (hcoded : ∀ b ∈ bs, (buildTree f).codes.entry b ≠ none) (hsize : n.toNat = bs.length)
    (hbits : ∀ p, p < ((buildTree f).codes.codeOf bs).length →
      ((buildTree f).codes.codeOf bs)[p]? = some (extractBit (s.cin.read (8278 + p))))
    (hlen : 8278 + ((buildTree f).codes.codeOf bs).length ≤ s.cinLen.toNat) :
    exec .bunpack ((s.withTable f n).withTree (buildTree f)) =
      .next (((s.withTable f n).withTree (buildTree f)).unpacked bs ((buildTree f).codes.codeOf bs).length) ∧
    ((buildTree f).codes.codeOf bs).length ≤ s.payloadCapacity := by
  have hcap : ((buildTree f).codes.codeOf bs).length ≤ s.payloadCapacity := by
    rw [payloadCapacity_eq]
    omega
  exact ⟨exec_bunpack_of_codeOf (s := (s.withTable f n).withTree (buildTree f)) (buildTree_ok f) hcoded hsize
    (spells_payload_iff.2 hbits) hcap, hcap⟩

/-- Settles O53: DECODE builds the tree of the carrier's table, and on it the walker inverts the codes (R153). -/
theorem decodeOfPackedPayload : Obligations.DecodeOfPackedPayload := by
  intro s u v g bs hu hdone hv hg hcoded hsize hbits hlen
  have hcodes : g.code = (buildTree u.freq).codes := by
    rw [exec_cgen_code hg, exec_next_iff.1 hv]
    rfl
  rw [hcodes] at hcoded hbits hlen ⊢
  rcases exec_fextract_cases s with ⟨-, hx⟩ | ⟨h86, hz, hx⟩ | ⟨h8278, hnz, hx⟩ <;>
    obtain rfl := Host.Outcome.next.inj (hx.symm.trans hu)
  · simp [State.headerCorrupt] at hdone
  · obtain rfl : bs = [] := List.eq_nil_of_length_eq_zero hsize.symm
    obtain ⟨hinputs, -, hcode, hpay, hcout, -⟩ := extracted_frame s zeroFreq 0
    exact ⟨_, exec_decode_of_size_zero h86 hz, rfl, rfl, rfl, rfl, rfl, rfl, fun h => absurd rfl h, hinputs, hcode,
      hpay, hcout⟩
  · have hdecode := exec_decode_of_header h8278 hnz
    rw [State.headerRead] at hdecode
    -- Of the two fields nothing is needed but that DECODE and TBUILD take them from the same place.
    generalize s.frameTable = f at *
    generalize s.frameField 0 = n at *
    obtain ⟨hrun, hcap⟩ := bunpack_tree_of_codeOf (s := s) (f := f) (n := n) hcoded hsize hbits hlen
    obtain rfl := Host.Outcome.next.inj ((exec_tbuild_extracted s f n).symm.trans hv)
    exact ⟨_, hdecode.trans hrun, rfl, rfl, rfl, rfl, unpacked_dstBytes hsize.symm 0, unpacked_rdbits bs hcap,
      fun _ => ⟨rfl, rfl, rfl⟩, keepsAllButDecoded_of_tree (unpacked_frame _ bs _)⟩

end Sys2Proof.Machine

/-! Proofs about the commands in the reset state (70_reset_and_hazards.md R232) and about EmbedBit (20_memory.md
R57). -/

namespace Sys2Proof.Machine

/-- Settles O12: nothing is loaded, so there is nothing to count, build, code or pack, and no carrier. -/
theorem commandsFromReset : Obligations.CommandsFromReset := by
  have hsrc : State.reset.srcBytes = [] := rfl
  obtain ⟨tb, htb, hbuilt, hroot, hkind, -⟩ := tbuildEmptyTable State.reset zeroFreq_getElem
  obtain ⟨tg, htg, hgen, hcode⟩ := cgenEmptyTree.1 State.reset rfl
  obtain ⟨tp, htp, hpacked⟩ := bpackEmptyFile State.reset rfl
  obtain ⟨tu, htu, hunpacked, hdst, -⟩ := bunpackSizeZero State.reset rfl
  obtain ⟨tf, htf, hembed, -⟩ := fembedInsufficientCapacity State.reset (by decide)
  obtain ⟨tx, htx, hextract, -⟩ := fextractCorruptHeader.2 State.reset (.inl (by decide))
  obtain ⟨te, hte, -, -, -, -, -, -, -, hencode⟩ := encodeEmptyFile State.reset rfl
  refine ⟨⟨_, exec_fcount_eq _, rfl, fun b => ?_⟩, ⟨tb, htb, hbuilt, hroot, hkind⟩,
    ⟨tg, htg, hgen, fun b => hcode (BitVec.ofFin b)⟩, ⟨tp, htp, hpacked⟩, ⟨tf, htf, hembed⟩, ⟨tx, htx, hextract⟩,
    ⟨tu, htu, hunpacked, hdst⟩, ⟨te, hte, hencode (by decide)⟩, ⟨_, exec_decode_of_corrupt (.inl (by decide)), rfl⟩⟩
  rw [hsrc]
  exact zeroFreq_getElem b

/-! ### EmbedBit (R57) -/

theorem shiftRight_embedBit (c : Byte) (b : Bit) : embedBit c b >>> 1 = c >>> 1 := by
  apply BitVec.eq_of_getLsbD_eq
  intro j _
  rw [BitVec.getLsbD_ushiftRight, BitVec.getLsbD_ushiftRight, getLsbD_embedBit, if_neg (by omega)]

/-- EmbedBit changes a byte by 1 at most: the upper bits are kept. -/
theorem toNat_embedBit_div_two (c : Byte) (b : Bit) : (embedBit c b).toNat / 2 = c.toNat / 2 := by
  have h := congrArg BitVec.toNat (shiftRight_embedBit c b)
  rwa [BitVec.toNat_ushiftRight, BitVec.toNat_ushiftRight, Nat.shiftRight_eq_div_pow, Nat.shiftRight_eq_div_pow] at h

theorem embedBit_of_eq {c : Byte} {b : Bit} (h : c.getLsbD 0 = b) : embedBit c b = c := by
  apply BitVec.eq_of_getLsbD_eq
  intro j _
  rw [getLsbD_embedBit]
  split_ifs with hj
  · rw [hj, h]
  · rfl

/-- Settles O31: the written byte is known bit by bit. -/
theorem embedExtractBit : Obligations.EmbedExtractBit := by
  intro c b
  have hdiv := toNat_embedBit_div_two c b
  refine ⟨fun j hj => ?_, ?_, by omega, by omega, embedBit_of_eq, rfl, extractBit_embedBit c b⟩
  · rw [getLsbD_embedBit, if_neg hj]
  · rw [getLsbD_embedBit, if_pos rfl]

end Sys2Proof.Machine

/-! Proofs about the host's side (10_state.md R42; 20_memory.md R53, R60, R64; 30_encoding.md R85) and about the
capacities (00_scope.md R6; 93_implementation_defined.md U8). -/

namespace Sys2Proof.Machine

/-! ### The host's writes -/

theorem hostAct_of_not_busy {s : State} {a : HostAction} (hb : s.status.state ≠ .busy) (hwf : a.wf = true) :
    hostAct a s = actOn a s := by
  rw [hostAct, if_neg fun h => hb h.1, if_neg (by simp [hwf])]

/-- A write of one FREQ entry changes that entry (R42). -/
theorem getElem_setFreq (s : State) (b c : Byte) (v : Word) :
    (setFreq b v s).freq[c.toNat] = if c = b then v else s.freq[c.toNat] := by
  simp only [setFreq, Vector.getElem_set, ← BitVec.toNat_inj, eq_comm (a := b.toNat)]

section
variable (m : Memory) (staged : List Host.Cell) {len a : Word} (v : Byte)

theorem writeBelow_of_lt (h : a < len) : m.writeBelow len a v = m.write a.toNat v := if_pos h

theorem writeBelow_of_ge (h : len ≤ a) : m.writeBelow len a v = m := if_neg (BitVec.not_lt.2 h)

theorem stageByte_of_lt (h : a < len) : Memory.stageByte staged len a v = staged := if_pos h

theorem read_writeBelow_of_lt (h : a < len) (x : Nat) :
    (m.writeBelow len a v).read x = if x = a.toNat then v else m.read x := by
  rw [writeBelow_of_lt m v h, read_write]

end

/-- Settles O55: a byte goes to the memory or to the staged bytes, by the length. -/
theorem hostWriteEffects : Obligations.HostWriteEffects := by
  intro s hb
  have hact {a : HostAction} (hwf : a.wf = true) := hostAct_of_not_busy hb hwf
  refine ⟨fun b v => ⟨_, hact rfl, fun c => getElem_setFreq s b c v, rfl⟩, fun v => hact rfl, fun a v => ?_,
    fun a v => ?_, fun loc => hact rfl⟩
  · exact ⟨_, hact rfl, rfl, lastWritten_poke _ _ _ a v,
      fun h => ⟨stageByte_of_lt _ v h, read_writeBelow_of_lt _ v h⟩, writeBelow_of_ge _ v⟩
  · exact ⟨_, hact rfl, rfl, lastWritten_poke _ _ _ a v,
      fun h => ⟨stageByte_of_lt _ v h, read_writeBelow_of_lt _ v h⟩, writeBelow_of_ge _ v⟩

/-! ### LOAD and the length registers -/

/-- A byte the host writes anywhere is content once a length above it is declared (R64, R232). -/
theorem read_declare_poke (m : Memory) (staged : List Host.Cell) (len : Word) {a n : Word} (h : a < n) (v : Byte)
    (draw : Nat) :
    ((m.writeBelow len a v).declare (Memory.stageByte staged len a v) len n draw).read a.toNat = v := by
  rw [read_declare h, lastWritten_poke, if_pos rfl, Option.getD_some]

/-- A memory loaded with a file holds it, and the host's latest writes beyond it stay (R85, R64). -/
theorem load_spec {bs : List Byte} (h : bs.length < 2 ^ 32) (m : Memory) (staged : List Host.Cell) (len : Word) :
    (BitVec.ofNat 32 bs.length).toNat = bs.length ∧
    (Memory.ofBytes bs).bytes (BitVec.ofNat 32 bs.length).toNat = bs ∧
    ∀ a, bs.length ≤ a → (Memory.ofBytes bs).lastWritten (m.stage staged len (BitVec.ofNat 32 bs.length))
      (BitVec.ofNat 32 bs.length) a = m.lastWritten staged len a := by
  have hlen : (BitVec.ofNat 32 bs.length).toNat = bs.length := by
    rw [BitVec.toNat_ofNat, Nat.mod_eq_of_lt h]
  refine ⟨hlen, by rw [hlen, bytes_ofBytes], fun a ha => ?_⟩
  rw [lastWritten_load m staged len _ bs hlen, if_neg (Nat.not_lt.2 ha)]

/-- Settles O56: LOAD and the length registers keep the host's latest writes, which a length write makes content. -/
theorem hostLoadAndLengthWrites : Obligations.HostLoadAndLengthWrites := by
  intro s hb
  have hact {a : HostAction} (hwf : a.wf = true) := hostAct_of_not_busy hb hwf
  refine ⟨fun bs hbs => ?_, fun v => ⟨?_, ?_⟩, fun a v x hav => ⟨?_, ?_⟩⟩
  · have hwf : decide (bs.length ≤ Config.maxBytes) = true := decide_eq_true (by rw [Config.maxBytes]; omega)
    obtain ⟨hsrcLen, hsrc, hsrcLast⟩ := load_spec hbs s.src s.srcStaged s.srcLen
    obtain ⟨hcinLen, hcin, hcinLast⟩ := load_spec hbs s.cin s.cinStaged s.cinLen
    exact ⟨⟨_, hact hwf, hsrcLen, hsrc, hsrcLast, rfl⟩, ⟨_, hact hwf, hcinLen, hcin, hcinLast, rfl⟩⟩
  · exact ⟨_, hact rfl, rfl, lastWritten_declare _ _ _ _ _, below_declare _ _ _ _ _,
      fun a ha => read_declare ha _ _ _ _, rfl⟩
  · exact ⟨_, hact rfl, rfl, lastWritten_declare _ _ _ _ _, below_declare _ _ _ _ _,
      fun a ha => read_declare ha _ _ _ _, rfl⟩
  · exact ⟨_, _, hact rfl, hostAct_of_not_busy hb rfl, read_declare_poke _ _ _ hav x _⟩
  · exact ⟨_, _, hact rfl, hostAct_of_not_busy hb rfl, read_declare_poke _ _ _ hav x _⟩

/-! ### Host reads (R60) -/

theorem hostAct_next_of_actOn {a : HostAction} {s t u v : State} (h : hostAct a s = .next t)
    (hst : u.status = s.status) (hu : actOn a u = .next v) : hostAct a u = .next v := by
  obtain ⟨hallowed, hwf, -⟩ := hostAct_next h
  rw [hostAct, hst, if_neg hallowed, if_neg (by simp [hwf]), hu]

/-- No location a host reads holds what it has read before. -/
theorem hostRead_withReadData (loc : ReadLoc) (s : State) (v : Option HostValue) :
    hostRead loc { s with readData := v } = hostRead loc s := by
  cases loc <;> rfl

/-- Settles O57: the second read finds what the first has found, since the first changes readData alone. -/
theorem hostReadsAreIdempotent : Obligations.HostReadsAreIdempotent := by
  intro s t loc h
  obtain ⟨-, -, hact⟩ := hostAct_next h
  obtain ⟨v, hv, rfl⟩ := readOutcome_next hact
  refine ⟨rfl, hv.symm, by simp, hostAct_next_of_actOn h rfl ?_⟩
  rw [actOn, readOutcome, hostRead_withReadData, hv]

/-! ### The capacities -/

/-- A walk emits no more bytes than a length register can name. -/
theorem emittedBytes_le_maxBytes (i : Instr) (s : State) : emittedBytes i s ≤ Config.maxBytes := by
  obtain ⟨t, ht⟩ := exec_endOf i s
  have hle := emittedBytes_le ht.1
  have hlt := t.size.isLt
  rw [Config.maxBytes]
  omega

theorem stepEmits_le_maxBytes (s : State) : stepEmits s ≤ Config.maxBytes := by
  unfold stepEmits
  split
  · exact Nat.zero_le _
  · split
    · exact Nat.zero_le _
    · exact emittedBytes_le_maxBytes _ _

/-- The default capacities refuse nothing (R6). -/
theorem limit_default {n : Nat} (hn : n ≤ Config.maxBytes) (o : Host.Outcome State Fault Refusal) :
    limit Config.defaultCapacities n o = o := by
  cases o with
  | next t => exact limit_eq_next.2 ⟨rfl, within_default t, hn⟩
  | fault f => rfl
  | refused r => rfl

/-- Settles O60: the limit lets a next state through when it is within the capacities, as every state is within the
default ones, and a walk emits SIZE bytes at most. -/
theorem capacityIsAPrecondition : Obligations.CapacityIsAPrecondition := by
  refine ⟨fun s => limit_default (stepEmits_le_maxBytes s) _, fun i s => limit_default (emittedBytes_le_maxBytes i s) _,
    fun c s t h => ?_, fun c s t h hbeyond => ?_, fun c i s t h hsrc hcin hcout hdst hpay hsize => ?_⟩
  · obtain ⟨hstep, hwithin, -⟩ := limit_eq_next.1 h
    exact ⟨hstep, (within_iff c t).1 hwithin⟩
  · rw [stepWithin, h]
    refine limit_next_refused fun ⟨hwithin, _⟩ => ?_
    rw [within_iff] at hwithin
    omega
  · exact limit_eq_next.2 ⟨h, (within_iff c t).2 ⟨hsrc, hcin, hcout, hdst, hpay⟩, (emittedBytes_le h).trans hsize⟩

end Sys2Proof.Machine
